-- ==== Sys2Proof/Word.lean ====
section
/-! DEFINITION. The word types of the JTAG scan core: the 32-bit word of the register window, the byte of a
HINT entry, and the bits of one shift. -/
namespace Sys2Proof

/-- A 32-bit word of the register window (20_memory.md R61); bit 0 is the least significant bit (00_scope.md R11). -/
abbrev Word := BitVec 32

/-- One HINT entry (10_state.md R35). -/
abbrev Byte := BitVec 8

/-- The TDI or TDO bits of one shift, bit k shifted or captured k-th (00_scope.md R13), before they go on the bus and after
they come from it. MAX_DR_WORDS is at most 64 (R8), so 2048 bits hold the vector of every legal configuration; the bus itself
has `Params.busWidth` bits (30_encoding.md R90). -/
abbrev Vec := BitVec 2048

/-- `ALL1` (00_scope.md R11): the 32-bit all-ones value that ends the IDCODE read-out. -/
def all1 : Word := 0xFFFFFFFF#32

end Sys2Proof
end

