-- ==== Sys2Proof/Syntax.lean ====
section
/-! DEFINITION. The command set: one constructor per row of spec/opcode_table.json (30_encoding.md R82), with the
operands of its assembler syntax (R86). -/
namespace Sys2Proof

/-- The sixteen commands. `idx` is a device index, `nbits` a bit count, `cap` the capture select (30_encoding.md R80,
R81). WRITE_IR's value is not in the word: it is ARG at acceptance. -/
inductive Instr where
  /-- SCAN, 40_discovery.md R111. -/
  | scan
  /-- SCANH, 40_discovery.md R112. -/
  | scanh
  /-- WRITE_IR, 41_addressed_access.md R160. -/
  | writeIr (idx : Nat)
  /-- SHIFT_DR, 41_addressed_access.md R166. -/
  | shiftDr (idx : Nat) (nbits : Nat) (cap : Bool)
  /-- HOOK_DONE, 40_discovery.md R142. -/
  | hookDone
  /-- RD_COUNT, 42_readback.md R181. -/
  | rdCount
  /-- RD_IDCODE, 42_readback.md R182. -/
  | rdIdcode (idx : Nat)
  /-- RD_IRLEN, 42_readback.md R183. -/
  | rdIrlen (idx : Nat)
  /-- RD_DESC, 42_readback.md R184. -/
  | rdDesc (idx : Nat)
  /-- RD_INDEX, 42_readback.md R185. -/
  | rdIndex (idx : Nat)
  /-- RD_IRPRE, 42_readback.md R186. -/
  | rdIrpre (idx : Nat)
  /-- RD_IRPOST, 42_readback.md R187. -/
  | rdIrpost (idx : Nat)
  /-- RD_DRPRE, 42_readback.md R188. -/
  | rdDrpre (idx : Nat)
  /-- RD_DRPOST, 42_readback.md R189. -/
  | rdDrpost (idx : Nat)
  /-- RD_CURIR, 42_readback.md R190. -/
  | rdCurir (idx : Nat)
  /-- RD_CURIRK, 42_readback.md R191. -/
  | rdCurirk (idx : Nat)
deriving DecidableEq, Repr

end Sys2Proof
end

