-- ==== Sys2Proof/WellFormed.lean ====
section
/-! DEFINITION. Well-formed commands: every operand fits its field of the command word (30_encoding.md R80). Whether an
operand is in range for the machine (a live index, a bit count DIN can hold) is no matter of form: such a word is legal
and its rule refuses it (R84). -/
namespace Sys2Proof

/-- A device index fits the 8-bit IDX field (30_encoding.md R80). -/
def idxFits (idx : Nat) : Bool := decide (idx < 256)

/-- A bit count fits the 12-bit NBITS field (30_encoding.md R80). -/
def nbitsFits (nbits : Nat) : Bool := decide (nbits < 4096)

/-- Every operand of the command fits its field. -/
def Instr.wellFormed : Instr → Bool
  | .scan => true
  | .scanh => true
  | .writeIr idx => idxFits idx
  | .shiftDr idx nbits _ => idxFits idx && nbitsFits nbits
  | .hookDone => true
  | .rdCount => true
  | .rdIdcode idx => idxFits idx
  | .rdIrlen idx => idxFits idx
  | .rdDesc idx => idxFits idx
  | .rdIndex idx => idxFits idx
  | .rdIrpre idx => idxFits idx
  | .rdIrpost idx => idxFits idx
  | .rdDrpre idx => idxFits idx
  | .rdDrpost idx => idxFits idx
  | .rdCurir idx => idxFits idx
  | .rdCurirk idx => idxFits idx

end Sys2Proof
end

