-- ==== Sys2Proof/Decode.lean ====
section
/-! DEFINITION. The command word (30_encoding.md R80 to R85): its fields, the decoder, total on every 32-bit word and
rejecting by name, and the encoder. -/
namespace Sys2Proof

/-- OPC, bits 7:0 (R80). -/
def opcOf (w : Word) : BitVec 8 := w.extractLsb' 0 8

/-- IDX, bits 15:8, as an unsigned device index (R80, R81). -/
def idxOf (w : Word) : Nat := (w.extractLsb' 8 8).toNat

/-- NBITS, bits 27:16, as an unsigned bit count (R80, R81). -/
def nbitsOf (w : Word) : Nat := (w.extractLsb' 16 12).toNat

/-- CAP, bit 28 (R80, R81). -/
def capOf (w : Word) : Bool := w.getLsbD 28

/-- RSV, bits 31:29 (R80). -/
def rsvOf (w : Word) : BitVec 3 := w.extractLsb' 29 3

/-- Why a word is illegal (R84). -/
inductive DecodeError where
  /-- OPC is not in the opcode map. -/
  | reservedOpcode
  /-- RSV is not zero. -/
  | reservedBits
  /-- A field the row marks "0" is not zero. -/
  | mustBeZero
deriving DecidableEq, Repr

/-- A row without operands: IDX, NBITS and CAP must be zero (R82, R83). -/
def decodePlain (i : Instr) (w : Word) : Except DecodeError Instr :=
  if idxOf w = 0 ∧ nbitsOf w = 0 ∧ capOf w = false then .ok i else .error .mustBeZero

/-- A row with IDX alone: NBITS and CAP must be zero (R82, R83). -/
def decodeIndexed (mk : Nat → Instr) (w : Word) : Except DecodeError Instr :=
  if nbitsOf w = 0 ∧ capOf w = false then .ok (mk (idxOf w)) else .error .mustBeZero

/-- Decoding (R83): the row whose OPC the word holds, legal only if every field that row marks "0", and RSV, is zero. -/
def decode (w : Word) : Except DecodeError Instr :=
  if rsvOf w ≠ 0#3 then .error .reservedBits else
  match opcOf w with
  | 0x01#8 => decodePlain .scan w
  | 0x02#8 => decodePlain .scanh w
  | 0x03#8 => decodeIndexed .writeIr w
  | 0x04#8 => .ok (.shiftDr (idxOf w) (nbitsOf w) (capOf w))
  | 0x05#8 => decodePlain .hookDone w
  | 0x10#8 => decodePlain .rdCount w
  | 0x20#8 => decodeIndexed .rdIdcode w
  | 0x21#8 => decodeIndexed .rdIrlen w
  | 0x22#8 => decodeIndexed .rdDesc w
  | 0x23#8 => decodeIndexed .rdIndex w
  | 0x24#8 => decodeIndexed .rdIrpre w
  | 0x25#8 => decodeIndexed .rdIrpost w
  | 0x26#8 => decodeIndexed .rdDrpre w
  | 0x27#8 => decodeIndexed .rdDrpost w
  | 0x28#8 => decodeIndexed .rdCurir w
  | 0x29#8 => decodeIndexed .rdCurirk w
  | _ => .error .reservedOpcode

/-- The assembler's word, `enc(opc, idx, nbits, cap) = opc | (idx << 8) | (nbits << 16) | (cap << 28)` (R81). -/
def enc (opc : Word) (idx nbits : Nat) (cap : Bool) : Word :=
  opc ||| (BitVec.ofNat 32 idx <<< 8) ||| (BitVec.ofNat 32 nbits <<< 16) ||| ((BitVec.ofBool cap).setWidth 32 <<< 28)

/-- The OPC value of each command (R82). -/
def opcodeOf : Instr → Word
  | .scan => 0x01#32
  | .scanh => 0x02#32
  | .writeIr _ => 0x03#32
  | .shiftDr _ _ _ => 0x04#32
  | .hookDone => 0x05#32
  | .rdCount => 0x10#32
  | .rdIdcode _ => 0x20#32
  | .rdIrlen _ => 0x21#32
  | .rdDesc _ => 0x22#32
  | .rdIndex _ => 0x23#32
  | .rdIrpre _ => 0x24#32
  | .rdIrpost _ => 0x25#32
  | .rdDrpre _ => 0x26#32
  | .rdDrpost _ => 0x27#32
  | .rdCurir _ => 0x28#32
  | .rdCurirk _ => 0x29#32

/-- The must-be-zero and opcode bits of each command's row (R83). -/
def maskOf : Instr → Word
  | .scan => 0xFFFFFFFF#32
  | .scanh => 0xFFFFFFFF#32
  | .writeIr _ => 0xFFFF00FF#32
  | .shiftDr _ _ _ => 0xE00000FF#32
  | .hookDone => 0xFFFFFFFF#32
  | .rdCount => 0xFFFFFFFF#32
  | .rdIdcode _ => 0xFFFF00FF#32
  | .rdIrlen _ => 0xFFFF00FF#32
  | .rdDesc _ => 0xFFFF00FF#32
  | .rdIndex _ => 0xFFFF00FF#32
  | .rdIrpre _ => 0xFFFF00FF#32
  | .rdIrpost _ => 0xFFFF00FF#32
  | .rdDrpre _ => 0xFFFF00FF#32
  | .rdDrpost _ => 0xFFFF00FF#32
  | .rdCurir _ => 0xFFFF00FF#32
  | .rdCurirk _ => 0xFFFF00FF#32

/-- The encoder: the one word of a command (R81, R82, R85). -/
def encode : Instr → Word
  | .scan => enc 0x01#32 0 0 false
  | .scanh => enc 0x02#32 0 0 false
  | .writeIr idx => enc 0x03#32 idx 0 false
  | .shiftDr idx nbits cap => enc 0x04#32 idx nbits cap
  | .hookDone => enc 0x05#32 0 0 false
  | .rdCount => enc 0x10#32 0 0 false
  | .rdIdcode idx => enc 0x20#32 idx 0 false
  | .rdIrlen idx => enc 0x21#32 idx 0 false
  | .rdDesc idx => enc 0x22#32 idx 0 false
  | .rdIndex idx => enc 0x23#32 idx 0 false
  | .rdIrpre idx => enc 0x24#32 idx 0 false
  | .rdIrpost idx => enc 0x25#32 idx 0 false
  | .rdDrpre idx => enc 0x26#32 idx 0 false
  | .rdDrpost idx => enc 0x27#32 idx 0 false
  | .rdCurir idx => enc 0x28#32 idx 0 false
  | .rdCurirk idx => enc 0x29#32 idx 0 false

/-- What the decoder reads from an instruction given as the opcode table numbers its bits. Every command is exactly one
32-bit word (R85), so at most 32 bits are given and those above `nbits` are zero. -/
def decodeTableWord (nbits w : Nat) : Option Instr :=
  if nbits ≤ 32 then (decode (BitVec.ofNat 32 (w % 2 ^ nbits))).toOption else none

end Sys2Proof
end

