-- ==== Sys2Proof/Config.lean ====
section
/-! DEFINITION. The implementation parameters (00_scope.md R8): a record that State carries unchanged, so that every
statement about every state is a statement about every choice of the parameters. -/
namespace Sys2Proof

/-- One entry of `DESC_TABLE` (10_state.md R37): it matches an IDCODE when `idcode & mask == expected`. -/
structure Descriptor where
  expected : Word
  mask : Word
deriving DecidableEq, Repr

/-- The parameters of 00_scope.md R8. `NDESC` is the length of `descTable`. -/
structure Params where
  /-- `MAX_DEVS`: maximum number of live devices; the Device Table has one slot more. -/
  maxDevs : Nat
  /-- `MAX_IR_LEN`: maximum IR length of one device. -/
  maxIrLen : Nat
  /-- `MAX_DR_WORDS`: size of DIN and of DOUT in 32-bit words. -/
  maxDrWords : Nat
  /-- `DESC_TABLE`, searched in order (10_state.md R37). -/
  descTable : List Descriptor
  /-- `WINDOW_BASE`: base address of the register window (20_memory.md R61). -/
  windowBase : Nat
deriving DecidableEq, Repr

/-- `MAX_DR_BITS = 32 * MAX_DR_WORDS` (00_scope.md R8). -/
def Params.maxDrBits (p : Params) : Nat := 32 * p.maxDrWords

/-- The width of VEC and TDO on the TAP request bus, max(32, MAX_DR_BITS) (30_encoding.md R90). -/
def Params.busWidth (p : Params) : Nat := max 32 p.maxDrBits

/-- `NDESC` (00_scope.md R8). -/
def Params.ndesc (p : Params) : Nat := p.descTable.length

/-- The legal ranges of 00_scope.md R8. -/
structure Params.Legal (p : Params) : Prop where
  devs_pos : 1 ≤ p.maxDevs
  devs_le : p.maxDevs ≤ 255
  irLen_pos : 1 ≤ p.maxIrLen
  irLen_le : p.maxIrLen ≤ 32
  drWords_pos : 1 ≤ p.maxDrWords
  drWords_le : p.maxDrWords ≤ 64
  ndesc_le : p.ndesc ≤ 255
  base_aligned : p.windowBase % 4096 = 0

/-- The default column of 00_scope.md R8. PRESUMED (the spec marks 32 and 16 as general knowledge); WINDOW_BASE has
no default there ("offsets only are used"): DESIGN CHOICE 0. Unsafe: notes/assumptions/1.md. -/
def Params.default : Params :=
  { maxDevs := 32, maxIrLen := 16, maxDrWords := 2, descTable := [], windowBase := 0 }

/-- `IDLE_CYCLES`, the `cycles` argument of every RETURN_IDLE: the spec fixes it at 1 (00_scope.md R8, 92 D12). -/
def Config.idleCycles : Nat := 1

end Sys2Proof
end

