-- ==== Sys2Proof/Machine/State.lean ====
section
/-! DEFINITION. The machine's state as plain data: every register, table, flag and buffer of 10_state.md, the TAP
controllers' resting state (R39), the moves the environment has still to make, and what the block has put out. -/
namespace Sys2Proof.Machine

/-- A buffer as a list of (index, value), indices strictly rising (`Memory.wf`); an index not listed holds no value
(70_reset_and_hazards.md R232). HINT is a `Memory Byte`, that is a list of `Host.Cell`. -/
abbrev Memory (α : Type) := List (Nat × α)

/-- One device record (10_state.md R23). A record's index is its slot number. -/
structure DevRec where
  idcode : Word
  irLength : BitVec 8
  irPrescan : BitVec 16
  irPostscan : BitVec 16
  drPrescan : BitVec 8
  drPostscan : BitVec 8
  currentIr : Word
  curKnown : Bool
  descValid : Bool
  descIdx : BitVec 8
deriving DecidableEq, Repr

/-- `ZERO_RECORD`, the zero record column of 10_state.md R23. -/
def DevRec.zero : DevRec :=
  { idcode := 0#32, irLength := 0#8, irPrescan := 0#16, irPostscan := 0#16, drPrescan := 0#8, drPostscan := 0#8,
    currentIr := 0#32, curKnown := false, descValid := false, descIdx := 0#8 }

/-- The control FSM's phases (10_state.md R26). Reserved values are never entered and have no constructor. -/
inductive Phase where
  | idle | hookWait
  | scClear | scInit | scReset
  | idEnter | idShift | idExit | idIdle
  | irEnter | irHint | irFirst | irProbe | irExit | irIdle
  | drEnter | drCount | drExit | drIdle
  | scPost | scClassify
  | failExit | failIdle | failClear
  | wiEnter | wiPre | wiVal | wiPost | wiIdle
  | sdEnter | sdPre | sdData | sdPost | sdIdle
deriving DecidableEq, Repr

/-- The modes of 60_exceptions.md R200, a function of the phase. -/
inductive Mode where
  | idle | busy | hook
deriving DecidableEq, Repr

/-- The error codes of 60_exceptions.md R207; codes 11..15 are never written and have no constructor. -/
inductive ErrCode where
  | none | tapInitFail | chainOverrun | irOverrun | devOverrun | countMismatch | hintRange
  | illegalCmd | badIndex | badNbits | badState
deriving DecidableEq, Repr

/-- The TDI source of a shift (20_memory.md R74): all-ones, or a vector whose bits at or above the count are zero. -/
inductive Src where
  | ones
  | vec (bits : Vec)
deriving DecidableEq, Repr

/-- A TAP request (20_memory.md R74). `n` is the bit count, `exit` the source's `last_bit_exits`. -/
inductive TapReq where
  | init
  | reset
  | enterShiftIr
  | enterShiftDr
  | returnIdle (cycles : Nat)
  | shift (src : Src) (n : Nat) (exit : Bool)
  | shiftCapture (src : Src) (n : Nat) (exit : Bool)
deriving DecidableEq, Repr

/-- What the TAP driver draws as it completes a request (20_memory.md R76), and what the core reads in the response that
carries the draw (30_encoding.md R90): OK, for INIT, and the captured bits, for SHIFT_CAPTURE. LAST is bit `COUNT - 1` of
`tdo`. The response to each request is `TapReq.received`. -/
structure TapResp where
  ok : Bool
  tdo : Vec
deriving DecidableEq, Repr

/-- The response the core goes on with in a phase that issues no request; nothing reads it there. -/
def TapResp.silent : TapResp := { ok := false, tdo := 0#2048 }

/-- Where the TAP driver contract (20_memory.md R75) leaves the devices' TAP controllers. -/
inductive TapCtl where
  /-- Before the first scan, or after a reset that abandoned a request (10_state.md R39). -/
  | unknown
  /-- Run-Test/Idle. -/
  | runTestIdle
  /-- Shift-IR. -/
  | shiftIr
  /-- Shift-DR. -/
  | shiftDr
  /-- Exit1-IR. -/
  | exit1Ir
  /-- Exit1-DR. -/
  | exit1Dr
deriving DecidableEq, Repr

/-- The width of a host access in bits, any number of them (20_memory.md R62). -/
structure Width where
  bits : Nat
deriving DecidableEq, Repr

/-- The one width the window answers (20_memory.md R62). -/
def Width.word : Width := ⟨32⟩

/-- A host or hook-agent access at an address of the host's address space (20_memory.md R61, R62). -/
inductive Access where
  /-- LDW, and a load of any other width. -/
  | load (width : Width) (addr : Nat)
  /-- STW, and a store of any other width: that one stores nothing, so no more than 32 bits of its data are kept. -/
  | store (width : Width) (addr : Nat) (data : Word)
deriving DecidableEq, Repr

/-- One move in the total order of host accesses, driver completions, core steps and resets (20_memory.md R69). -/
inductive Move where
  /-- The host, or the hook agent through the same port, accesses the window. -/
  | host (a : Access)
  /-- The TAP driver completes the outstanding request with this response. -/
  | tap (resp : TapResp)
  /-- The core takes an internal step before anyone else moves. -/
  | core
  /-- RST is asserted for one step (70_reset_and_hazards.md R230). -/
  | rst
deriving DecidableEq, Repr

/-- What the block puts out. -/
inductive Output where
  /-- A TAP request, recorded by the step that completes it (60_exceptions.md R202 (b), R219). -/
  | tap (req : TapReq)
  /-- DOWNSTREAM_RELEASE, to the release sink (60_exceptions.md R215). -/
  | downstreamRelease
  /-- HOOK_REQ(j, d), to the hook agent (60_exceptions.md R215). -/
  | hookReq (dev desc : BitVec 8)
  /-- The data of a host load. -/
  | loadData (data : Word)
deriving DecidableEq, Repr

/-- Everything the spec gives the machine (10_state.md), and the model's own `env` and `trace`. -/
structure State where
  /-- The parameters of 00_scope.md R8; no step changes them. -/
  params : Params
  /-- `CMD_LAST` (R34). -/
  cmdLast : Word
  /-- ARG (R32). -/
  arg : Word
  /-- RESULT (R33). -/
  result : Word
  /-- The Device Table `rec[0..MAX_DEVS]` (R22). -/
  table : List DevRec
  /-- `device_count` (R24). -/
  deviceCount : BitVec 8
  /-- `phase` (R26). -/
  phase : Phase
  /-- `tap_ready` (R28). -/
  tapReady : Bool
  /-- `hook_active` (R28). -/
  hookActive : Bool
  /-- `hook_dev` (R28). -/
  hookDev : BitVec 8
  /-- `hook_desc` (R28). -/
  hookDesc : BitVec 8
  /-- `warn_ir0` (R28). -/
  warnIr0 : Bool
  /-- `drop` (R28). -/
  drop : Bool
  /-- `err` (R28). -/
  err : ErrCode
  /-- `opl_cmd` (R27). -/
  oplCmd : Word
  /-- `opl_arg` (R27). -/
  oplArg : Word
  /-- `n`, IDCODE counter (R27). -/
  n : BitVec 9
  /-- `k`, hint index (R27). -/
  k : BitVec 9
  /-- `dev`, probe device cursor (R27). -/
  dev : BitVec 9
  /-- `len`, probe current IR length (R27). -/
  len : BitVec 8
  /-- `pre`, running prescan sum (R27). -/
  pre : BitVec 16
  /-- `cnt`, IR-stage device count (R27). -/
  cnt : BitVec 9
  /-- `i`, DR pass counter (R27). -/
  i : BitVec 9
  /-- `j`, classification cursor (R27). -/
  j : BitVec 9
  /-- `fail_code`, the error a failing scan will record (R27). -/
  failCode : ErrCode
  /-- `from_hook`, the command was accepted in HOOK mode (R27). -/
  fromHook : Bool
  /-- HINT, by entry (R35). -/
  hint : Memory Byte
  /-- DIN, by word (R36). -/
  din : Memory Word
  /-- DOUT, by bit (R36, R232). -/
  dout : Memory Bool
  /-- The devices' TAP controllers (R39, 20_memory.md R75): outside the block, read by none of its rules. -/
  tapCtl : TapCtl
  /-- The model's own: the moves still to come, in order (notes/assumptions/2.md). -/
  env : List Move
  /-- The model's own: what the block has put out, newest first (notes/assumptions/3.md). -/
  trace : List Output
deriving DecidableEq, Repr

/-- Why a run stops. Each is a fault the spec names; all are safe (the spec: "errs toward unprovable"). -/
inductive Fault where
  /-- A host access that is not 32 bits wide or not 4-aligned (20_memory.md R62). Raised by `State.hostAccess`. Safe. -/
  | busError
  /-- A host access at an address outside the register window, where this block has nothing (20_memory.md R61). Raised
  by `State.hostAccess`. Safe. -/
  | outsideWindow
  /-- A host load of an unwritten HINT byte (70_reset_and_hazards.md R232). Raised by `State.loadHint`. Safe. -/
  | hintReadUnwritten
  /-- A host load of an unwritten DIN word (R232). Raised by `State.loadDin`. Safe. -/
  | dinReadUnwritten
  /-- A host load of a DOUT word with a bit no capture has written (R232). Raised by `State.loadDout`. Safe. -/
  | doutReadUnwritten
  /-- SCANH reads an unwritten HINT entry (R232). Raised by `State.phaseIrHint`. Safe. -/
  | hintUsedUnwritten
  /-- SHIFT_DR consumes a DIN bit of an unwritten word (R232). Raised by `State.phaseSdData`. Safe. -/
  | dinUsedUnwritten
  /-- A host store to HINT while BUSY (R236). Raised by `State.storeHint`. Safe. -/
  | hintWriteBusy
  /-- A host store to DIN while BUSY (R236). Raised by `State.storeDin`. Safe. -/
  | dinWriteBusy
deriving DecidableEq, Repr

/-- Why an instruction has no meaning. -/
inductive Refusal where
  /-- The instruction's arm in Dispatch.lean is still to be written. Raised there alone; safe. No arm is so today. -/
  | notModelled (mnemonic : String)
deriving DecidableEq, Repr

/-- The outcome of one step of this machine. -/
abbrev Outcome := Host.Outcome State Fault Refusal

/-- The block built with parameters `p`, right after reset (10_state.md R40, 70_reset_and_hazards.md R230). The working
registers, whose reset value R40 leaves unspecified, hold 0: DESIGN CHOICE, unsafe, notes/assumptions/9.md. -/
def State.resetWith (p : Params) : State :=
  { params := p
    cmdLast := 0#32, arg := 0#32, result := 0#32
    table := List.replicate (p.maxDevs + 1) DevRec.zero
    deviceCount := 0#8
    phase := .idle
    tapReady := false, hookActive := false, hookDev := 0#8, hookDesc := 0#8
    warnIr0 := false, drop := false, err := .none
    oplCmd := 0#32, oplArg := 0#32
    n := 0#9, k := 0#9, dev := 0#9, len := 0#8, pre := 0#16, cnt := 0#9, i := 0#9, j := 0#9
    failCode := .none, fromHook := false
    hint := [], din := [], dout := []
    tapCtl := .unknown
    env := [], trace := [] }

/-- The machine right after reset, with the default parameters of 00_scope.md R8. -/
def State.reset : State := State.resetWith Params.default

end Sys2Proof.Machine
end

