-- ==== Sys2Proof/Machine/Ops.lean ====
section
/-! DEFINITION. The named operations over buffers, the Device Table and the registers, and the shared exits of a command:
acceptance (60_exceptions.md R201), refusal (R203), drop (R204), completion (R205) and the failure of a scan
(40_discovery.md R140). -/
namespace Sys2Proof.Machine

variable {α : Type}

/-- The canonical form of a buffer: indices strictly rising. -/
abbrev Memory.wf (m : Memory α) : Prop := (m.map Prod.fst).Pairwise (· < ·)

/-- The value at index `a`, or none where nothing has been written (70_reset_and_hazards.md R232). -/
def Memory.read : Memory α → Nat → Option α
  | [], _ => none
  | (b, v) :: rest, a => if a = b then some v else Memory.read rest a

/-- Write `v` at index `a`, keeping the indices rising. -/
def Memory.write : Memory α → Nat → α → Memory α
  | [], a, v => [(a, v)]
  | (b, w) :: rest, a, v =>
    if a < b then (a, v) :: (b, w) :: rest
    else if a = b then (a, v) :: rest
    else (b, w) :: Memory.write rest a v

/-- Write bits `0 .. count-1` of `v` at indices `0 .. count-1` (41_addressed_access.md R168). -/
def Memory.writeBits (m : Memory Bool) (v : Vec) : Nat → Memory Bool
  | 0 => m
  | count + 1 => (Memory.writeBits m v count).write count (v.getLsbD count)

/-- The record in slot `i` (10_state.md R22). -/
def State.slot (s : State) (i : Nat) : DevRec := s.table.getD i DevRec.zero

/-- Change the record in slot `i`; a slot the table does not have is not written. -/
def State.modifySlot (s : State) (i : Nat) (f : DevRec → DevRec) : State :=
  { s with table := s.table.modify i f }

/-- Every slot, the sentinel included, becomes the zero record, and `device_count` 0 (40_discovery.md R114, R140). -/
def State.clearTable (s : State) : State :=
  { s with table := List.replicate (s.params.maxDevs + 1) DevRec.zero, deviceCount := 0#8 }

/-- A record whose IR cache is unknown (41_addressed_access.md R163). -/
def DevRec.forget (r : DevRec) : DevRec := { r with curKnown := false }

/-- `cur_known <- 0` in every slot (41_addressed_access.md R163). -/
def State.forgetAll (s : State) : State := { s with table := s.table.map DevRec.forget }

/-- Put out one output (60_exceptions.md R215: "an output action of the step that emits it"). -/
def State.emit (s : State) (o : Output) : State := { s with trace := o :: s.trace }

/-- `phase <- P` (00_scope.md R12). -/
def State.goto (s : State) (p : Phase) : State := { s with phase := p }

/-- The moves still to come, once one has been taken. -/
def State.withEnv (s : State) (rest : List Move) : State := { s with env := rest }

/-- The mode (60_exceptions.md R200). -/
def State.mode (s : State) : Mode :=
  match s.phase with
  | .idle => .idle
  | .hookWait => .hook
  | _ => .busy

/-- The phase a command returns to: the mode it was accepted in (60_exceptions.md R203, R205). -/
def State.home (s : State) : Phase := if s.fromHook then .hookWait else .idle

/-- `reject(code)` (60_exceptions.md R203). -/
def State.reject (s : State) (code : ErrCode) : State :=
  { s with err := code, result := 0#32, phase := s.home }

/-- `complete(result)` (60_exceptions.md R205). -/
def State.complete (s : State) (r : Word) : State :=
  { s with result := r, err := .none, phase := s.home }

/-- The completion of a scan (40_discovery.md R141): it goes to IDLE whatever `from_hook` says (60_exceptions.md R205). -/
def State.completeScan (s : State) : State :=
  { s with result := s.cnt.setWidth 32, err := .none, phase := .idle }

/-- `fail(code)` up to its first phase (40_discovery.md R140): no exit requests after TAP_INIT_FAIL. The rest is
`State.phaseFailExit`, `State.phaseFailIdle` and `State.phaseFailClear`. -/
def State.fail (s : State) (code : ErrCode) : State :=
  State.goto { s with failCode := code } (if code = .tapInitFail then .failClear else .failExit)

/-- A CMD write while BUSY sets `drop` and changes nothing else (60_exceptions.md R204). -/
def State.dropCommand (s : State) : State := { s with drop := true }

/-- What acceptance latches (60_exceptions.md R201). -/
def State.latch (s : State) (w : Word) : State :=
  { s with cmdLast := w, oplCmd := w, oplArg := s.arg, drop := false, fromHook := decide (s.mode = .hook) }

/-- `allowed(c, mode)`, the "execute" cells of 60_exceptions.md R213. -/
def allowed : Instr → Mode → Bool
  | _, .busy => false
  | .scan, m => decide (m = .idle)
  | .scanh, m => decide (m = .idle)
  | .hookDone, m => decide (m = .hook)
  | .writeIr _, _ => true
  | .shiftDr _ _ _, _ => true
  | .rdCount, _ => true
  | .rdIdcode _, _ => true
  | .rdIrlen _, _ => true
  | .rdDesc _, _ => true
  | .rdIndex _, _ => true
  | .rdIrpre _, _ => true
  | .rdIrpost _, _ => true
  | .rdDrpre _, _ => true
  | .rdDrpost _, _ => true
  | .rdCurir _, _ => true
  | .rdCurirk _, _ => true

/-- The acceptance step of a legal command (60_exceptions.md R201, R213): dropped while BUSY; else latched, refused with
BAD_STATE where the mode does not allow it, and run. A legal word is the encoding of its command (30_encoding.md R83,
R85), so the word latched is `encode c`. -/
def State.accept (s : State) (c : Instr) (run : State → State) : State :=
  if s.mode = .busy then s.dropCommand
  else if allowed c s.mode then run (s.latch (encode c))
  else (s.latch (encode c)).reject .badState

/-- The acceptance step of an illegal word (30_encoding.md R84, 60_exceptions.md R201, R213). -/
def State.acceptIllegal (s : State) (w : Word) : State :=
  if s.mode = .busy then s.dropCommand else (s.latch w).reject .illegalCmd

/-- The index check common to every indexed command (41_addressed_access.md R165). -/
def State.indexed (s : State) (idx : Nat) (run : State → State) : State :=
  if idx < s.deviceCount.toNat then run s else s.reject .badIndex

/-- Block reset (70_reset_and_hazards.md R230, R231): every piece of state at its reset value, no request, no event; an
outstanding request is abandoned. The TAP's state is unknown until the next scan has passed SC_RESET (10_state.md R39).
The moves to come and what has been put out are not the block's. -/
def State.blockReset (s : State) : State := { State.resetWith s.params with env := s.env, trace := s.trace }

end Sys2Proof.Machine
end

