-- ==== Sys2Proof/Machine/Operands.lean ====
section
/-! DEFINITION. The operands a running command takes from its latched word and from ARG, HINT and DIN (30_encoding.md R81,
10_state.md R27, R35, R36), and the vectors it shifts (20_memory.md R65). -/
namespace Sys2Proof.Machine

/-- LAST, the last captured bit of a SHIFT_CAPTURE of `count` bits (20_memory.md R74, 30_encoding.md R90). -/
def TapResp.last (resp : TapResp) (count : Nat) : Bool := resp.tdo.getLsbD (count - 1)

/-- `idx` of the running command (30_encoding.md R81). -/
def State.oplIdx (s : State) : Nat := idxOf s.oplCmd

/-- `nbits` of the running command (30_encoding.md R81). -/
def State.oplNbits (s : State) : Nat := nbitsOf s.oplCmd

/-- `cap` of the running command (30_encoding.md R81). -/
def State.oplCap (s : State) : Bool := capOf s.oplCmd

/-- The running scan is SCANH (40_discovery.md R110, R123). -/
def State.hinted (s : State) : Bool := decide (opcOf s.oplCmd = 0x02#8)

/-- The record of the running addressed command. -/
def State.target (s : State) : DevRec := s.slot s.oplIdx

/-- Bits `count-1 .. 0` of `v`, the bits at or above `count` zero (30_encoding.md R90). -/
def lowBits (v : Vec) (count : Nat) : Vec := v &&& (BitVec.ofNat 2048 (2 ^ count - 1))

/-- `value[ir_length-1:0]` (41_addressed_access.md R161, R164). -/
def State.irVector (s : State) : Vec := lowBits (s.oplArg.setWidth 2048) s.target.irLength.toNat

/-- DIN words `0 .. count-1` as one number, or none if one of them is unwritten (70_reset_and_hazards.md R232). -/
def dinNumber (m : Memory Word) : Nat → Option Nat
  | 0 => some 0
  | count + 1 =>
    match dinNumber m count, m.read count with
    | some lo, some w => some (lo + w.toNat * 2 ^ (32 * count))
    | _, _ => none

/-- `DIN[nbits-1:0]`, or none if it consumes a bit of an unwritten word (41_addressed_access.md R167,
70_reset_and_hazards.md R232): words `0 .. ⌈nbits/32⌉-1` (R233). -/
def State.dinVector (s : State) : Option Vec :=
  match dinNumber s.din ((s.oplNbits + 31) / 32) with
  | some x => some (lowBits (BitVec.ofNat 2048 x) s.oplNbits)
  | none => none

/-- What IR_HINT finds at entry `k` (40_discovery.md R124, R126). -/
inductive HintEntry where
  /-- The list ends here: `MAX_DEVS` entries are read, or the entry is the terminator 0. -/
  | stop
  /-- The entry is greater than `MAX_IR_LEN`. -/
  | range
  /-- The entry has not been written. -/
  | unwritten
  /-- The entry is an IR length. -/
  | length (h : Byte)
deriving DecidableEq, Repr

/-- The HINT entry the cursor `k` stands at (40_discovery.md R124, R126). -/
def State.hintEntry (s : State) : HintEntry :=
  if s.params.maxDevs ≤ s.k.toNat then .stop else
  match s.hint.read s.k.toNat with
  | none => .unwritten
  | some h => if h = 0#8 then .stop else if s.params.maxIrLen < h.toNat then .range else .length h

end Sys2Proof.Machine
end

