-- ==== Sys2Proof/Machine/Addressed.lean ====
section
/-! DEFINITION. Addressed access (41_addressed_access.md): the commands WRITE_IR and SHIFT_DR and the effect of each of their
phases. A phase whose shift length is 0 is skipped (10_state.md R26, 00_scope.md R12). -/
namespace Sys2Proof.Machine

/-- The target's cache is known and equal to `value` in all 32 bits (41_addressed_access.md R162). -/
def DevRec.cacheHit (r : DevRec) (value : Word) : Bool := r.curKnown && decide (r.currentIr = value)

/-- The cache of a WRITE_IR that shifts: every slot unknown, then the target known and equal to `value` (R161, R163). -/
def State.fillCache (s : State) (idx : Nat) (value : Word) : State :=
  s.forgetAll.modifySlot idx (fun r => { r with currentIr := value, curKnown := true })

/-- WRITE_IR (41_addressed_access.md R160 to R165): refused on a bad index, complete at once on a cache hit; else the
caches change and the acceptance step leaves with phase WI_ENTER (60_exceptions.md R201). -/
def execWriteIr (idx : Nat) (s : State) : Outcome :=
  .next (s.accept (.writeIr idx) fun t => t.indexed idx fun u =>
    if (u.slot idx).cacheHit u.oplArg then u.complete 0#32
    else (u.fillCache idx u.oplArg).goto .wiEnter)

/-- SHIFT_DR (41_addressed_access.md R166 to R169): refused on a bad index, then on a bad bit count; else the acceptance
step leaves with phase SD_ENTER (60_exceptions.md R201). -/
def execShiftDr (idx nbits : Nat) (cap : Bool) (s : State) : Outcome :=
  .next (s.accept (.shiftDr idx nbits cap) fun t => t.indexed idx fun u =>
    if nbits = 0 ∨ u.params.maxDrBits < nbits then u.reject .badNbits
    else u.goto .sdEnter)

/-- The phase after the value shift of WRITE_IR: WI_POST, or WI_IDLE when there is nothing to pad (R161). -/
def State.afterWiVal (s : State) : Phase := if s.target.irPostscan = 0#16 then .wiIdle else .wiPost

/-- The phase after the leading padding of WRITE_IR: the value shift, unless it is empty. -/
def State.afterWiPre (s : State) : Phase := if s.target.irLength = 0#8 then s.afterWiVal else .wiVal

/-- The phase after WI_ENTER: WI_PRE, or what follows it when there is nothing to pad (R161). -/
def State.afterWiEnter (s : State) : Phase := if s.target.irPrescan = 0#16 then s.afterWiPre else .wiPre

/-- WI_ENTER (R161). -/
def State.phaseWiEnter (s : State) : State := s.goto s.afterWiEnter

/-- WI_PRE (R161). -/
def State.phaseWiPre (s : State) : State := s.goto s.afterWiPre

/-- WI_VAL (R161). -/
def State.phaseWiVal (s : State) : State := s.goto s.afterWiVal

/-- WI_POST (R161). -/
def State.phaseWiPost (s : State) : State := s.goto .wiIdle

/-- WI_IDLE: the command completes (R161, R172). -/
def State.phaseWiIdle (s : State) : State := s.complete 0#32

/-- The phase after the data shift of SHIFT_DR: SD_POST, or SD_IDLE when there is nothing to pad (R167). -/
def State.afterSdData (s : State) : Phase := if s.target.drPostscan = 0#8 then .sdIdle else .sdPost

/-- The phase after the leading padding of SHIFT_DR: the data shift, unless it is empty. -/
def State.afterSdPre (s : State) : Phase := if s.oplNbits = 0 then s.afterSdData else .sdData

/-- The phase after SD_ENTER: SD_PRE, or what follows it when there is nothing to pad (R167). -/
def State.afterSdEnter (s : State) : Phase := if s.target.drPrescan = 0#8 then s.afterSdPre else .sdPre

/-- SD_ENTER (R167). -/
def State.phaseSdEnter (s : State) : State := s.goto s.afterSdEnter

/-- SD_PRE (R167). -/
def State.phaseSdPre (s : State) : State := s.goto s.afterSdPre

/-- DOUT after the data shift: with cap = 1 the captured bits stand in bits `0 .. nbits-1`, the rest is kept (R168). -/
def State.captureDout (s : State) (resp : TapResp) : State :=
  { s with dout := if s.oplCap then s.dout.writeBits resp.tdo s.oplNbits else s.dout }

/-- SD_DATA (R167, R168): DOUT takes the captured bits when cap = 1; consuming an unwritten DIN word faults
(70_reset_and_hazards.md R232). -/
def State.phaseSdData (s : State) (resp : TapResp) : Outcome :=
  match s.dinVector with
  | none => .fault .dinUsedUnwritten
  | some _ => .next ((s.captureDout resp).goto s.afterSdData)

/-- SD_POST (R167). -/
def State.phaseSdPost (s : State) : State := s.goto .sdIdle

/-- SD_IDLE: the command completes (R167, R172). -/
def State.phaseSdIdle (s : State) : State := s.complete 0#32

end Sys2Proof.Machine
end

