-- ==== Sys2Proof/Machine/Discovery.lean ====
section
/-! DEFINITION. Chain discovery (40_discovery.md): the commands SCAN, SCANH and HOOK_DONE, and the effect of each phase of
the discovery FSM (10_state.md R26), of the offset calculator (SC_POST) and of the descriptor CAM (SC_CLASSIFY). A
phase that issues a TAP request takes the driver's response; which request that is stands in Machine/Tap.lean. -/
namespace Sys2Proof.Machine

/-- SCAN (40_discovery.md R111, 60_exceptions.md R201): the acceptance step leaves with phase SC_CLEAR. -/
def execScan (s : State) : Outcome :=
  .next (s.accept .scan fun t => t.goto .scClear)

/-- SCANH (40_discovery.md R112, 60_exceptions.md R201): as SCAN; the strategies part at IR_ENTER (R123). -/
def execScanh (s : State) : Outcome :=
  .next (s.accept .scanh fun t => t.goto .scClear)

/-- The end of a hook (40_discovery.md R142): the hook registers clear and classification goes on with device j + 1. -/
def State.endHook (s : State) : State :=
  State.goto { s with hookActive := false, hookDev := 0#8, hookDesc := 0#8, j := s.j + 1#9 } .scClassify

/-- HOOK_DONE (40_discovery.md R142). -/
def execHookDone (s : State) : Outcome := .next (s.accept .hookDone State.endHook)

/-- SC_CLEAR (40_discovery.md R114). With `tap_ready` set the FSM goes on to SC_RESET and issues no INIT (R115). -/
def State.phaseScClear (s : State) : State :=
  State.goto { (s.emit .downstreamRelease).clearTable with warnIr0 := false } (if s.tapReady then .scReset else .scInit)

/-- SC_INIT (40_discovery.md R115, R116). -/
def State.phaseScInit (s : State) (resp : TapResp) : State :=
  if s.tapReady then s.goto .scReset
  else if resp.ok then State.goto { s with tapReady := true } .scReset
  else s.fail .tapInitFail

/-- SC_RESET (40_discovery.md R117). -/
def State.phaseScReset (s : State) : State := s.goto .idEnter

/-- ID_ENTER (40_discovery.md R117, R118). -/
def State.phaseIdEnter (s : State) : State := { s with n := 0#9, phase := .idShift }

/-- The IDCODE of slot `n` (40_discovery.md R118). -/
def State.recordIdcode (s : State) (v : Word) : State :=
  { s.modifySlot s.n.toNat (fun r => { r with idcode := v }) with n := s.n + 1#9 }

/-- ID_SHIFT, one IDCODE capture (40_discovery.md R118, R119). -/
def State.phaseIdShift (s : State) (resp : TapResp) : State :=
  if resp.tdo.setWidth 32 = all1 then s.goto .idExit
  else if s.params.maxDevs < (s.n + 1#9).toNat then (s.recordIdcode (resp.tdo.setWidth 32)).fail .chainOverrun
  else s.recordIdcode (resp.tdo.setWidth 32)

/-- ID_EXIT (40_discovery.md R120). -/
def State.phaseIdExit (s : State) : State := s.goto .idIdle

/-- ID_IDLE (40_discovery.md R120). -/
def State.phaseIdIdle (s : State) : State := s.goto .irEnter

/-- The IR stage ends with count `c` (40_discovery.md R113, R131). -/
def State.endIr (s : State) (c : BitVec 9) : State := State.goto { s with cnt := c } .irExit

/-- Go to the next turn of the hinted loop: to IR_EXIT with the count `k` at the end of the list, to the failure of an
out-of-range hint before any shift of it, or to IR_HINT (40_discovery.md R124, R126). An unwritten entry is met in
IR_HINT (95_test_vectors.md V-M4). -/
def State.enterHint (s : State) : State :=
  match s.hintEntry with
  | .stop => s.endIr s.k
  | .range => s.fail .hintRange
  | .unwritten => s.goto .irHint
  | .length _ => s.goto .irHint

/-- The hinted loop starts at entry 0 (40_discovery.md R124). -/
def State.startHints (s : State) : State := { s with k := 0#9, pre := 0#16 }

/-- IR_ENTER (40_discovery.md R122, R123): SCANH reads the list, SCAN probes. -/
def State.phaseIrEnter (s : State) : State :=
  if s.hinted then s.startHints.enterHint else s.goto .irFirst

/-- The record of one hint, and the first-bit check (40_discovery.md R124, R125). -/
def State.recordHint (s : State) (h : Byte) (resp : TapResp) : State :=
  { s.modifySlot s.k.toNat (fun r => { r with irLength := h, irPrescan := s.pre }) with
    warnIr0 := if resp.tdo.getLsbD 0 then s.warnIr0 else true
    pre := s.pre + h.setWidth 16
    k := s.k + 1#9 }

/-- IR_HINT, one hinted capture (40_discovery.md R124); an unwritten entry faults (70_reset_and_hazards.md R232). -/
def State.phaseIrHint (s : State) (resp : TapResp) : Outcome :=
  match s.hintEntry with
  | .unwritten => .fault .hintUsedUnwritten
  | .length h => .next (s.recordHint h resp).enterHint
  | .stop => .next s.enterHint
  | .range => .next s.enterHint

/-- IR_FIRST (40_discovery.md R127): the first bit is device 0's bit 0 whatever its value. -/
def State.phaseIrFirst (s : State) (resp : TapResp) : State :=
  { s with
    warnIr0 := if resp.last 1 then s.warnIr0 else true
    dev := 0#9, len := 1#8, pre := 0#16, phase := .irProbe }

/-- Device `dev` is closed with the length counted; the captured 1 is bit 0 of the next one (40_discovery.md R128). -/
def State.recordProbe (s : State) : State :=
  { s.modifySlot s.dev.toNat (fun r => { r with irLength := s.len, irPrescan := s.pre }) with
    pre := s.pre + s.len.setWidth 16
    dev := s.dev + 1#9
    len := 1#8 }

/-- One more IR bit of the current device (40_discovery.md R128). -/
def State.countIrBit (s : State) : State := { s with len := s.len + 1#8 }

/-- IR_PROBE, one probed bit (40_discovery.md R128, R129, R130). -/
def State.phaseIrProbe (s : State) (resp : TapResp) : State :=
  if resp.last 1 then
    if s.len = 1#8 then s.endIr s.dev
    else if s.params.maxDevs < (s.dev + 1#9).toNat then s.recordProbe.fail .devOverrun
    else s.recordProbe
  else if s.params.maxIrLen < (s.len + 1#8).toNat then s.countIrBit.fail .irOverrun
  else s.countIrBit

/-- IR_EXIT (40_discovery.md R131). -/
def State.phaseIrExit (s : State) : State := s.goto .irIdle

/-- IR_IDLE (40_discovery.md R131). -/
def State.phaseIrIdle (s : State) : State := s.goto .drEnter

/-- DR_ENTER (40_discovery.md R132). -/
def State.phaseDrEnter (s : State) : State := { s with i := 0#9, phase := .drCount }

/-- The DR offsets of device `i` (40_discovery.md R132, R134). -/
def State.recordDr (s : State) : State :=
  { s.modifySlot s.i.toNat
      (fun r => { r with drPrescan := s.i.setWidth 8, drPostscan := (s.cnt - s.i - 1#9).setWidth 8 }) with
    i := s.i + 1#9 }

/-- DR_COUNT, one captured bit (40_discovery.md R132, R133). -/
def State.phaseDrCount (s : State) (resp : TapResp) : State :=
  if resp.last 1 then
    if s.i = s.cnt then s.goto .drExit else s.fail .countMismatch
  else if s.i = s.cnt then s.fail .countMismatch
  else s.recordDr

/-- DR_EXIT (40_discovery.md R133). -/
def State.phaseDrExit (s : State) : State := s.goto .drIdle

/-- DR_IDLE: the one place that writes a non-zero `device_count` (40_discovery.md R133). -/
def State.phaseDrIdle (s : State) : State :=
  { s with deviceCount := s.cnt.setWidth 8, phase := .scPost }

/-- The backfill loop `for s from last down to 1` (40_discovery.md R136): slot `last` is done, the slots before it follow
from the tail to the head. -/
def backfill (t : List DevRec) : Nat → List DevRec
  | 0 => t
  | last + 1 =>
    let r := t.getD (last + 1) DevRec.zero
    backfill (t.modify last (fun q => { q with irPostscan := r.irPostscan + r.irLength.setWidth 16 })) last

/-- The `ir_postscan` of every device (40_discovery.md R136), and the cursor of the classification (R138). -/
def State.recordPostscan (s : State) : State := { s with table := backfill s.table (s.cnt.toNat - 1), j := 0#9 }

/-- SC_POST (40_discovery.md R136). Classification makes one step per device (R138): with none, the scan completes. -/
def State.phaseScPost (s : State) : State :=
  if s.cnt = 0#9 then s.recordPostscan.completeScan else s.recordPostscan.goto .scClassify

/-- The lowest descriptor index that matches an IDCODE (40_discovery.md R138). -/
def matchDescriptor : List Descriptor → Word → Option Nat
  | [], _ => none
  | d :: rest, idcode =>
    if idcode &&& d.mask = d.expected then some 0 else (matchDescriptor rest idcode).map (· + 1)

/-- `invoke_hook(j, d)`, with the marks a match leaves on the record (40_discovery.md R138, R139). -/
def State.invokeHook (s : State) (d : Nat) : State :=
  { (s.modifySlot s.j.toNat
        (fun r => { r with curKnown := false, descValid := true, descIdx := BitVec.ofNat 8 d })).emit
      (.hookReq (s.j.setWidth 8) (BitVec.ofNat 8 d)) with
    hookDev := s.j.setWidth 8, hookDesc := BitVec.ofNat 8 d, hookActive := true, phase := .hookWait }

/-- The classification cursor goes to the next device (40_discovery.md R138). -/
def State.nextDevice (s : State) : State := { s with j := s.j + 1#9 }

/-- SC_CLASSIFY, one device (40_discovery.md R138, R139, R141). A HOOK_DONE of the last device leaves `j = cnt`: the step
after it completes the scan (R142). -/
def State.phaseScClassify (s : State) : State :=
  if s.cnt.toNat ≤ s.j.toNat then s.completeScan else
  match matchDescriptor s.params.descTable (s.slot s.j.toNat).idcode with
  | some d => s.invokeHook d
  | none =>
    if s.cnt.toNat ≤ (s.j + 1#9).toNat then s.nextDevice.completeScan else s.nextDevice

/-- FAIL_EXIT (40_discovery.md R140). -/
def State.phaseFailExit (s : State) : State := s.goto .failIdle

/-- FAIL_IDLE (40_discovery.md R140). -/
def State.phaseFailIdle (s : State) : State := s.goto .failClear

/-- FAIL_CLEAR (40_discovery.md R140). -/
def State.phaseFailClear (s : State) : State :=
  { s.clearTable with err := s.failCode, result := 0#32, phase := .idle }

end Sys2Proof.Machine
end

