-- ==== Sys2Proof/Machine/Tap.lean ====
section
/-! DEFINITION. The TAP driver interface: which request each phase issues (10_state.md R26), the request bus
(30_encoding.md R90), the driver contract (20_memory.md R75), and the core's step in each phase
(60_exceptions.md R202 (b), (c)). -/
namespace Sys2Proof.Machine

/-- `shift_ones(n, exit)` (00_scope.md R12): a zero-length shift issues nothing. -/
def shiftOnes (n : Nat) (exit : Bool) : Option TapReq := if n = 0 then none else some (.shift .ones n exit)

/-- The request of IR_HINT (40_discovery.md R124). -/
def State.hintRequest (s : State) : Option TapReq :=
  match s.hintEntry with
  | .length h => some (.shiftCapture .ones h.toNat false)
  | .stop => none
  | .range => none
  | .unwritten => none

/-- The request of WI_VAL (41_addressed_access.md R161). -/
def State.valueRequest (s : State) : Option TapReq :=
  if s.target.irLength = 0#8 then none
  else some (.shift (.vec s.irVector) s.target.irLength.toNat (decide (s.target.irPostscan = 0#16)))

/-- The request of SD_DATA (41_addressed_access.md R167). -/
def State.dataRequest (s : State) : Option TapReq :=
  if s.oplNbits = 0 then none else
  match s.dinVector with
  | none => none
  | some v =>
    if s.oplCap then some (.shiftCapture (.vec v) s.oplNbits (decide (s.target.drPostscan = 0#8)))
    else some (.shift (.vec v) s.oplNbits (decide (s.target.drPostscan = 0#8)))

/-- The TAP request outstanding in this state, if its phase issues one (10_state.md R26). -/
def State.tapRequest (s : State) : Option TapReq :=
  match s.phase with
  | .idle => none
  | .hookWait => none
  | .scClear => none
  | .scInit => if s.tapReady then none else some .init
  | .scReset => some .reset
  | .idEnter => some .enterShiftDr
  | .idShift => some (.shiftCapture .ones 32 false)
  | .idExit => some (.shift .ones 1 true)
  | .idIdle => some (.returnIdle Config.idleCycles)
  | .irEnter => some .enterShiftIr
  | .irHint => s.hintRequest
  | .irFirst => some (.shiftCapture .ones 1 false)
  | .irProbe => some (.shiftCapture .ones 1 false)
  | .irExit => some (.shift .ones 1 true)
  | .irIdle => some (.returnIdle Config.idleCycles)
  | .drEnter => some .enterShiftDr
  | .drCount => some (.shiftCapture .ones 1 false)
  | .drExit => some (.shift .ones 1 true)
  | .drIdle => some (.returnIdle Config.idleCycles)
  | .scPost => none
  | .scClassify => none
  | .failExit => some (.shift .ones 1 true)
  | .failIdle => some (.returnIdle Config.idleCycles)
  | .failClear => none
  | .wiEnter => some .enterShiftIr
  | .wiPre => shiftOnes s.target.irPrescan.toNat false
  | .wiVal => s.valueRequest
  | .wiPost => shiftOnes s.target.irPostscan.toNat true
  | .wiIdle => some (.returnIdle Config.idleCycles)
  | .sdEnter => some .enterShiftDr
  | .sdPre => shiftOnes s.target.drPrescan.toNat false
  | .sdData => s.dataRequest
  | .sdPost => shiftOnes s.target.drPostscan.toNat true
  | .sdIdle => some (.returnIdle Config.idleCycles)

/-- The effect of one phase on the state, given the driver's response where the phase issues a request. IDLE and
HOOK_WAIT take no step (60_exceptions.md R202). -/
def State.phaseStep (s : State) (resp : TapResp) : Outcome :=
  match s.phase with
  | .idle => .next s
  | .hookWait => .next s
  | .scClear => .next s.phaseScClear
  | .scInit => .next (s.phaseScInit resp)
  | .scReset => .next s.phaseScReset
  | .idEnter => .next s.phaseIdEnter
  | .idShift => .next (s.phaseIdShift resp)
  | .idExit => .next s.phaseIdExit
  | .idIdle => .next s.phaseIdIdle
  | .irEnter => .next s.phaseIrEnter
  | .irHint => s.phaseIrHint resp
  | .irFirst => .next (s.phaseIrFirst resp)
  | .irProbe => .next (s.phaseIrProbe resp)
  | .irExit => .next s.phaseIrExit
  | .irIdle => .next s.phaseIrIdle
  | .drEnter => .next s.phaseDrEnter
  | .drCount => .next (s.phaseDrCount resp)
  | .drExit => .next s.phaseDrExit
  | .drIdle => .next s.phaseDrIdle
  | .scPost => .next s.phaseScPost
  | .scClassify => .next s.phaseScClassify
  | .failExit => .next s.phaseFailExit
  | .failIdle => .next s.phaseFailIdle
  | .failClear => .next s.phaseFailClear
  | .wiEnter => .next s.phaseWiEnter
  | .wiPre => .next s.phaseWiPre
  | .wiVal => .next s.phaseWiVal
  | .wiPost => .next s.phaseWiPost
  | .wiIdle => .next s.phaseWiIdle
  | .sdEnter => .next s.phaseSdEnter
  | .sdPre => .next s.phaseSdPre
  | .sdData => s.phaseSdData resp
  | .sdPost => .next s.phaseSdPost
  | .sdIdle => .next s.phaseSdIdle

/-- Where a shift leaves the TAP controllers (20_memory.md R75). -/
def shiftCtl (exit : Bool) : TapCtl → TapCtl
  | .shiftIr => if exit then .exit1Ir else .shiftIr
  | .shiftDr => if exit then .exit1Dr else .shiftDr
  | .unknown => .unknown
  | .runTestIdle => .unknown
  | .exit1Ir => .unknown
  | .exit1Dr => .unknown

/-- The TAP driver contract (20_memory.md R75): where a completed request leaves the TAP controllers. A request made in
a state the contract does not start it from leaves them unknown. -/
def contract : TapReq → TapCtl → TapCtl
  | .init, c => c
  | .reset, _ => .runTestIdle
  | .enterShiftIr, c => if c = .runTestIdle then .shiftIr else .unknown
  | .enterShiftDr, c => if c = .runTestIdle then .shiftDr else .unknown
  | .returnIdle _, c => if c = .exit1Ir ∨ c = .exit1Dr then .runTestIdle else .unknown
  | .shift _ _ exit, c => shiftCtl exit c
  | .shiftCapture _ _ exit, c => shiftCtl exit c

/-- The driver completes request `q`: it is recorded, and the TAP controllers follow the contract. -/
def State.completeRequest (s : State) (q : TapReq) : State :=
  { s.emit (.tap q) with tapCtl := contract q s.tapCtl }

/-- The request bus (30_encoding.md R90), with a VEC of `width` bits. -/
structure TapBus (width : Nat) where
  reqOp : BitVec 3
  count : BitVec 16
  exit : BitVec 1
  src : BitVec 1
  vec : BitVec width
deriving DecidableEq, Repr

/-- The response bus (30_encoding.md R90), with a TDO of `width` bits. -/
structure TapRespBus (width : Nat) where
  ok : BitVec 1
  tdo : BitVec width
  last : BitVec 1
deriving DecidableEq, Repr

/-- SRC of a shift: 0 = ONES, 1 = VEC (30_encoding.md R90). -/
def Src.bit : Src → BitVec 1
  | .ones => 0#1
  | .vec _ => 1#1

/-- VEC of a shift (30_encoding.md R90). For a ONES source R90 gives VEC no meaning; the model drives 0 there: DESIGN
CHOICE, notes/assumptions/19.md. -/
def Src.bits (width : Nat) : Src → BitVec width
  | .ones => 0#width
  | .vec v => v.setWidth width

/-- The encoding of a request on the bus (30_encoding.md R90), max(32, MAX_DR_BITS) bits of VEC wide. VEC of a request that
is no shift, which R90 leaves open too, is 0: DESIGN CHOICE, notes/assumptions/19.md. -/
def TapReq.bus (p : Params) : TapReq → TapBus p.busWidth
  | .init => ⟨0#3, 0#16, 0#1, 0#1, 0#p.busWidth⟩
  | .reset => ⟨1#3, 0#16, 0#1, 0#1, 0#p.busWidth⟩
  | .enterShiftIr => ⟨2#3, 0#16, 0#1, 0#1, 0#p.busWidth⟩
  | .enterShiftDr => ⟨3#3, 0#16, 0#1, 0#1, 0#p.busWidth⟩
  | .returnIdle c => ⟨4#3, BitVec.ofNat 16 c, 0#1, 0#1, 0#p.busWidth⟩
  | .shift src n exit => ⟨5#3, BitVec.ofNat 16 n, BitVec.ofBool exit, src.bit, src.bits p.busWidth⟩
  | .shiftCapture src n exit => ⟨6#3, BitVec.ofNat 16 n, BitVec.ofBool exit, src.bit, src.bits p.busWidth⟩

/-- A response that carries no data, which is every response but INIT's and SHIFT_CAPTURE's (30_encoding.md R90). A field a
response does not carry is 0 here and read by nothing: DESIGN CHOICE, notes/assumptions/19.md. -/
def TapRespBus.empty (width : Nat) : TapRespBus width := ⟨0#1, 0#width, 0#1⟩

/-- The response to a SHIFT_CAPTURE of `n` bits: TDO has the captured bits below COUNT and 0 from it on, and LAST is
`TDO[COUNT-1]` (30_encoding.md R90). -/
def TapRespBus.captured (width n : Nat) (tdo : Vec) : TapRespBus width :=
  { ok := 0#1, tdo := (lowBits tdo n).setWidth width
    last := BitVec.ofBool (((lowBits tdo n).setWidth width).getLsbD (n - 1)) }

/-- The response that carries the driver's draw back to the core, request by request (30_encoding.md R90). -/
def TapReq.respBus (p : Params) : TapReq → TapResp → TapRespBus p.busWidth
  | .init, r => { TapRespBus.empty p.busWidth with ok := BitVec.ofBool r.ok }
  | .reset, _ => TapRespBus.empty p.busWidth
  | .enterShiftIr, _ => TapRespBus.empty p.busWidth
  | .enterShiftDr, _ => TapRespBus.empty p.busWidth
  | .returnIdle _, _ => TapRespBus.empty p.busWidth
  | .shift _ _ _, _ => TapRespBus.empty p.busWidth
  | .shiftCapture _ n _, r => TapRespBus.captured p.busWidth n r.tdo

/-- The response as the core reads it off the bus: nothing but what the bus carries (30_encoding.md R90). -/
def TapReq.received (p : Params) (q : TapReq) (draw : TapResp) : TapResp :=
  { ok := decide ((q.respBus p draw).ok = 1#1), tdo := (q.respBus p draw).tdo.setWidth 2048 }

/-- The TAP driver's move (20_memory.md R76, 60_exceptions.md R202 (b)): one step is the request, its completion and the
effect of the response. A response to no outstanding request is ignored (70_reset_and_hazards.md R231). -/
def State.tapStep (s : State) (draw : TapResp) : Outcome :=
  match s.tapRequest with
  | none => .next s
  | some q => (s.completeRequest q).phaseStep (q.received s.params draw)

/-- The core's move (60_exceptions.md R202 (c)): an internal phase runs; with a TAP request outstanding the core does
nothing until the driver completes it (20_memory.md R76). -/
def State.coreStep (s : State) : Outcome :=
  match s.tapRequest with
  | none => s.phaseStep TapResp.silent
  | some _ => .next s

end Sys2Proof.Machine
end

