-- ==== Sys2Proof/Machine/Readback.lean ====
section
/-! DEFINITION. The readback commands (42_readback.md): each completes in the step that accepts it and issues no TAP
request (R180). -/
namespace Sys2Proof.Machine

/-- The common pseudocode of the indexed readbacks (42_readback.md R180), `f` giving the field of the command's rule. -/
def State.readback (s : State) (c : Instr) (idx : Nat) (f : DevRec → Word) : State :=
  s.accept c fun t => t.indexed idx fun u => u.complete (f (u.slot idx))

/-- RD_COUNT (42_readback.md R181): no index check. -/
def execRdCount (s : State) : Outcome :=
  .next (s.accept .rdCount fun t => t.complete (t.deviceCount.setWidth 32))

/-- RD_IDCODE (42_readback.md R182). -/
def execRdIdcode (idx : Nat) (s : State) : Outcome := .next (s.readback (.rdIdcode idx) idx (·.idcode))

/-- RD_IRLEN (42_readback.md R183). -/
def execRdIrlen (idx : Nat) (s : State) : Outcome :=
  .next (s.readback (.rdIrlen idx) idx (·.irLength.setWidth 32))

/-- RD_DESC (42_readback.md R184): the matched descriptor's index, or 0xFFFFFFFF for none. -/
def execRdDesc (idx : Nat) (s : State) : Outcome :=
  .next (s.readback (.rdDesc idx) idx fun r => if r.descValid then r.descIdx.setWidth 32 else 0xFFFFFFFF#32)

/-- RD_INDEX (42_readback.md R185): the slot number itself. -/
def execRdIndex (idx : Nat) (s : State) : Outcome :=
  .next (s.readback (.rdIndex idx) idx fun _ => BitVec.ofNat 32 idx)

/-- RD_IRPRE (42_readback.md R186). -/
def execRdIrpre (idx : Nat) (s : State) : Outcome :=
  .next (s.readback (.rdIrpre idx) idx (·.irPrescan.setWidth 32))

/-- RD_IRPOST (42_readback.md R187). -/
def execRdIrpost (idx : Nat) (s : State) : Outcome :=
  .next (s.readback (.rdIrpost idx) idx (·.irPostscan.setWidth 32))

/-- RD_DRPRE (42_readback.md R188). -/
def execRdDrpre (idx : Nat) (s : State) : Outcome :=
  .next (s.readback (.rdDrpre idx) idx (·.drPrescan.setWidth 32))

/-- RD_DRPOST (42_readback.md R189). -/
def execRdDrpost (idx : Nat) (s : State) : Outcome :=
  .next (s.readback (.rdDrpost idx) idx (·.drPostscan.setWidth 32))

/-- RD_CURIR (42_readback.md R190): whatever `cur_known` says. -/
def execRdCurir (idx : Nat) (s : State) : Outcome := .next (s.readback (.rdCurir idx) idx (·.currentIr))

/-- RD_CURIRK (42_readback.md R191). -/
def execRdCurirk (idx : Nat) (s : State) : Outcome :=
  .next (s.readback (.rdCurirk idx) idx fun r => (BitVec.ofBool r.curKnown).setWidth 32)

end Sys2Proof.Machine
end

