-- ==== Sys2Proof/Machine/Dispatch.lean ====
section
/-! DEFINITION. Which meaning each command has: its acceptance step (60_exceptions.md R201, R202 (a)). -/
namespace Sys2Proof.Machine

def exec (i : Instr) (s : State) : Host.Outcome State Fault Refusal :=
  match i with
  | .scan => Sys2Proof.Machine.execScan s
  | .scanh => Sys2Proof.Machine.execScanh s
  | .writeIr idx => Sys2Proof.Machine.execWriteIr idx s
  | .shiftDr idx nbits cap => Sys2Proof.Machine.execShiftDr idx nbits cap s
  | .hookDone => Sys2Proof.Machine.execHookDone s
  | .rdCount => Sys2Proof.Machine.execRdCount s
  | .rdIdcode idx => Sys2Proof.Machine.execRdIdcode idx s
  | .rdIrlen idx => Sys2Proof.Machine.execRdIrlen idx s
  | .rdDesc idx => Sys2Proof.Machine.execRdDesc idx s
  | .rdIndex idx => Sys2Proof.Machine.execRdIndex idx s
  | .rdIrpre idx => Sys2Proof.Machine.execRdIrpre idx s
  | .rdIrpost idx => Sys2Proof.Machine.execRdIrpost idx s
  | .rdDrpre idx => Sys2Proof.Machine.execRdDrpre idx s
  | .rdDrpost idx => Sys2Proof.Machine.execRdDrpost idx s
  | .rdCurir idx => Sys2Proof.Machine.execRdCurir idx s
  | .rdCurirk idx => Sys2Proof.Machine.execRdCurirk idx s

end Sys2Proof.Machine
end

