-- ==== Sys2Proof/Machine/Flags.lean ====
section
/-! DEFINITION. The computed registers: STATUS (10_state.md R29), HOOK (R30), PARAMS (R31), and the codes of phases (R26)
and errors (60_exceptions.md R207) they show. The block sets no arithmetic flag (40_discovery.md R146). -/
namespace Sys2Proof.Machine

/-- The 6-bit value of each phase (10_state.md R26). -/
def Phase.code : Phase → BitVec 6
  | .idle => 0x00#6
  | .hookWait => 0x01#6
  | .scClear => 0x10#6
  | .scInit => 0x11#6
  | .scReset => 0x12#6
  | .idEnter => 0x13#6
  | .idShift => 0x14#6
  | .idExit => 0x15#6
  | .idIdle => 0x16#6
  | .irEnter => 0x17#6
  | .irHint => 0x18#6
  | .irFirst => 0x19#6
  | .irProbe => 0x1A#6
  | .irExit => 0x1B#6
  | .irIdle => 0x1C#6
  | .drEnter => 0x1D#6
  | .drCount => 0x1E#6
  | .drExit => 0x1F#6
  | .drIdle => 0x20#6
  | .scPost => 0x21#6
  | .scClassify => 0x22#6
  | .failExit => 0x23#6
  | .failIdle => 0x24#6
  | .failClear => 0x25#6
  | .wiEnter => 0x30#6
  | .wiPre => 0x31#6
  | .wiVal => 0x32#6
  | .wiPost => 0x33#6
  | .wiIdle => 0x34#6
  | .sdEnter => 0x38#6
  | .sdPre => 0x39#6
  | .sdData => 0x3A#6
  | .sdPost => 0x3B#6
  | .sdIdle => 0x3C#6

/-- The 4-bit value of each error code (60_exceptions.md R207). -/
def ErrCode.code : ErrCode → BitVec 4
  | .none => 0#4
  | .tapInitFail => 1#4
  | .chainOverrun => 2#4
  | .irOverrun => 3#4
  | .devOverrun => 4#4
  | .countMismatch => 5#4
  | .hintRange => 6#4
  | .illegalCmd => 7#4
  | .badIndex => 8#4
  | .badNbits => 9#4
  | .badState => 10#4

/-- STATUS, high field first (10_state.md R29). -/
def State.statusWord (s : State) : Word :=
  0#2 ++ s.phase.code ++ s.deviceCount ++ 0#4 ++ s.err.code ++ 0#3 ++ BitVec.ofBool s.tapReady ++
    BitVec.ofBool s.drop ++ BitVec.ofBool s.warnIr0 ++ BitVec.ofBool s.hookActive ++
    BitVec.ofBool (decide (s.mode = .busy))

/-- HOOK (10_state.md R30): reads 0 when `hook_active` is 0. -/
def State.hookWord (s : State) : Word :=
  if s.hookActive then 1#1 ++ 0#15 ++ s.hookDesc ++ s.hookDev else 0#32

/-- PARAMS (10_state.md R31). -/
def State.paramsWord (s : State) : Word :=
  BitVec.ofNat 8 s.params.maxDrWords ++ BitVec.ofNat 8 s.params.ndesc ++ BitVec.ofNat 8 s.params.maxIrLen ++
    BitVec.ofNat 8 s.params.maxDevs

end Sys2Proof.Machine
end

