-- ==== Sys2Proof/Machine/Window.lean ====
section
/-! DEFINITION. The register window (20_memory.md R60 to R66): loads, stores, and the store to CMD that issues a command. -/
namespace Sys2Proof.Machine

/-- Where an address falls in the window, if it does (20_memory.md R61). -/
def State.offsetOf (s : State) (addr : Nat) : Option Nat :=
  if s.params.windowBase ≤ addr ∧ addr < s.params.windowBase + 4096 then some (addr - s.params.windowBase) else none

/-- One HINT byte as the host reads it: 0 past the populated entries (20_memory.md R63), none if unwritten. -/
def State.hintByte (s : State) (k : Nat) : Option Byte :=
  if k < s.params.maxDevs then s.hint.read k else some 0#8

/-- HINT word `q`, entries `4q .. 4q+3`, little-endian (20_memory.md R64). -/
def State.loadHint (s : State) (q : Nat) : Except Fault Word :=
  match s.hintByte (4 * q), s.hintByte (4 * q + 1), s.hintByte (4 * q + 2), s.hintByte (4 * q + 3) with
  | some b0, some b1, some b2, some b3 => .ok (b3 ++ b2 ++ b1 ++ b0)
  | _, _, _, _ => .error .hintReadUnwritten

/-- DIN word `w` as the host reads it (10_state.md R36, 20_memory.md R63). -/
def State.loadDin (s : State) (w : Nat) : Except Fault Word :=
  if s.params.maxDrWords ≤ w then .ok 0#32 else
  match s.din.read w with
  | some v => .ok v
  | none => .error .dinReadUnwritten

/-- DOUT bits `base .. base + count - 1` as a number, bit `base` lowest, or none if one of them is unwritten. -/
def doutNumber (m : Memory Bool) (base : Nat) : Nat → Option Nat
  | 0 => some 0
  | count + 1 =>
    match doutNumber m base count, m.read (base + count) with
    | some lo, some b => some (lo + b.toNat * 2 ^ count)
    | _, _ => none

/-- DOUT word `w` as the host reads it (10_state.md R36, 20_memory.md R63, 70_reset_and_hazards.md R232). -/
def State.loadDout (s : State) (w : Nat) : Except Fault Word :=
  if s.params.maxDrWords ≤ w then .ok 0#32 else
  match doutNumber s.dout (32 * w) 32 with
  | some x => .ok (BitVec.ofNat 32 x)
  | none => .error .doutReadUnwritten

/-- The word at an aligned offset (20_memory.md R61, R63). -/
def State.loadAt (s : State) (off : Nat) : Except Fault Word :=
  if off = 0x000 then .ok s.cmdLast
  else if off = 0x004 then .ok s.arg
  else if off = 0x008 then .ok s.result
  else if off = 0x00C then .ok s.statusWord
  else if off = 0x010 then .ok s.hookWord
  else if off = 0x014 then .ok s.paramsWord
  else if off < 0x100 then .ok 0#32
  else if off < 0x200 then s.loadHint ((off - 0x100) / 4)
  else if off < 0x300 then s.loadDin ((off - 0x200) / 4)
  else if off < 0x400 then s.loadDout ((off - 0x300) / 4)
  else .ok 0#32

/-- Store one HINT byte; past the populated entries the store is ignored (20_memory.md R63). -/
def State.storeHintByte (s : State) (k : Nat) (b : Byte) : State :=
  if k < s.params.maxDevs then { s with hint := s.hint.write k b } else s

/-- Store HINT word `q` (20_memory.md R64): a fault while BUSY (70_reset_and_hazards.md R236) if the word holds an entry;
a word that holds none is unpopulated and ignored (R63). -/
def State.storeHint (s : State) (q : Nat) (v : Word) : Outcome :=
  if s.params.maxDevs ≤ 4 * q then .next s
  else if s.mode = .busy then .fault .hintWriteBusy
  else .next
    ((((s.storeHintByte (4 * q) (v.extractLsb' 0 8)).storeHintByte (4 * q + 1) (v.extractLsb' 8 8)).storeHintByte
      (4 * q + 2) (v.extractLsb' 16 8)).storeHintByte (4 * q + 3) (v.extractLsb' 24 8))

/-- Store DIN word `w` (10_state.md R36): a fault while BUSY (70_reset_and_hazards.md R236); an unpopulated word is ignored
(20_memory.md R63). -/
def State.storeDin (s : State) (w : Nat) (v : Word) : Outcome :=
  if s.params.maxDrWords ≤ w then .next s
  else if s.mode = .busy then .fault .dinWriteBusy
  else .next { s with din := s.din.write w v }

/-- A store to CMD (20_memory.md R66, 60_exceptions.md R201, R213): a legal word runs its command, an illegal one is
refused with ILLEGAL_CMD, and either is dropped while BUSY. -/
def State.storeCmd (s : State) (w : Word) : Outcome :=
  match decode w with
  | .ok i => exec i s
  | .error _ => .next (s.acceptIllegal w)

/-- A store at an aligned offset (20_memory.md R61, R63): read-only and reserved locations ignore it. -/
def State.storeAt (s : State) (off : Nat) (v : Word) : Outcome :=
  if off = 0x000 then s.storeCmd v
  else if off = 0x004 then .next { s with arg := v }
  else if off < 0x100 then .next s
  else if off < 0x200 then s.storeHint ((off - 0x100) / 4) v
  else if off < 0x300 then s.storeDin ((off - 0x200) / 4) v
  else .next s

/-- A load of 32 bits at an aligned offset: its data is put out, nothing else changes (20_memory.md R66). -/
def State.loadOut (s : State) (off : Nat) : Outcome :=
  match s.loadAt off with
  | .ok v => .next (s.emit (.loadData v))
  | .error f => .fault f

/-- A host access (20_memory.md R62): 32 bits wide at a multiple of 4, else a bus error. -/
def State.hostAccess (s : State) (a : Access) : Outcome :=
  match a with
  | .load width addr =>
    match s.offsetOf addr with
    | none => .fault .outsideWindow
    | some off => if width = .word ∧ off % 4 = 0 then s.loadOut off else .fault .busError
  | .store width addr v =>
    match s.offsetOf addr with
    | none => .fault .outsideWindow
    | some off => if width = .word ∧ off % 4 = 0 then s.storeAt off v else .fault .busError

end Sys2Proof.Machine
end

