-- ==== Sys2Proof/Machine/Environment.lean ====
section
/-! DEFINITION. One move of the environment (00_scope.md R7, 20_memory.md R69), and where a command is fetched from: the block
fetches no instructions, its program is the sequence of commands written to CMD (20_memory.md R60). -/
namespace Sys2Proof.Machine

/-- The effect of one move. -/
def State.move (s : State) (m : Move) : Outcome :=
  match m with
  | .host a => s.hostAccess a
  | .tap resp => s.tapStep resp
  | .core => s.coreStep
  | .rst => .next s.blockReset

/-- The store to CMD that issues the command word `w`. -/
def State.cmdStore (s : State) (w : Word) : Move := .host (.store .word s.params.windowBase w)

/-- A state that accepts commands: itself in IDLE and HOOK_WAIT; while BUSY, the same with the phase the command port is
next open in. -/
def State.atRest (s : State) : State :=
  if s.mode = .busy then s.goto (if s.hookActive then .hookWait else .idle) else s

/-- The command word `w` is the host's next move. -/
def State.issue (s : State) (w : Word) : State := s.atRest.withEnv (s.atRest.cmdStore w :: s.env)

end Sys2Proof.Machine
end

