-- ==== Sys2Proof/Machine/Step.lean ====
section
/-! DEFINITION. One step of the machine: the environment's next move, or, with none left, the core's own. -/
namespace Sys2Proof.Machine

/-- One step (60_exceptions.md R202, 20_memory.md R69): the next move of the total order is taken. With no move left the
core goes on by itself: an internal phase runs, and IDLE, HOOK_WAIT and an outstanding TAP request wait, for ever if no
one moves (70_reset_and_hazards.md R239). -/
def step (s : State) : Host.Outcome State Fault Refusal :=
  match s.env with
  | [] => s.coreStep
  | m :: rest => (s.withEnv rest).move m

/-- `s` with the instruction stored where the next step takes its command from: the host's next move is the store of its
word to CMD, and the block accepts commands (notes/assumptions/2.md). -/
def State.withFetchWord (s : State) (nbits w : Nat) : State := s.issue (BitVec.ofNat 32 (w % 2 ^ nbits))

end Sys2Proof.Machine
end

