-- ==== Sys2Proof/Safety.lean ====
section
/-! DEFINITION. The terms in which claims speak of a safe machine: the canonical form of its data, what each phase of the
control FSM relies on (10_state.md R22 to R28, 40_discovery.md R137), the TAP driver contract as the block uses it
(20_memory.md R75), and how much work a running command has left (40_discovery.md R144). -/
namespace Sys2Proof.Machine

/-- The data has its form: legal parameters (00_scope.md R8), a table of `MAX_DEVS + 1` slots (10_state.md R22), buffers in
canonical form, and in HINT and DIN nothing outside their populated entries (20_memory.md R63). -/
structure State.Shape (s : State) : Prop where
  legal : s.params.Legal
  slots : s.table.length = s.params.maxDevs + 1
  hint_wf : s.hint.wf
  din_wf : s.din.wf
  dout_wf : s.dout.wf
  hint_only : ∀ k, s.params.maxDevs ≤ k → s.hint.read k = none
  din_only : ∀ w, s.params.maxDrWords ≤ w → s.din.read w = none

/-- At most one IR cache is known (41_addressed_access.md R163). -/
def State.OneKnown (s : State) : Prop :=
  ∀ a b, (s.slot a).curKnown = true → (s.slot b).curKnown = true → a = b

/-- No record holds `0xFFFFFFFF` as its IDCODE (10_state.md R23, 40_discovery.md R118). -/
def State.IdcodesReal (s : State) : Prop := ∀ a, (s.slot a).idcode ≠ all1

/-- A record that names a descriptor names one that exists and matches its IDCODE (40_discovery.md R138). -/
def State.DescriptorsReal (s : State) : Prop :=
  ∀ a, (s.slot a).descValid = true →
    ∃ d, s.params.descTable[(s.slot a).descIdx.toNat]? = some d ∧ (s.slot a).idcode &&& d.mask = d.expected

/-- The sum of `ir_length` over the first `m` records of a table. -/
def lengthSum (t : List DevRec) : Nat → Nat
  | 0 => 0
  | m + 1 => lengthSum t m + (t.getD m DevRec.zero).irLength.toNat

/-- The sum of `ir_length` over slots `0 .. m-1` (40_discovery.md R135). -/
def State.irSum (s : State) (m : Nat) : Nat := lengthSum s.table m

/-- The first `m` records hold an IR length in range and the exclusive sum of the lengths before them
(40_discovery.md R135, R137). -/
def State.IrDone (s : State) (m : Nat) : Prop :=
  ∀ a, a < m → 1 ≤ (s.slot a).irLength.toNat ∧ (s.slot a).irLength.toNat ≤ s.params.maxIrLen ∧
    (s.slot a).irPrescan.toNat = s.irSum a

/-- The first `m` of `total` records hold their DR offsets (40_discovery.md R134). -/
def State.DrDone (s : State) (m total : Nat) : Prop :=
  ∀ a, a < m → (s.slot a).drPrescan.toNat = a ∧ (s.slot a).drPostscan.toNat = total - a - 1

/-- The first `m` records hold the sum of the lengths after them (40_discovery.md R136). -/
def State.PostDone (s : State) (m : Nat) : Prop :=
  ∀ a, a < m → (s.slot a).irPostscan.toNat + s.irSum (a + 1) = s.irSum m

/-- A record that holds at most an IDCODE. -/
def DevRec.OnlyIdcode (r : DevRec) : Prop := { r with idcode := 0#32 } = DevRec.zero

/-- A record that holds at most an IDCODE and what the IR stage writes. -/
def DevRec.OnlyIr (r : DevRec) : Prop :=
  { r with idcode := 0#32, irLength := 0#8, irPrescan := 0#16 } = DevRec.zero

/-- A record that holds at most an IDCODE, what the IR stage and what the DR stage writes. -/
def DevRec.OnlyIrDr (r : DevRec) : Prop :=
  { r with idcode := 0#32, irLength := 0#8, irPrescan := 0#16, drPrescan := 0#8, drPostscan := 0#8 } = DevRec.zero

/-- The sentinel slot is the zero record (10_state.md R22, 40_discovery.md R137). -/
def State.SentinelZero (s : State) : Prop := s.slot s.params.maxDevs = DevRec.zero

/-- The table of a block that has not scanned, or has a finished IR, DR and postscan stage: every offset of the
`device_count` live records is final (40_discovery.md R137, R139). -/
structure State.TableFinal (s : State) : Prop where
  count_le : s.deviceCount.toNat ≤ s.params.maxDevs
  ir : s.IrDone s.deviceCount.toNat
  dr : s.DrDone s.deviceCount.toNat s.deviceCount.toNat
  post : s.PostDone s.deviceCount.toNat
  sentinel : s.SentinelZero

/-- A table under construction: no live device, nothing in the sentinel slot (10_state.md R22, R24). -/
structure State.Building (s : State) : Prop where
  none_live : s.deviceCount = 0#8
  no_hook : s.hookActive = false
  sentinel : s.SentinelZero

/-- The scan waits for a hook on device `j` (40_discovery.md R139). -/
structure State.Hooked (s : State) : Prop where
  active : s.hookActive = true
  count : s.cnt.toNat = s.deviceCount.toNat
  cursor : s.j.toNat < s.cnt.toNat
  dev : s.hookDev.toNat = s.j.toNat

/-- An addressed command runs on a live device, on behalf of the host or of the pending hook (60_exceptions.md R211). -/
structure State.Addressing (s : State) : Prop where
  table : s.TableFinal
  live : s.oplIdx < s.deviceCount.toNat
  hook : if s.fromHook then s.Hooked else s.hookActive = false

/-- A SHIFT_DR runs with a bit count its buffers hold (41_addressed_access.md R169). -/
structure State.Shifting (s : State) : Prop where
  addressing : s.Addressing
  bits_pos : 1 ≤ s.oplNbits
  bits_le : s.oplNbits ≤ s.params.maxDrBits

/-- What holds in each phase (10_state.md R26) when the FSM is there. -/
def State.PhaseInv (s : State) : Prop :=
  match s.phase with
  | .idle => s.TableFinal ∧ s.hookActive = false
  | .hookWait => s.TableFinal ∧ s.Hooked
  | .scClear => s.TableFinal ∧ s.hookActive = false
  | .scInit => s.Building ∧ (∀ a, s.slot a = DevRec.zero) ∧ s.tapReady = false
  | .scReset => s.Building ∧ (∀ a, s.slot a = DevRec.zero) ∧ s.tapReady = true
  | .idEnter => s.Building ∧ (∀ a, s.slot a = DevRec.zero) ∧ s.tapReady = true
  | .idShift => s.Building ∧ (∀ a, (s.slot a).OnlyIdcode) ∧ s.tapReady = true ∧ s.n.toNat ≤ s.params.maxDevs
  | .idExit => s.Building ∧ (∀ a, (s.slot a).OnlyIdcode) ∧ s.tapReady = true
  | .idIdle => s.Building ∧ (∀ a, (s.slot a).OnlyIdcode) ∧ s.tapReady = true
  | .irEnter => s.Building ∧ (∀ a, (s.slot a).OnlyIdcode) ∧ s.tapReady = true
  | .irHint => s.Building ∧ (∀ a, (s.slot a).OnlyIr) ∧ s.tapReady = true ∧ s.k.toNat < s.params.maxDevs ∧
      s.IrDone s.k.toNat ∧ s.pre.toNat = s.irSum s.k.toNat
  | .irFirst => s.Building ∧ (∀ a, (s.slot a).OnlyIdcode) ∧ s.tapReady = true
  | .irProbe => s.Building ∧ (∀ a, (s.slot a).OnlyIr) ∧ s.tapReady = true ∧ s.dev.toNat ≤ s.params.maxDevs ∧
      1 ≤ s.len.toNat ∧ s.len.toNat ≤ s.params.maxIrLen ∧ s.IrDone s.dev.toNat ∧ s.pre.toNat = s.irSum s.dev.toNat
  | .irExit => s.Building ∧ (∀ a, (s.slot a).OnlyIr) ∧ s.tapReady = true ∧ s.cnt.toNat ≤ s.params.maxDevs ∧
      s.IrDone s.cnt.toNat
  | .irIdle => s.Building ∧ (∀ a, (s.slot a).OnlyIr) ∧ s.tapReady = true ∧ s.cnt.toNat ≤ s.params.maxDevs ∧
      s.IrDone s.cnt.toNat
  | .drEnter => s.Building ∧ (∀ a, (s.slot a).OnlyIr) ∧ s.tapReady = true ∧ s.cnt.toNat ≤ s.params.maxDevs ∧
      s.IrDone s.cnt.toNat
  | .drCount => s.Building ∧ (∀ a, (s.slot a).OnlyIrDr) ∧ s.tapReady = true ∧ s.cnt.toNat ≤ s.params.maxDevs ∧
      s.IrDone s.cnt.toNat ∧ s.i.toNat ≤ s.cnt.toNat ∧ s.DrDone s.i.toNat s.cnt.toNat
  | .drExit => s.Building ∧ (∀ a, (s.slot a).OnlyIrDr) ∧ s.tapReady = true ∧ s.cnt.toNat ≤ s.params.maxDevs ∧
      s.IrDone s.cnt.toNat ∧ s.DrDone s.cnt.toNat s.cnt.toNat
  | .drIdle => s.Building ∧ (∀ a, (s.slot a).OnlyIrDr) ∧ s.tapReady = true ∧ s.cnt.toNat ≤ s.params.maxDevs ∧
      s.IrDone s.cnt.toNat ∧ s.DrDone s.cnt.toNat s.cnt.toNat
  | .scPost => s.hookActive = false ∧ s.SentinelZero ∧ (∀ a, (s.slot a).OnlyIrDr) ∧
      s.cnt.toNat ≤ s.params.maxDevs ∧ s.deviceCount.toNat = s.cnt.toNat ∧ s.IrDone s.cnt.toNat ∧
      s.DrDone s.cnt.toNat s.cnt.toNat
  | .scClassify => s.TableFinal ∧ s.hookActive = false ∧ s.deviceCount.toNat = s.cnt.toNat ∧
      s.j.toNat ≤ s.cnt.toNat
  | .failExit => s.deviceCount = 0#8 ∧ s.hookActive = false ∧ s.tapReady = true ∧ s.failCode ≠ .tapInitFail
  | .failIdle => s.deviceCount = 0#8 ∧ s.hookActive = false ∧ s.tapReady = true ∧ s.failCode ≠ .tapInitFail
  | .failClear => s.deviceCount = 0#8 ∧ s.hookActive = false ∧ (s.failCode = .tapInitFail ↔ s.tapReady = false)
  | .wiEnter => s.Addressing
  | .wiPre => s.Addressing
  | .wiVal => s.Addressing
  | .wiPost => s.Addressing ∧ s.target.irPostscan ≠ 0#16
  | .wiIdle => s.Addressing
  | .sdEnter => s.Shifting
  | .sdPre => s.Shifting
  | .sdData => s.Shifting
  | .sdPost => s.Shifting ∧ s.target.drPostscan ≠ 0#8
  | .sdIdle => s.Shifting

/-- Where the TAP controllers are in each phase, once the driver has kept its contract (20_memory.md R75, 10_state.md
R39). In IDLE and HOOK_WAIT `tap_ready` tells that a scan since the last reset has passed SC_RESET. -/
def State.TapInv (s : State) : Prop :=
  match s.phase with
  | .idle => (s.tapReady = true ∨ s.deviceCount ≠ 0#8) → s.tapCtl = .runTestIdle
  | .hookWait => s.tapCtl = .runTestIdle
  | .scClear => True
  | .scInit => True
  | .scReset => True
  | .idEnter => s.tapCtl = .runTestIdle
  | .idShift => s.tapCtl = .shiftDr
  | .idExit => s.tapCtl = .shiftDr
  | .idIdle => s.tapCtl = .exit1Dr
  | .irEnter => s.tapCtl = .runTestIdle
  | .irHint => s.tapCtl = .shiftIr
  | .irFirst => s.tapCtl = .shiftIr
  | .irProbe => s.tapCtl = .shiftIr
  | .irExit => s.tapCtl = .shiftIr
  | .irIdle => s.tapCtl = .exit1Ir
  | .drEnter => s.tapCtl = .runTestIdle
  | .drCount => s.tapCtl = .shiftDr
  | .drExit => s.tapCtl = .shiftDr
  | .drIdle => s.tapCtl = .exit1Dr
  | .scPost => s.tapCtl = .runTestIdle
  | .scClassify => s.tapCtl = .runTestIdle
  | .failExit => s.tapCtl = .shiftIr ∨ s.tapCtl = .shiftDr
  | .failIdle => s.tapCtl = .exit1Ir ∨ s.tapCtl = .exit1Dr
  | .failClear => s.tapReady = true → s.tapCtl = .runTestIdle
  | .wiEnter => s.tapCtl = .runTestIdle
  | .wiPre => s.tapCtl = .shiftIr
  | .wiVal => s.tapCtl = .shiftIr
  | .wiPost => s.tapCtl = .shiftIr
  | .wiIdle => s.tapCtl = .exit1Ir
  | .sdEnter => s.tapCtl = .runTestIdle
  | .sdPre => s.tapCtl = .shiftDr
  | .sdData => s.tapCtl = .shiftDr
  | .sdPost => s.tapCtl = .shiftDr
  | .sdIdle => s.tapCtl = .exit1Dr

/-- The invariant of the machine. `dout_only`, DOUT holds nothing from bit `MAX_DR_BITS` on (20_memory.md R63), stands here
and not in `Shape`: that a capture keeps it rests on the bit count that `Shifting` bounds. -/
structure State.Inv (s : State) : Prop where
  shape : s.Shape
  phase : s.PhaseInv
  tap : s.TapInv
  dout_only : ∀ b, s.params.maxDrBits ≤ b → s.dout.read b = none

/-- The state a TAP request may start from (20_memory.md R75). -/
def TapReq.startsFrom : TapReq → TapCtl → Prop
  | .init, _ => True
  | .reset, _ => True
  | .enterShiftIr, c => c = .runTestIdle
  | .enterShiftDr, c => c = .runTestIdle
  | .returnIdle _, c => c = .exit1Ir ∨ c = .exit1Dr
  | .shift _ _ _, c => c = .shiftIr ∨ c = .shiftDr
  | .shiftCapture _ _ _, c => c = .shiftIr ∨ c = .shiftDr

/-- COUNT of a shift (30_encoding.md R90, R91); other requests shift nothing. -/
def TapReq.shiftCount : TapReq → Option Nat
  | .init => none
  | .reset => none
  | .enterShiftIr => none
  | .enterShiftDr => none
  | .returnIdle _ => none
  | .shift _ n _ => some n
  | .shiftCapture _ n _ => some n

/-- The work of one scan from its IR stage's end on: IR_EXIT to the last classification step. -/
def tailWork (p : Params) : Nat := 2 * p.maxDevs + 12

/-- An upper bound on the steps (TAP requests completed and internal phases) a running command has left before it
leaves BUSY (40_discovery.md R144, 41_addressed_access.md R174). -/
def State.workLeft (s : State) : Nat :=
  let p := s.params
  match s.phase with
  | .idle => 0
  | .hookWait => 0
  | .scClear => tailWork p + (p.maxDevs + 1) * (p.maxIrLen + 1) + p.maxDevs + 12
  | .scInit => tailWork p + (p.maxDevs + 1) * (p.maxIrLen + 1) + p.maxDevs + 11
  | .scReset => tailWork p + (p.maxDevs + 1) * (p.maxIrLen + 1) + p.maxDevs + 10
  | .idEnter => tailWork p + (p.maxDevs + 1) * (p.maxIrLen + 1) + p.maxDevs + 9
  | .idShift => tailWork p + (p.maxDevs + 1) * (p.maxIrLen + 1) + (p.maxDevs - s.n.toNat) + 8
  | .idExit => tailWork p + (p.maxDevs + 1) * (p.maxIrLen + 1) + 6
  | .idIdle => tailWork p + (p.maxDevs + 1) * (p.maxIrLen + 1) + 5
  | .irEnter => tailWork p + (p.maxDevs + 1) * (p.maxIrLen + 1) + 4
  | .irHint => tailWork p + (p.maxDevs - s.k.toNat)
  | .irFirst => tailWork p + (p.maxDevs + 1) * (p.maxIrLen + 1) + 2
  | .irProbe => tailWork p + (p.maxDevs - s.dev.toNat) * (p.maxIrLen + 1) + (p.maxIrLen - s.len.toNat)
  | .irExit => 2 * p.maxDevs + 10
  | .irIdle => 2 * p.maxDevs + 9
  | .drEnter => 2 * p.maxDevs + 8
  | .drCount => p.maxDevs + (s.cnt.toNat - s.i.toNat) + 7
  | .drExit => p.maxDevs + 5
  | .drIdle => p.maxDevs + 4
  | .scPost => p.maxDevs + 3
  | .scClassify => s.cnt.toNat - s.j.toNat + 1
  | .failExit => 3
  | .failIdle => 2
  | .failClear => 1
  | .wiEnter => 5
  | .wiPre => 4
  | .wiVal => 3
  | .wiPost => 2
  | .wiIdle => 1
  | .sdEnter => 5
  | .sdPre => 4
  | .sdData => 3
  | .sdPost => 2
  | .sdIdle => 1

/-- The TAP requests in a trace, newest first (60_exceptions.md R219). -/
def tapRequests : List Output → List TapReq
  | [] => []
  | .tap q :: rest => q :: tapRequests rest
  | .downstreamRelease :: rest => tapRequests rest
  | .hookReq _ _ :: rest => tapRequests rest
  | .loadData _ :: rest => tapRequests rest

/-! The terms of the statements about one command. -/

/-- The rows of the opcode map as (match, mask) (30_encoding.md R82, R83). -/
def opcodeRows : List (Word × Word) :=
  [(0x01#32, 0xFFFFFFFF#32), (0x02#32, 0xFFFFFFFF#32), (0x03#32, 0xFFFF00FF#32), (0x04#32, 0xE00000FF#32),
   (0x05#32, 0xFFFFFFFF#32), (0x10#32, 0xFFFFFFFF#32), (0x20#32, 0xFFFF00FF#32), (0x21#32, 0xFFFF00FF#32),
   (0x22#32, 0xFFFF00FF#32), (0x23#32, 0xFFFF00FF#32), (0x24#32, 0xFFFF00FF#32), (0x25#32, 0xFFFF00FF#32),
   (0x26#32, 0xFFFF00FF#32), (0x27#32, 0xFFFF00FF#32), (0x28#32, 0xFFFF00FF#32), (0x29#32, 0xFFFF00FF#32)]

/-- The operands (idx, nbits, cap) of a command, 0 for one it does not have (30_encoding.md R81, R82). -/
def operandsOf : Instr → Nat × Nat × Bool
  | .scan => (0, 0, false)
  | .scanh => (0, 0, false)
  | .writeIr idx => (idx, 0, false)
  | .shiftDr idx nbits cap => (idx, nbits, cap)
  | .hookDone => (0, 0, false)
  | .rdCount => (0, 0, false)
  | .rdIdcode idx => (idx, 0, false)
  | .rdIrlen idx => (idx, 0, false)
  | .rdDesc idx => (idx, 0, false)
  | .rdIndex idx => (idx, 0, false)
  | .rdIrpre idx => (idx, 0, false)
  | .rdIrpost idx => (idx, 0, false)
  | .rdDrpre idx => (idx, 0, false)
  | .rdDrpost idx => (idx, 0, false)
  | .rdCurir idx => (idx, 0, false)
  | .rdCurirk idx => (idx, 0, false)

/-- The block accepts commands: mode IDLE or HOOK (60_exceptions.md R200, R201). -/
def State.Accepting (s : State) : Prop := s.phase = .idle ∨ s.phase = .hookWait

/-- The state after a command word `w` that ends in its acceptance step, with RESULT `r` and ERR `e`: the acceptance
has latched it (60_exceptions.md R201), and nothing else has changed (R203, R205). -/
def State.answered (s : State) (w r : Word) (e : ErrCode) : State :=
  { s with cmdLast := w, oplCmd := w, oplArg := s.arg, drop := false, fromHook := decide (s.phase = .hookWait),
           result := r, err := e }

/-- The state after a command word `w` that starts at phase `p` (60_exceptions.md R201). -/
def State.started (s : State) (w : Word) (p : Phase) : State :=
  { s with cmdLast := w, oplCmd := w, oplArg := s.arg, drop := false, fromHook := decide (s.phase = .hookWait),
           phase := p }

/-- Every entry of HINT, DIN and DOUT reads as before. -/
def State.SameBuffers (s t : State) : Prop :=
  ∀ k, t.hint.read k = s.hint.read k ∧ t.din.read k = s.din.read k ∧ t.dout.read k = s.dout.read k

/-- A record keeps what only a scan writes (10_state.md R25): the IDCODE, the IR length and the offsets. -/
def DevRec.SameScan (r q : DevRec) : Prop :=
  q.idcode = r.idcode ∧ q.irLength = r.irLength ∧ q.irPrescan = r.irPrescan ∧ q.irPostscan = r.irPostscan ∧
    q.drPrescan = r.drPrescan ∧ q.drPostscan = r.drPostscan

/-- The core has the next turn: its own move comes next, or no move is left (60_exceptions.md R202). -/
def State.CoreTurn (s : State) : Prop := s.env = [] ∨ s.env.head? = some .core

/-- `k` steps of the machine. -/
def runSteps (k : Nat) (s : State) : Outcome := Host.Core.run Sys2Proof.core k s

/-- A response that captures the one bit `b`. -/
def bitResp (b : Bool) : TapResp := { ok := false, tdo := if b then 1#2048 else 0#2048 }

/-- The captures of a probed device of IR length `len` after its first bit: `len - 1` zeros, then the next device's 1
(40_discovery.md R128). -/
def probeBits (len : Nat) : List TapResp := List.replicate (len - 1) (bitResp false) ++ [bitResp true]

end Sys2Proof.Machine
end

