-- ==== Sys2Proof/Certificates/Slice0/Obligations.lean ====
section
/-! DEFINITION. The statements for the provers, from the numbered rules of spec/. -/
open Sys2Proof Sys2Proof.Machine

/-! ### The command word -/

/-- R81, R82: the decoder reads back every command the encoder writes, with every operand at every value its field admits. -/
def Obligations.DecodeAfterEncode : Prop := ∀ i : Instr, i.wellFormed = true → decode (encode i) = .ok i

/-- R81, R85: a legal word is the encoding of the command it decodes to; that command is well formed, and its operands are
the word's fields, unsigned and unscaled. -/
def Obligations.EncodeAfterDecode : Prop :=
  ∀ (w : Word) (i : Instr), decode w = .ok i → i.wellFormed = true ∧ encode i = w ∧
    operandsOf i = ((w >>> 8 &&& 0xFF#32).toNat, (w >>> 16 &&& 0xFFF#32).toNat, w.getLsbD 28)

/-- R83: a word is legal for a row exactly when `w & mask = match`, no word is legal for two rows, and a word that matches
no row is illegal. -/
def Obligations.LegalWordsMatchOneRow : Prop :=
  ∀ w : Word,
    (∀ row ∈ opcodeRows, w &&& row.2 = row.1 ↔ ∃ i, decode w = .ok i ∧ opcodeOf i = row.1) ∧
    (∀ r ∈ opcodeRows, ∀ q ∈ opcodeRows, w &&& r.2 = r.1 → w &&& q.2 = q.1 → r = q) ∧
    ((∀ row ∈ opcodeRows, w &&& row.2 ≠ row.1) → ∃ e, decode w = .error e)

/-- R82 to R84: some words written out from the encodings, legal and illegal (95_test_vectors.md). -/
def Obligations.SomeWordsDecode : Prop :=
  decode 0x00000001#32 = .ok .scan ∧ decode 0x00000103#32 = .ok (.writeIr 1) ∧
  decode 0x10200104#32 = .ok (.shiftDr 1 32 true) ∧ decode 0x0FFF0004#32 = .ok (.shiftDr 0 4095 false) ∧
  decode 0x00000005#32 = .ok .hookDone ∧ decode 0x0000FF29#32 = .ok (.rdCurirk 255) ∧
  decode 0x00000000#32 = .error .reservedOpcode ∧ decode 0x00000101#32 = .error .mustBeZero ∧
  decode 0x20000004#32 = .error .reservedBits

/-- R72, R201: a store of a legal word to CMD runs its command: the step is `exec` of it on the state whose next move is
taken; nothing else stands around it. That the moves to come stand in the state is the model's (notes/assumptions/2.md). -/
def Obligations.StepRunsTheDecodedCommand : Prop :=
  ∀ (s : State) (w : Word) (i : Instr) (rest : List Move), decode w = .ok i →
    step (s.withEnv (.host (.store .word s.params.windowBase w) :: rest)) = exec i (s.withEnv rest)

/-- R69, R202: a step takes the next move of the total order and leaves the others to come; no step changes a parameter
(00_scope.md R8). -/
def Obligations.StepTakesOneMove : Prop :=
  ∀ s t : State, step s = .next t → t.env = s.env.tail ∧ t.params = s.params

/-! ### Reset -/

/-- R40: every value the spec gives for reset, for every choice of the parameters. The working registers, whose reset
value the spec leaves unspecified, are not claimed. That `State.reset` takes the default parameters is the model's choice
(PRESUMED, notes/assumptions/1.md). -/
def Obligations.ResetValues : Prop :=
  ∀ p : Params, (State.resetWith p).table = List.replicate (p.maxDevs + 1) DevRec.zero ∧
    (State.resetWith p).deviceCount = 0#8 ∧ (State.resetWith p).phase = .idle ∧
    (State.resetWith p).tapReady = false ∧ (State.resetWith p).hookActive = false ∧
    (State.resetWith p).hookDev = 0#8 ∧ (State.resetWith p).hookDesc = 0#8 ∧
    (State.resetWith p).warnIr0 = false ∧ (State.resetWith p).drop = false ∧ (State.resetWith p).err = .none ∧
    (State.resetWith p).arg = 0#32 ∧ (State.resetWith p).result = 0#32 ∧ (State.resetWith p).cmdLast = 0#32 ∧
    (State.resetWith p).statusWord = 0#32 ∧ (State.resetWith p).hookWord = 0#32 ∧
    (∀ k, (State.resetWith p).hint.read k = none ∧ (State.resetWith p).din.read k = none ∧
      (State.resetWith p).dout.read k = none) ∧
    (State.resetWith p).params = p ∧ State.reset = State.resetWith Params.default

/-- R39, R230, R231: RST takes the block to its reset state, from every state, with no request and no event; the state of
the TAP controllers is unknown from then on. The working registers' 0 (DESIGN CHOICE, notes/assumptions/9.md) and the field
for the TAP controllers (DESIGN CHOICE, notes/assumptions/12.md) are the model's. -/
def Obligations.RstResetsTheBlock : Prop :=
  ∀ (s : State) (rest : List Move),
    step (s.withEnv (.rst :: rest)) = .next { State.resetWith s.params with env := rest, trace := s.trace } ∧
    (State.resetWith s.params).tapCtl = .unknown

/-- R40, R137: the invariants below hold right after reset, for every legal choice of the parameters. -/
def Obligations.ResetMeetsTheInvariants : Prop :=
  ∀ p : Params, p.Legal → (State.resetWith p).Inv ∧ (State.resetWith p).OneKnown ∧ (State.resetWith p).IdcodesReal ∧
    (State.resetWith p).DescriptorsReal

/-! ### What each command does in its acceptance step -/

/-- R180 to R191: RD_COUNT answers `device_count`, with no index check; each indexed readback of a live device answers its
field, zero-extended, with ERR = NONE. -/
def Obligations.ReadbacksAnswerTheirField : Prop :=
  (∀ s : State, s.Accepting →
    exec .rdCount s = .next (s.answered (encode .rdCount) (s.deviceCount.setWidth 32) .none)) ∧
  ∀ (s : State) (idx : Nat), s.Accepting → idx < s.deviceCount.toNat →
    exec (.rdIdcode idx) s = .next (s.answered (encode (.rdIdcode idx)) (s.slot idx).idcode .none) ∧
    exec (.rdIrlen idx) s = .next (s.answered (encode (.rdIrlen idx)) ((s.slot idx).irLength.setWidth 32) .none) ∧
    exec (.rdDesc idx) s = .next (s.answered (encode (.rdDesc idx))
      (if (s.slot idx).descValid then (s.slot idx).descIdx.setWidth 32 else 0xFFFFFFFF#32) .none) ∧
    exec (.rdIndex idx) s = .next (s.answered (encode (.rdIndex idx)) (BitVec.ofNat 32 idx) .none) ∧
    exec (.rdIrpre idx) s = .next (s.answered (encode (.rdIrpre idx)) ((s.slot idx).irPrescan.setWidth 32) .none) ∧
    exec (.rdIrpost idx) s = .next (s.answered (encode (.rdIrpost idx)) ((s.slot idx).irPostscan.setWidth 32) .none) ∧
    exec (.rdDrpre idx) s = .next (s.answered (encode (.rdDrpre idx)) ((s.slot idx).drPrescan.setWidth 32) .none) ∧
    exec (.rdDrpost idx) s = .next (s.answered (encode (.rdDrpost idx)) ((s.slot idx).drPostscan.setWidth 32) .none) ∧
    exec (.rdCurir idx) s = .next (s.answered (encode (.rdCurir idx)) (s.slot idx).currentIr .none) ∧
    exec (.rdCurirk idx) s = .next (s.answered (encode (.rdCurirk idx)) (if (s.slot idx).curKnown then 1#32 else 0#32) .none)

/-- R165, R169, R208: every indexed command refuses an index that is not live with BAD_INDEX and RESULT 0; then SHIFT_DR
refuses a bit count of 0 or above MAX_DR_BITS with BAD_NBITS and RESULT 0. A refused command issues no request and changes no
record. -/
def Obligations.BadOperandsAreRefused : Prop :=
  (∀ (s : State) (idx nbits : Nat) (cap : Bool), s.Accepting → idx < s.deviceCount.toNat →
    (nbits = 0 ∨ 32 * s.params.maxDrWords < nbits) →
    exec (.shiftDr idx nbits cap) s = .next (s.answered (encode (.shiftDr idx nbits cap)) 0#32 .badNbits)) ∧
  ∀ (s : State) (idx nbits : Nat) (cap : Bool), s.Accepting → s.deviceCount.toNat ≤ idx →
    exec (.writeIr idx) s = .next (s.answered (encode (.writeIr idx)) 0#32 .badIndex) ∧
    exec (.shiftDr idx nbits cap) s = .next (s.answered (encode (.shiftDr idx nbits cap)) 0#32 .badIndex) ∧
    exec (.rdIdcode idx) s = .next (s.answered (encode (.rdIdcode idx)) 0#32 .badIndex) ∧
    exec (.rdIrlen idx) s = .next (s.answered (encode (.rdIrlen idx)) 0#32 .badIndex) ∧
    exec (.rdDesc idx) s = .next (s.answered (encode (.rdDesc idx)) 0#32 .badIndex) ∧
    exec (.rdIndex idx) s = .next (s.answered (encode (.rdIndex idx)) 0#32 .badIndex) ∧
    exec (.rdIrpre idx) s = .next (s.answered (encode (.rdIrpre idx)) 0#32 .badIndex) ∧
    exec (.rdIrpost idx) s = .next (s.answered (encode (.rdIrpost idx)) 0#32 .badIndex) ∧
    exec (.rdDrpre idx) s = .next (s.answered (encode (.rdDrpre idx)) 0#32 .badIndex) ∧
    exec (.rdDrpost idx) s = .next (s.answered (encode (.rdDrpost idx)) 0#32 .badIndex) ∧
    exec (.rdCurir idx) s = .next (s.answered (encode (.rdCurir idx)) 0#32 .badIndex) ∧
    exec (.rdCurirk idx) s = .next (s.answered (encode (.rdCurirk idx)) 0#32 .badIndex)

/-- R111, R112, R201: in IDLE, SCAN and SCANH are latched and leave the acceptance step with phase SC_CLEAR. -/
def Obligations.ScansStart : Prop :=
  ∀ s : State, s.phase = .idle →
    exec .scan s = .next (s.started (encode .scan) .scClear) ∧
    exec .scanh s = .next (s.started (encode .scanh) .scClear)

/-- R142: in HOOK_WAIT, HOOK_DONE clears the hook registers and resumes classification with device j + 1; RESULT and ERR
are not written. That the cursor moves on in this step is DEDUCED (notes/assumptions/15.md). -/
def Obligations.HookDoneResumes : Prop :=
  ∀ s : State, s.phase = .hookWait →
    exec .hookDone s = .next { s.started (encode .hookDone) .scClassify with
      hookActive := false, hookDev := 0#8, hookDesc := 0#8, j := s.j + 1#9 }

/-- R84, R203, R208, R213: an illegal word stored to CMD in IDLE or HOOK mode is refused with ILLEGAL_CMD, whatever the mode
allows; SCAN and SCANH in HOOK mode and HOOK_DONE in IDLE are refused with BAD_STATE. The mode, the hook and the scan's
registers stay. -/
def Obligations.WrongWordOrModeIsRefused : Prop :=
  (∀ (s : State) (w : Word) (rest : List Move) (e : DecodeError), s.Accepting → decode w = .error e →
    step (s.withEnv (.host (.store .word s.params.windowBase w) :: rest)) =
      .next ((s.withEnv rest).answered w 0#32 .illegalCmd)) ∧
  (∀ s : State, s.phase = .hookWait →
    exec .scan s = .next (s.answered (encode .scan) 0#32 .badState) ∧
    exec .scanh s = .next (s.answered (encode .scanh) 0#32 .badState)) ∧
  (∀ s : State, s.phase = .idle → exec .hookDone s = .next (s.answered (encode .hookDone) 0#32 .badState))

/-- R162: a known cache equal to ARG in all 32 bits makes WRITE_IR complete at once, with no TAP request and no change of
any cache; an unknown cache never hits, whatever it holds; and a second WRITE_IR of the same value is such a hit. That the
table of the first one's acceptance step is already the filled one is DEDUCED (notes/assumptions/11.md). -/
def Obligations.CacheHitIsImmediate : Prop :=
  ∀ (s : State) (idx : Nat), s.Accepting → idx < s.deviceCount.toNat →
    ((s.slot idx).curKnown = true → (s.slot idx).currentIr = s.arg →
      exec (.writeIr idx) s = .next (s.answered (encode (.writeIr idx)) 0#32 .none)) ∧
    ((s.slot idx).curKnown = false → ∃ t, exec (.writeIr idx) s = .next t ∧ t.phase = .wiEnter) ∧
    (∀ t u : State, exec (.writeIr idx) s = .next t → u.table = t.table → u.deviceCount = s.deviceCount →
      u.arg = s.arg → u.Accepting → idx < s.table.length →
      exec (.writeIr idx) u = .next (u.answered (encode (.writeIr idx)) 0#32 .none))

/-- R161, R163, R164: WRITE_IR of a live device whose cache does not hold ARG in all 32 bits makes every other cache
unknown, the target's known and equal to ARG, and starts at WI_ENTER; no other field of any record changes. That this
happens in the acceptance step is DEDUCED (notes/assumptions/11.md). -/
def Obligations.CacheMissFillsAndStarts : Prop :=
  ∀ (s : State) (idx : Nat), s.Accepting → idx < s.deviceCount.toNat →
    ((s.slot idx).curKnown = false ∨ (s.slot idx).currentIr ≠ s.arg) →
    ∃ t, exec (.writeIr idx) s = .next t ∧ t = { s.started (encode (.writeIr idx)) .wiEnter with table := t.table } ∧
      t.table.length = s.table.length ∧
      ∀ a, a < s.table.length →
        t.slot a = if a = idx then { s.slot a with currentIr := s.arg, curKnown := true }
          else { s.slot a with curKnown := false }

/-- R166, R167, R169: SHIFT_DR of a live device with a bit count its buffers hold starts at SD_ENTER and changes nothing
else. -/
def Obligations.ShiftDrStarts : Prop :=
  ∀ (s : State) (idx nbits : Nat) (cap : Bool), s.Accepting → idx < s.deviceCount.toNat → 1 ≤ nbits →
    nbits ≤ 32 * s.params.maxDrWords →
    exec (.shiftDr idx nbits cap) s = .next (s.started (encode (.shiftDr idx nbits cap)) .sdEnter)

/-- R204: while BUSY a store to CMD, of any word, sets `drop` and changes nothing else; the next accepted store to CMD,
and reset, clear it. -/
def Obligations.BusyCommandIsDropped : Prop :=
  (∀ (s : State) (w : Word) (rest : List Move), ¬ s.Accepting →
    step (s.withEnv (.host (.store .word s.params.windowBase w) :: rest)) =
      .next { s with drop := true, env := rest }) ∧
  (∀ (s t : State) (w : Word) (rest : List Move), s.Accepting →
    step (s.withEnv (.host (.store .word s.params.windowBase w) :: rest)) = .next t → t.drop = false) ∧
  (∀ p : Params, (State.resetWith p).drop = false)

/-! ### What each command leaves unchanged in its acceptance step -/

/-- R180, R203, R204: a readback writes RESULT, ERR, `CMD_LAST` and what acceptance latches, or sets `drop`; every other
register, every record, the phase, and every entry of every buffer stay as they are. -/
def Obligations.ReadbackFrame : Prop :=
  ∀ (s t : State) (i : Instr), (i = .rdCount ∨ ∃ idx, i ∈ [Instr.rdIdcode idx, .rdIrlen idx, .rdDesc idx, .rdIndex idx,
      .rdIrpre idx, .rdIrpost idx, .rdDrpre idx, .rdDrpost idx, .rdCurir idx, .rdCurirk idx]) → exec i s = .next t →
    t = { s with result := t.result, err := t.err, cmdLast := t.cmdLast, oplCmd := t.oplCmd, oplArg := t.oplArg,
                 drop := t.drop, fromHook := t.fromHook } ∧ s.SameBuffers t

/-- R111, R112, R142, R166, R203, R204: the acceptance of SCAN, SCANH, HOOK_DONE and SHIFT_DR changes no record, no buffer
entry, no flag but `drop`, and of the working registers only what acceptance latches; HOOK_DONE alone changes the hook
registers and the cursor. -/
def Obligations.StartingCommandFrame : Prop :=
  ∀ (s t : State) (i : Instr),
    (i = .scan ∨ i = .scanh ∨ i = .hookDone ∨ ∃ idx nbits cap, i = .shiftDr idx nbits cap) → exec i s = .next t →
    t = { s with result := t.result, err := t.err, cmdLast := t.cmdLast, oplCmd := t.oplCmd, oplArg := t.oplArg,
                 drop := t.drop, fromHook := t.fromHook, phase := t.phase,
                 hookActive := t.hookActive, hookDev := t.hookDev, hookDesc := t.hookDesc, j := t.j } ∧
    (i ≠ .hookDone → t.hookActive = s.hookActive ∧ t.hookDev = s.hookDev ∧ t.hookDesc = s.hookDesc ∧ t.j = s.j) ∧
    s.SameBuffers t

/-- R160, R163, R203, R204: WRITE_IR's acceptance changes of the Device Table the caches alone, and of them the value in
its target's record alone; every buffer entry and every other register but those acceptance latches stays. -/
def Obligations.WriteIrFrame : Prop :=
  ∀ (s t : State) (idx : Nat), exec (.writeIr idx) s = .next t →
    t = { s with result := t.result, err := t.err, cmdLast := t.cmdLast, oplCmd := t.oplCmd, oplArg := t.oplArg,
                 drop := t.drop, fromHook := t.fromHook, phase := t.phase, table := t.table } ∧
    t.table.length = s.table.length ∧
    (∀ a, (s.slot a).SameScan (t.slot a) ∧ (t.slot a).descValid = (s.slot a).descValid ∧
      (t.slot a).descIdx = (s.slot a).descIdx ∧
      (a ≠ idx → (t.slot a).currentIr = (s.slot a).currentIr ∧
        ((t.slot a).curKnown = true → (s.slot a).curKnown = true))) ∧
    s.SameBuffers t

/-! ### The scan, stage by stage -/

/-- R114: SC_CLEAR puts out DOWNSTREAM_RELEASE, makes every slot the zero record (so every cache unknown), and clears
`device_count` and `warn_ir0`. -/
def Obligations.ClearStageClears : Prop :=
  ∀ s : State, s.phase = .scClear → s.CoreTurn →
    ∃ t, step s = .next t ∧ (∀ a, t.slot a = DevRec.zero) ∧ t.table.length = s.params.maxDevs + 1 ∧
      t = { s with table := t.table, deviceCount := 0#8, warnIr0 := false, trace := .downstreamRelease :: s.trace,
                   phase := t.phase, env := s.env.tail }

/-- R115, R116: after SC_CLEAR, with `tap_ready` set no INIT is issued and the FSM is in SC_RESET; without it the request is
INIT. INIT answering 1 sets `tap_ready`. INIT answering 0 ends the scan with TAP_INIT_FAIL, count 0 and an empty table, no
other request, and `tap_ready` still 0. That SC_CLEAR's own step skips INIT is DEDUCED (notes/assumptions/10.md); that INIT
leaves the TAP controllers where they are is a DESIGN CHOICE where it answers 1 (notes/assumptions/12.md). -/
def Obligations.InitStage : Prop :=
  (∀ s t : State, s.phase = .scClear → s.CoreTurn → step s = .next t →
    t.phase = (if s.tapReady then .scReset else .scInit) ∧ (t.tapRequest = some .init ↔ s.tapReady = false)) ∧
  (∀ (s : State) (resp : TapResp) (rest : List Move), s.phase = .scInit → s.tapReady = false → resp.ok = true →
    step (s.withEnv (.tap resp :: rest)) = .next { s with
      tapReady := true, phase := .scReset, trace := .tap .init :: s.trace, env := rest }) ∧
  (∀ (s : State) (resp : TapResp) (rest : List Move), s.phase = .scInit → s.tapReady = false → resp.ok = false →
    ∃ t, runSteps 2 (s.withEnv (.tap resp :: .core :: rest)) = .next t ∧ (∀ a, t.slot a = DevRec.zero) ∧
      t = { s with table := t.table, deviceCount := 0#8, err := .tapInitFail, failCode := .tapInitFail,
                   result := 0#32, phase := .idle, trace := .tap .init :: s.trace, env := rest })

/-- R118, R119: the IDCODE read-out. Captures that are not all ones are stored in slots 0, 1, ... in order, the all-ones
capture ends the read-out and is not stored; the (MAX_DEVS + 1)-th stored capture fails the scan with CHAIN_OVERRUN. -/
def Obligations.IdcodeReadOut : Prop :=
  ∀ (s : State) (ids : List TapResp) (rest : List Move), s.phase = .idShift → s.n = 0#9 → s.params.Legal →
    s.table.length = s.params.maxDevs + 1 → (∀ r ∈ ids, r.tdo.setWidth 32 ≠ all1) →
    ids.length ≤ s.params.maxDevs + 1 →
    (∀ last : TapResp, last.tdo.setWidth 32 = all1 → ids.length ≤ s.params.maxDevs →
      ∃ t, runSteps (ids.length + 1) (s.withEnv (ids.map .tap ++ .tap last :: rest)) = .next t ∧
        t.phase = .idExit ∧ t.n.toNat = ids.length ∧
        (∀ a, t.slot a = if h : a < ids.length then { s.slot a with idcode := ids[a].tdo.setWidth 32 } else s.slot a) ∧
        t.trace = List.replicate (ids.length + 1) (.tap (.shiftCapture .ones 32 false)) ++ s.trace ∧ t.env = rest) ∧
    (ids.length = s.params.maxDevs + 1 →
      ∃ t, runSteps ids.length (s.withEnv (ids.map .tap ++ rest)) = .next t ∧
        t.phase = .failExit ∧ t.failCode = .chainOverrun ∧
        t.trace = List.replicate ids.length (.tap (.shiftCapture .ones 32 false)) ++ s.trace ∧ t.env = rest)

/-- R122, R124, R125, R126: the hinted IR stage. Entries in range are shifted one capture each, all ones, and record their
length and the sum of the lengths before them; a capture whose bit 0 is 0 sets WARN_IR0. The list ends at the entry 0 or
after MAX_DEVS entries with that many devices; an entry above MAX_IR_LEN fails with HINT_RANGE before its shift. That the
end of the list is found in the step before, without a step of its own, is DEDUCED (notes/assumptions/20.md). -/
def Obligations.HintedIrStage : Prop :=
  ∀ (s : State) (enter : TapResp) (caps : List TapResp) (hs : List Byte) (rest : List Move),
    s.phase = .irEnter → s.hinted = true → s.params.Legal → s.table.length = s.params.maxDevs + 1 →
    caps.length = hs.length → hs.length ≤ s.params.maxDevs →
    (∀ (k : Nat) (h : k < hs.length), s.hint.read k = some hs[k] ∧ 1 ≤ hs[k].toNat ∧ hs[k].toNat ≤ s.params.maxIrLen) →
    (hs.length = s.params.maxDevs ∨ ∃ h, s.hint.read hs.length = some h ∧ (h = 0#8 ∨ s.params.maxIrLen < h.toNat)) →
    ∃ t, runSteps (hs.length + 1) (s.withEnv (.tap enter :: (caps.map .tap ++ rest))) = .next t ∧
      (∀ (a : Nat) (h : a < hs.length), t.slot a = { s.slot a with
        irLength := hs[a], irPrescan := BitVec.ofNat 16 ((hs.take a).map BitVec.toNat).sum }) ∧
      (∀ a, hs.length ≤ a → t.slot a = s.slot a) ∧
      t.warnIr0 = (s.warnIr0 || caps.any fun r => !r.tdo.getLsbD 0) ∧
      t.trace = (hs.map fun h => Output.tap (.shiftCapture .ones h.toNat false)).reverse ++
        .tap .enterShiftIr :: s.trace ∧ t.env = rest ∧
      (if hs.length = s.params.maxDevs ∨ s.hint.read hs.length = some 0#8
        then t.phase = .irExit ∧ t.cnt.toNat = hs.length
        else t.phase = .failExit ∧ t.failCode = .hintRange)

/-- R127, R128, R129: the probed IR stage over a chain of devices with IR lengths from 2 to MAX_IR_LEN that each answer a 1
and then zeros, followed by the all-ones filler: every length and every exclusive sum is recorded, and the count is the
number of devices. The first captured bit is never a boundary. Every request is SHIFT_CAPTURE(ONES, 1, 0). -/
def Obligations.ProbedIrStage : Prop :=
  ∀ (s : State) (first : TapResp) (lens : List Nat) (rest : List Move),
    s.phase = .irFirst → s.params.Legal → s.table.length = s.params.maxDevs + 1 → lens.length ≤ s.params.maxDevs →
    (∀ l ∈ lens, 2 ≤ l ∧ l ≤ s.params.maxIrLen) →
    ∃ t, runSteps (lens.sum + 2)
        (s.withEnv (.tap first :: ((lens.flatMap probeBits).map .tap ++ .tap (bitResp true) :: rest))) = .next t ∧
      t.phase = .irExit ∧ t.cnt.toNat = lens.length ∧ t.warnIr0 = (s.warnIr0 || !first.last 1) ∧ t.env = rest ∧
      t.trace = List.replicate (lens.sum + 2) (.tap (.shiftCapture .ones 1 false)) ++ s.trace ∧
      (∀ (a : Nat) (h : a < lens.length), t.slot a = { s.slot a with
        irLength := BitVec.ofNat 8 lens[a], irPrescan := BitVec.ofNat 16 (lens.take a).sum }) ∧
      (∀ a, lens.length ≤ a → t.slot a = s.slot a)

/-- R128, R129, R130: one capture of the probe. A 1 ends the probe when the current device has one bit, else closes the
device; a 0 is one more bit. More than MAX_DEVS devices fail with DEV_OVERRUN, more than MAX_IR_LEN bits with IR_OVERRUN. -/
def Obligations.ProbeStep : Prop :=
  ∀ (s : State) (resp : TapResp) (rest : List Move), s.phase = .irProbe → s.params.Legal →
    s.dev.toNat ≤ s.params.maxDevs → 1 ≤ s.len.toNat → s.len.toNat ≤ s.params.maxIrLen →
    s.table.length = s.params.maxDevs + 1 →
    ∃ t, step (s.withEnv (.tap resp :: rest)) = .next t ∧ t.env = rest ∧
      t.trace = .tap (.shiftCapture .ones 1 false) :: s.trace ∧
      (if resp.last 1 then
        if s.len = 1#8 then t.phase = .irExit ∧ t.cnt = s.dev ∧ t.table = s.table
        else t.slot s.dev.toNat = { s.slot s.dev.toNat with irLength := s.len, irPrescan := s.pre } ∧
          (∀ a, a ≠ s.dev.toNat → t.slot a = s.slot a) ∧
          (if s.dev.toNat = s.params.maxDevs then t.phase = .failExit ∧ t.failCode = .devOverrun
            else t.phase = .irProbe ∧ t.dev.toNat = s.dev.toNat + 1 ∧ t.len = 1#8 ∧
              t.pre = s.pre + s.len.setWidth 16)
      else t.table = s.table ∧
        (if s.len.toNat = s.params.maxIrLen then t.phase = .failExit ∧ t.failCode = .irOverrun
          else t.phase = .irProbe ∧ t.len.toNat = s.len.toNat + 1 ∧ t.dev = s.dev ∧ t.pre = s.pre))

/-- R132, R133, R134: the DR count pass. `z` zeros and then a 1 match the IR-stage count exactly when `z = cnt`: each live
device has its position and `cnt - i - 1` as its DR offsets, and after the exit `device_count` is `cnt`; too few zeros, or one
too many, fail with COUNT_MISMATCH. The requests are ENTER_SHIFT_DR, one SHIFT_CAPTURE(ONES, 1, 0) per bit, and on a match
SHIFT(ONES, 1, 1) and RETURN_IDLE(1). -/
def Obligations.DrCountPass : Prop :=
  ∀ (s : State) (enter one exit idle : TapResp) (zeros : List TapResp) (rest : List Move),
    s.phase = .drEnter → s.params.Legal → s.table.length = s.params.maxDevs + 1 → s.cnt.toNat ≤ s.params.maxDevs →
    (∀ r ∈ zeros, r.last 1 = false) → one.last 1 = true →
    (zeros.length = s.cnt.toNat →
      ∃ t, runSteps (zeros.length + 4)
          (s.withEnv (.tap enter :: (zeros.map .tap ++ .tap one :: .tap exit :: .tap idle :: rest))) = .next t ∧
        t.phase = .scPost ∧ t.deviceCount.toNat = s.cnt.toNat ∧ t.cnt = s.cnt ∧ t.env = rest ∧
        t.trace = .tap (.returnIdle 1) :: .tap (.shift .ones 1 true) ::
          (List.replicate (zeros.length + 1) (.tap (.shiftCapture .ones 1 false)) ++ .tap .enterShiftDr :: s.trace) ∧
        (∀ a, t.slot a = if a < s.cnt.toNat then { s.slot a with
          drPrescan := BitVec.ofNat 8 a, drPostscan := BitVec.ofNat 8 (s.cnt.toNat - a - 1) } else s.slot a)) ∧
    (zeros.length < s.cnt.toNat →
      ∃ t, runSteps (zeros.length + 2) (s.withEnv (.tap enter :: (zeros.map .tap ++ .tap one :: rest))) = .next t ∧
        t.phase = .failExit ∧ t.failCode = .countMismatch ∧ t.deviceCount = s.deviceCount ∧ t.env = rest ∧
        t.trace = List.replicate (zeros.length + 1) (.tap (.shiftCapture .ones 1 false)) ++ .tap .enterShiftDr :: s.trace) ∧
    (zeros.length = s.cnt.toNat + 1 →
      ∃ t, runSteps (zeros.length + 1) (s.withEnv (.tap enter :: (zeros.map .tap ++ rest))) = .next t ∧
        t.phase = .failExit ∧ t.failCode = .countMismatch ∧ t.deviceCount = s.deviceCount ∧ t.env = rest ∧
        t.trace = List.replicate zeros.length (.tap (.shiftCapture .ones 1 false)) ++ .tap .enterShiftDr :: s.trace)

/-- R136, R138, R141: SC_POST gives every device before the last the sum of the IR lengths after it, keeps the last one's,
changes nothing else in any record, and goes on to the classification of device 0. With no device there is none to classify
and the scan completes in this step (DEDUCED, notes/assumptions/10.md). -/
def Obligations.PostscanBackfill : Prop :=
  ∀ s : State, s.phase = .scPost → s.CoreTurn → s.cnt.toNat ≤ s.table.length → s.irSum s.cnt.toNat < 65536 →
    (∀ a, (s.slot a).irPostscan = 0#16) →
    ∃ t, step s = .next t ∧
      (∀ a, a < s.cnt.toNat → (t.slot a).irPostscan.toNat = s.irSum s.cnt.toNat - s.irSum (a + 1)) ∧
      (∀ a, t.slot a = { s.slot a with irPostscan := (t.slot a).irPostscan }) ∧
      (∀ a, s.cnt.toNat ≤ a → t.slot a = s.slot a) ∧
      t = (if s.cnt = 0#9 then { s with j := 0#9, result := 0#32, err := .none, phase := .idle, env := s.env.tail }
        else { s with table := t.table, j := 0#9, phase := .scClassify, env := s.env.tail })

/-- R138, R139, R141: one classification step. The lowest descriptor with `idcode & mask = expected` wins: its index is
recorded, the device's cache becomes unknown, and its hook is invoked. With no match the device is left as it is; after the
last device the scan completes with RESULT = `cnt`. After the hook of the last device (R142) the step completes the scan in
IDLE, whatever `from_hook` holds (R205). Which step the completion belongs to is DEDUCED (notes/assumptions/10.md). -/
def Obligations.ClassifyOneDevice : Prop :=
  (∀ (s : State), s.phase = .scClassify → s.CoreTurn → s.params.Legal → s.j.toNat < s.cnt.toNat →
    s.cnt.toNat ≤ s.params.maxDevs → s.table.length = s.params.maxDevs + 1 →
    (∀ (d : Nat) (h : d < s.params.descTable.length),
      (s.slot s.j.toNat).idcode &&& s.params.descTable[d].mask = s.params.descTable[d].expected →
      (∀ (e : Nat) (he : e < d), (s.slot s.j.toNat).idcode &&& s.params.descTable[e].mask ≠ s.params.descTable[e].expected) →
      ∃ t, step s = .next t ∧
        t = { s with table := t.table, hookDev := BitVec.ofNat 8 s.j.toNat, hookDesc := BitVec.ofNat 8 d, hookActive := true,
                     phase := .hookWait, env := s.env.tail,
                     trace := .hookReq (BitVec.ofNat 8 s.j.toNat) (BitVec.ofNat 8 d) :: s.trace } ∧
        (∀ a, t.slot a = if a = s.j.toNat
          then { s.slot a with curKnown := false, descValid := true, descIdx := BitVec.ofNat 8 d } else s.slot a)) ∧
    ((∀ e ∈ s.params.descTable, (s.slot s.j.toNat).idcode &&& e.mask ≠ e.expected) →
      step s = .next (if s.j.toNat + 1 = s.cnt.toNat
        then { s with j := s.j + 1#9, result := s.cnt.setWidth 32, err := .none, phase := .idle, env := s.env.tail }
        else { s with j := s.j + 1#9, env := s.env.tail }))) ∧
  ∀ s : State, s.phase = .scClassify → s.CoreTurn → s.cnt.toNat ≤ s.j.toNat →
    step s = .next { s with result := s.cnt.setWidth 32, err := .none, phase := .idle, env := s.env.tail }

/-- R140: a failing scan leaves its shift with one all-ones bit and RETURN_IDLE, then clears every slot and `device_count`,
records its error with RESULT 0, and is in IDLE with the TAP in Run-Test/Idle; `warn_ir0` and `tap_ready` stay, and no hook
is pending. -/
def Obligations.FailedScanClears : Prop :=
  (∀ (s : State) (r q : TapResp) (rest : List Move), s.phase = .failExit → (s.tapCtl = .shiftIr ∨ s.tapCtl = .shiftDr) →
    ∃ t, runSteps 3 (s.withEnv (.tap r :: .tap q :: .core :: rest)) = .next t ∧ (∀ a, t.slot a = DevRec.zero) ∧
      t = { s with table := t.table, deviceCount := 0#8, err := s.failCode, result := 0#32, phase := .idle,
                   tapCtl := .runTestIdle, env := rest,
                   trace := .tap (.returnIdle 1) :: .tap (.shift .ones 1 true) :: s.trace }) ∧
  (∀ s : State, s.Inv → (s.phase = .failExit ∨ s.phase = .failIdle ∨ s.phase = .failClear) → s.hookActive = false)

/-- R113, R143: on a chain that answers all ones everywhere, SCAN from IDLE completes with count 0 and ERR NONE, whatever
table there was before. What it puts out is DOWNSTREAM_RELEASE and then the requests of 10_state.md R26, stage by stage
(95_test_vectors.md V-S1). The number of steps is DEDUCED (notes/assumptions/10.md). -/
def Obligations.EmptyChainSucceeds : Prop :=
  ∀ (s : State) (rest : List Move), s.phase = .idle → s.params.Legal →
    ∃ t, runSteps (if s.tapReady then 17 else 18) (s.withEnv (.host (.store .word s.params.windowBase 0x00000001#32) :: .core ::
        (List.replicate (if s.tapReady then 14 else 15) (.tap { ok := true, tdo := BitVec.allOnes 2048 }) ++ .core :: rest))) = .next t ∧
      t.phase = .idle ∧ t.result = 0#32 ∧ t.err = .none ∧ t.deviceCount = 0#8 ∧ t.warnIr0 = false ∧
      (∀ a, t.slot a = DevRec.zero) ∧ t.tapCtl = .runTestIdle ∧ t.env = rest ∧
      t.trace = (((if s.tapReady then [] else [TapReq.init]) ++
        [TapReq.reset, .enterShiftDr, .shiftCapture .ones 32 false, .shift .ones 1 true, .returnIdle 1,
         .enterShiftIr, .shiftCapture .ones 1 false, .shiftCapture .ones 1 false, .shift .ones 1 true, .returnIdle 1,
         .enterShiftDr, .shiftCapture .ones 1 false, .shift .ones 1 true, .returnIdle 1]).map Output.tap).reverse ++
        .downstreamRelease :: s.trace

/-! ### Addressed access, to its end -/

/-- R161, R174: a WRITE_IR that misses, from acceptance to completion: the requests in order, padding of length 0 left out,
the last shift of the value or the padding with the exit; then RESULT 0, ERR NONE, the mode it came from, and the caches of
R163. -/
def Obligations.WriteIrToCompletion : Prop :=
  ∀ (s : State) (idx : Nat) (resps : List TapResp) (rest : List Move), s.Accepting → idx < s.deviceCount.toNat →
    s.deviceCount.toNat ≤ s.table.length → s.tapCtl = .runTestIdle → (s.slot idx).irLength ≠ 0#8 →
    ((s.slot idx).curKnown = false ∨ (s.slot idx).currentIr ≠ s.arg) →
    resps.length = 3 + (if (s.slot idx).irPrescan = 0#16 then 0 else 1) + (if (s.slot idx).irPostscan = 0#16 then 0 else 1) →
    ∃ t, runSteps (resps.length + 1)
        (s.withEnv (.host (.store .word s.params.windowBase (encode (.writeIr idx))) :: (resps.map .tap ++ rest))) = .next t ∧
      t = { s.answered (encode (.writeIr idx)) 0#32 .none with table := t.table, trace := t.trace, env := rest } ∧
      (∀ a, a < s.table.length → t.slot a = if a = idx then { s.slot a with currentIr := s.arg, curKnown := true }
        else { s.slot a with curKnown := false }) ∧
      (tapRequests t.trace).reverse = (tapRequests s.trace).reverse ++ [.enterShiftIr] ++
        (if (s.slot idx).irPrescan = 0#16 then [] else [.shift .ones (s.slot idx).irPrescan.toNat false]) ++
        [.shift (.vec (lowBits (s.arg.setWidth 2048) (s.slot idx).irLength.toNat)) (s.slot idx).irLength.toNat
          (decide ((s.slot idx).irPostscan = 0#16))] ++
        (if (s.slot idx).irPostscan = 0#16 then [] else [.shift .ones (s.slot idx).irPostscan.toNat true]) ++
        [.returnIdle 1]

/-- R167, R168, R174: a SHIFT_DR from acceptance to completion: the requests in order, padding of length 0 left out, then
RESULT 0, ERR NONE and the mode it came from. With CAP the captured bits stand in DOUT bits 0 .. nbits-1 and every other bit
of DOUT is kept; without CAP all of DOUT is; HINT, DIN and every record are kept. -/
def Obligations.ShiftDrToCompletion : Prop :=
  ∀ (s : State) (idx nbits : Nat) (cap : Bool) (v : Vec) (before after : List TapResp) (data : TapResp)
    (rest : List Move), s.Accepting → idx < s.deviceCount.toNat → 1 ≤ nbits → nbits < 4096 →
    nbits ≤ 32 * s.params.maxDrWords → s.tapCtl = .runTestIdle →
    (s.started (encode (.shiftDr idx nbits cap)) .sdData).dinVector = some v →
    before.length = 1 + (if (s.slot idx).drPrescan = 0#8 then 0 else 1) →
    after.length = 1 + (if (s.slot idx).drPostscan = 0#8 then 0 else 1) →
    ∃ t, runSteps (before.length + after.length + 2)
        (s.withEnv (.host (.store .word s.params.windowBase (encode (.shiftDr idx nbits cap))) ::
          ((before ++ data :: after).map .tap ++ rest))) = .next t ∧
      t = { s.answered (encode (.shiftDr idx nbits cap)) 0#32 .none with dout := t.dout, trace := t.trace, env := rest } ∧
      (∀ b, t.dout.read b = if cap = true ∧ b < nbits then some (data.tdo.getLsbD b) else s.dout.read b) ∧
      (tapRequests t.trace).reverse = (tapRequests s.trace).reverse ++ [.enterShiftDr] ++
        (if (s.slot idx).drPrescan = 0#8 then [] else [.shift .ones (s.slot idx).drPrescan.toNat false]) ++
        [if cap then .shiftCapture (.vec v) nbits (decide ((s.slot idx).drPostscan = 0#8))
          else .shift (.vec v) nbits (decide ((s.slot idx).drPostscan = 0#8))] ++
        (if (s.slot idx).drPostscan = 0#8 then [] else [.shift .ones (s.slot idx).drPostscan.toNat true]) ++
        [.returnIdle 1]

/-- R65, R81, R164: bit k of the vector WI_VAL shifts is bit k of the latched ARG, below the IR length, and 0 from it on. Bit b
of the vector SD_DATA shifts is bit `b mod 32` of DIN word `b div 32`, below the bit count, and 0 from it on; there is such a
vector exactly when every word it takes a bit from is written. That the bits from the count on are 0 is the model's choice
(DESIGN CHOICE, notes/assumptions/19.md). -/
def Obligations.ShiftedVectors : Prop :=
  (∀ (s : State) (k : Nat),
    s.irVector.getLsbD k = (decide (k < s.target.irLength.toNat) && s.oplArg.getLsbD k)) ∧
  (∀ (s : State) (v : Vec) (b : Nat) (w : Word), s.dinVector = some v → s.oplNbits ≤ 2048 → b < s.oplNbits →
    s.din.read (b / 32) = some w → v.getLsbD b = w.getLsbD (b % 32)) ∧
  (∀ (s : State) (v : Vec) (b : Nat), s.dinVector = some v → s.oplNbits ≤ b → v.getLsbD b = false) ∧
  (∀ s : State, (∃ v, s.dinVector = some v) ↔ ∀ b, b < s.oplNbits → ∃ w, s.din.read (b / 32) = some w)

/-! ### The whole machine -/

/-- R8, R22, R63: a step keeps the form of the data: legal parameters, MAX_DEVS + 1 slots, every buffer in canonical form, and
HINT and DIN with nothing outside their populated entries (for DOUT see `Obligations.StepKeepsInv`). -/
def Obligations.StepKeepsShape : Prop := ∀ s t : State, s.Shape → step s = .next t → t.Shape

/-- R22 to R28, R39, R63, R75, R137: a step keeps the invariant: the form of the data, nothing in DOUT outside its bits, what
each phase of the FSM relies on (the finished records, their sums and offsets, the zero sentinel slot, the counters in
range), and where the TAP controllers are (a field of the model's, notes/assumptions/12.md). -/
def Obligations.StepKeepsInv : Prop := ∀ s t : State, s.Inv → step s = .next t → t.Inv

/-- R163: at most one IR cache is ever known. -/
def Obligations.StepKeepsOneKnownCache : Prop := ∀ s t : State, s.OneKnown → step s = .next t → t.OneKnown

/-- R23, R118, R138, R184: no record ever holds `0xFFFFFFFF` as its IDCODE, and a record that names a descriptor names one
that exists and that matches the record's IDCODE. -/
def Obligations.StepKeepsRecordsReal : Prop :=
  ∀ s t : State, s.Inv → s.IdcodesReal → s.DescriptorsReal → step s = .next t → t.IdcodesReal ∧ t.DescriptorsReal

/-- R134, R135: in every state that meets the invariant, each live device's DR offsets are its position and
`device_count - i - 1`, its IR prescan is the sum of the IR lengths before it, and device 0's is 0. -/
def Obligations.LiveOffsets : Prop :=
  ∀ s : State, s.Inv → ∀ i, i < s.deviceCount.toNat →
    (s.slot i).drPrescan.toNat = i ∧ (s.slot i).drPostscan.toNat = s.deviceCount.toNat - i - 1 ∧
    (s.slot i).irPrescan.toNat = ((s.table.take i).map fun r => r.irLength.toNat).sum ∧
    (i = 0 → (s.slot i).irPrescan = 0#16)

/-- R137: once SC_POST has run, each live device's prescan, length and postscan add up to the total IR length, every live
length is in [1, MAX_IR_LEN], no more than MAX_DEVS devices are live, and the sentinel slot is the zero record. -/
def Obligations.OffsetIdentity : Prop :=
  ∀ s : State, s.Inv → s.phase ≠ .scPost → s.phase ≠ .failExit → s.phase ≠ .failIdle → s.phase ≠ .failClear →
    s.deviceCount.toNat ≤ s.params.maxDevs ∧ s.slot s.params.maxDevs = DevRec.zero ∧
    ∀ i, i < s.deviceCount.toNat → 1 ≤ (s.slot i).irLength.toNat ∧ (s.slot i).irLength.toNat ≤ s.params.maxIrLen ∧
      (s.slot i).irPrescan.toNat + (s.slot i).irLength.toNat + (s.slot i).irPostscan.toNat =
        ((s.table.take s.deviceCount.toNat).map fun r => r.irLength.toNat).sum

/-- R91: every shift the core issues has a count of at least 1 and at most max(32, MAX_DEVS * MAX_IR_LEN, MAX_DR_BITS), which
is at most 8160 and fits the 16 bits of COUNT. -/
def Obligations.ShiftCountsFit : Prop :=
  ∀ (s : State) (q : TapReq) (n : Nat), s.Inv → s.tapRequest = some q → q.shiftCount = some n →
    1 ≤ n ∧ n ≤ max 32 (max (s.params.maxDevs * s.params.maxIrLen) (32 * s.params.maxDrWords)) ∧ n ≤ 8160 ∧
      (q.bus s.params).count.toNat = n

/-- R39, R75: every request starts from the TAP state its contract requires, and in IDLE or HOOK_WAIT after a scan that
passed SC_RESET the TAP controllers rest in Run-Test/Idle (`tap_ready` shows such a scan). -/
def Obligations.RequestsKeepTheContract : Prop :=
  ∀ s : State, s.Inv → (∀ q, s.tapRequest = some q → q.startsFrom s.tapCtl) ∧
    (s.Accepting → s.tapReady = true → s.tapCtl = .runTestIdle)

/-- R25, R139: outside a scan's building stages, and but for RST, no step writes an IDCODE, a length, an offset or
`device_count`; and but for classification no step writes a descriptor mark. -/
def Obligations.ScanFieldsHaveOneWriter : Prop :=
  ∀ s t : State, step s = .next t → s.env.head? ≠ some .rst →
    s.phase ∈ [Phase.idle, .hookWait, .scClassify, .wiEnter, .wiPre, .wiVal, .wiPost, .wiIdle, .sdEnter, .sdPre, .sdData,
      .sdPost, .sdIdle] →
    t.deviceCount = s.deviceCount ∧ t.table.length = s.table.length ∧ ∀ a, (s.slot a).SameScan (t.slot a) ∧
      (s.phase ≠ .scClassify → (t.slot a).descValid = (s.slot a).descValid ∧ (t.slot a).descIdx = (s.slot a).descIdx)

/-- R24, R28, R221: but for RST, `device_count` changes in three places only, SC_CLEAR (to 0), DR_IDLE (to the IR-stage
count) and FAIL_CLEAR (to 0); `tap_ready` once set stays set; `warn_ir0` once set is cleared by SC_CLEAR alone. -/
def Obligations.CountAndFlagWriters : Prop :=
  ∀ s t : State, step s = .next t → s.env.head? ≠ some .rst →
    (t.deviceCount ≠ s.deviceCount → (s.phase = .scClear ∧ t.deviceCount = 0#8) ∨
      (s.phase = .drIdle ∧ t.deviceCount = s.cnt.setWidth 8) ∨ (s.phase = .failClear ∧ t.deviceCount = 0#8)) ∧
    (s.tapReady = true → t.tapReady = true) ∧ (s.warnIr0 = true → s.phase ≠ .scClear → t.warnIr0 = true)

/-- R23, R161, R163, R201: a cache becomes known, or a known cache changes its value, only by a WRITE_IR of that device, and
it then holds ARG. That the step is the one that takes the store to CMD is DEDUCED (notes/assumptions/11.md). -/
def Obligations.OnlyWriteIrFillsACache : Prop :=
  ∀ (s t : State) (a : Nat), step s = .next t → (t.slot a).curKnown = true →
    ((s.slot a).curKnown = false ∨ (t.slot a).currentIr ≠ (s.slot a).currentIr) →
    (t.slot a).currentIr = s.arg ∧
      s.env.head? = some (.host (.store .word s.params.windowBase (encode (.writeIr a))))

/-- R35, R36, R72: no command and no core step writes ARG, HINT or DIN: they change by a host store to them, or by RST; DOUT
changes only when the data shift of a SHIFT_DR with CAP completes, or by RST. -/
def Obligations.BuffersHaveOneWriter : Prop :=
  ∀ s t : State, step s = .next t → s.env.head? ≠ some .rst →
    (s.phase ≠ .sdData ∨ s.oplCap = false → t.dout = s.dout) ∧
    ((∀ wd addr v, s.env.head? = some (.host (.store wd addr v)) → addr = s.params.windowBase) →
      t.arg = s.arg ∧ t.hint = s.hint ∧ t.din = s.din)

/-- R76, R90: a response is read for what R90 gives it and for nothing else: OK by INIT, the TDO bits below COUNT by
SHIFT_CAPTURE. Two responses that agree there have the same effect. -/
def Obligations.ResponsesAreReadAsR90Says : Prop :=
  ∀ (s : State) (q : TapReq) (r1 r2 : TapResp), s.tapRequest = some q → (q = .init → r1.ok = r2.ok) →
    (∀ src n exit, q = .shiftCapture src n exit → ∀ k, k < n → r1.tdo.getLsbD k = r2.tdo.getLsbD k) →
    s.tapStep r1 = s.tapStep r2

/-- R144, R174: a running command is bounded: every request the driver completes and every internal phase brings it nearer to
the end of BUSY, from at most a bound given by MAX_DEVS and MAX_IR_LEN alone. The measure is the model's (DEDUCED,
notes/assumptions/10.md). -/
def Obligations.RunningCommandsAreBounded : Prop :=
  ∀ s : State, s.Inv → ¬ s.Accepting →
    s.workLeft ≤ (s.params.maxDevs + 1) * (s.params.maxIrLen + 1) + 3 * s.params.maxDevs + 24 ∧ 1 ≤ s.workLeft ∧
    ∀ t : State, step s = .next t →
      ((s.tapRequest ≠ none ∧ ∃ r, s.env.head? = some (.tap r)) ∨ (s.tapRequest = none ∧ s.CoreTurn)) →
      t.workLeft < s.workLeft

/-- R76, R202, R239: the two unbounded waits. With a TAP request outstanding, and in IDLE and HOOK_WAIT, the core's turn
changes nothing: a driver that never completes and a hook that never ends leave the block where it is. -/
def Obligations.WaitsAreKept : Prop :=
  ∀ s : State, (s.tapRequest ≠ none ∨ s.Accepting) → s.CoreTurn → step s = .next (s.withEnv s.env.tail)

/-! ### The register window -/

/-- R30, R31, R32, R33, R34, R61, R66: a load of each register gives its value, in every mode, and changes nothing. -/
def Obligations.RegistersRead : Prop :=
  ∀ (s : State) (rest : List Move), s.params.Legal →
    ∀ row ∈ [(0x000, s.cmdLast), (0x004, s.arg), (0x008, s.result), (0x00C, s.statusWord),
      (0x010, if s.hookActive then 0x80000000#32 ||| (s.hookDesc.setWidth 32 <<< 8) ||| s.hookDev.setWidth 32 else 0#32),
      (0x014, BitVec.ofNat 32 (s.params.maxDrWords * 2 ^ 24 + s.params.descTable.length * 2 ^ 16 +
        s.params.maxIrLen * 2 ^ 8 + s.params.maxDevs))],
      step (s.withEnv (.host (.load .word (s.params.windowBase + row.1)) :: rest)) =
        .next { s with env := rest, trace := .loadData row.2 :: s.trace }

/-- R26, R29, R200, R207: the fields of STATUS, with the values of ERR and PHASE for every error and every phase. -/
def Obligations.StatusFields : Prop :=
  ∀ s : State,
    s.statusWord.getLsbD 0 = decide (s.phase ≠ .idle ∧ s.phase ≠ .hookWait) ∧
    s.statusWord.getLsbD 1 = s.hookActive ∧ s.statusWord.getLsbD 2 = s.warnIr0 ∧ s.statusWord.getLsbD 3 = s.drop ∧
    s.statusWord.getLsbD 4 = s.tapReady ∧ s.statusWord.extractLsb' 5 3 = 0#3 ∧
    (∀ row ∈ [(ErrCode.none, 0), (.tapInitFail, 1), (.chainOverrun, 2), (.irOverrun, 3), (.devOverrun, 4),
        (.countMismatch, 5), (.hintRange, 6), (.illegalCmd, 7), (.badIndex, 8), (.badNbits, 9), (.badState, 10)],
      s.err = row.1 → s.statusWord.extractLsb' 8 4 = BitVec.ofNat 4 row.2) ∧
    s.statusWord.extractLsb' 12 4 = 0#4 ∧ s.statusWord.extractLsb' 16 8 = s.deviceCount ∧
    (∀ row ∈ [(Phase.idle, 0x00), (.hookWait, 0x01), (.scClear, 0x10), (.scInit, 0x11), (.scReset, 0x12), (.idEnter, 0x13),
        (.idShift, 0x14), (.idExit, 0x15), (.idIdle, 0x16), (.irEnter, 0x17), (.irHint, 0x18), (.irFirst, 0x19),
        (.irProbe, 0x1A), (.irExit, 0x1B), (.irIdle, 0x1C), (.drEnter, 0x1D), (.drCount, 0x1E), (.drExit, 0x1F),
        (.drIdle, 0x20), (.scPost, 0x21), (.scClassify, 0x22), (.failExit, 0x23), (.failIdle, 0x24), (.failClear, 0x25),
        (.wiEnter, 0x30), (.wiPre, 0x31), (.wiVal, 0x32), (.wiPost, 0x33), (.wiIdle, 0x34), (.sdEnter, 0x38),
        (.sdPre, 0x39), (.sdData, 0x3A), (.sdPost, 0x3B), (.sdIdle, 0x3C)],
      s.phase = row.1 → s.statusWord.extractLsb' 24 6 = BitVec.ofNat 6 row.2) ∧
    s.statusWord.extractLsb' 30 2 = 0#2

/-- R63: reserved and unpopulated locations read as zero and ignore stores, and stores to the read-only registers are
ignored; a HINT byte past MAX_DEVS reads as zero within its word and is never stored. That this holds of an unpopulated
HINT or DIN word while BUSY too is DEDUCED (notes/assumptions/8.md). -/
def Obligations.ReservedReadsZeroIgnoresStores : Prop :=
  (∀ (s : State) (rest : List Move) (off : Nat), off % 4 = 0 →
    ((0x018 ≤ off ∧ off < 0x100) ∨ (0x400 ≤ off ∧ off < 0x1000) ∨ (0x100 + s.params.maxDevs ≤ off ∧ off < 0x200) ∨
      (0x200 + 4 * s.params.maxDrWords ≤ off ∧ off < 0x300) ∨ (0x300 + 4 * s.params.maxDrWords ≤ off ∧ off < 0x400)) →
    step (s.withEnv (.host (.load .word (s.params.windowBase + off)) :: rest)) =
      .next { s with env := rest, trace := .loadData 0#32 :: s.trace }) ∧
  (∀ (s : State) (rest : List Move) (off : Nat) (v : Word), off % 4 = 0 →
    ((0x008 ≤ off ∧ off < 0x100) ∨ (0x300 ≤ off ∧ off < 0x1000) ∨ (0x100 + s.params.maxDevs ≤ off ∧ off < 0x200) ∨
      (0x200 + 4 * s.params.maxDrWords ≤ off ∧ off < 0x300)) →
    step (s.withEnv (.host (.store .word (s.params.windowBase + off) v) :: rest)) = .next { s with env := rest }) ∧
  (∀ (s t : State) (rest : List Move) (q b : Nat) (v : Word), q < 64 → b < 4 → s.params.maxDevs ≤ 4 * q + b →
    (step (s.withEnv (.host (.load .word (s.params.windowBase + 0x100 + 4 * q)) :: rest)) =
      .next { s with env := rest, trace := .loadData v :: s.trace } → v.extractLsb' (8 * b) 8 = 0#8) ∧
    (step (s.withEnv (.host (.store .word (s.params.windowBase + 0x100 + 4 * q) v) :: rest)) = .next t →
      t.hint.read (4 * q + b) = s.hint.read (4 * q + b)))

/-- R62: an access of another width, or at an offset that is not a multiple of 4, gets a bus error, which the model takes as
a fault. -/
def Obligations.BadAccessIsABusError : Prop :=
  ∀ (s : State) (rest : List Move) (width : Width) (off : Nat) (v : Word), off < 4096 → (width ≠ .word ∨ off % 4 ≠ 0) →
    step (s.withEnv (.host (.load width (s.params.windowBase + off)) :: rest)) = .fault .busError ∧
    step (s.withEnv (.host (.store width (s.params.windowBase + off) v) :: rest)) = .fault .busError

/-- R64: outside BUSY a 32-bit store sets the four HINT entries of its word at once, entry k to the bits
`8 * (k mod 4) + 7 .. 8 * (k mod 4)`, and nothing else. -/
def Obligations.HintStoreIsLittleEndian : Prop :=
  ∀ (s : State) (rest : List Move) (q : Nat) (v : Word), s.Accepting → q < 64 →
    ∃ t, step (s.withEnv (.host (.store .word (s.params.windowBase + 0x100 + 4 * q) v) :: rest)) = .next t ∧
      t = { s with hint := t.hint, env := rest } ∧
      ∀ k, t.hint.read k = if k / 4 = q ∧ k < s.params.maxDevs then some (v.extractLsb' (8 * (k % 4)) 8) else s.hint.read k

/-- R32, R36, R66, R236: a store to ARG only stores its value, in every mode, and so does a store to a populated DIN word outside
BUSY; while BUSY a store to a populated DIN word, or to a HINT word that holds an entry, is a fault. (A word that holds no
entry stays ignored, R63: DEDUCED, notes/assumptions/8.md.) -/
def Obligations.StoresByMode : Prop :=
  (∀ (s : State) (rest : List Move) (v : Word),
    step (s.withEnv (.host (.store .word (s.params.windowBase + 0x004) v) :: rest)) =
      .next { s with arg := v, env := rest }) ∧
  (∀ (s : State) (rest : List Move) (w : Nat) (v : Word), s.Accepting → w < 64 → w < s.params.maxDrWords →
    ∃ t, step (s.withEnv (.host (.store .word (s.params.windowBase + 0x200 + 4 * w) v) :: rest)) = .next t ∧
      t = { s with din := t.din, env := rest } ∧
      ∀ x, t.din.read x = if x = w then some v else s.din.read x) ∧
  (∀ (s : State) (rest : List Move) (q : Nat) (v : Word), ¬ s.Accepting → q < 64 → 4 * q < s.params.maxDevs →
    step (s.withEnv (.host (.store .word (s.params.windowBase + 0x100 + 4 * q) v) :: rest)) = .fault .hintWriteBusy) ∧
  (∀ (s : State) (rest : List Move) (w : Nat) (v : Word), ¬ s.Accepting → w < 64 → w < s.params.maxDrWords →
    step (s.withEnv (.host (.store .word (s.params.windowBase + 0x200 + 4 * w) v) :: rest)) = .fault .dinWriteBusy)

/-- R232: an entry that has not been written since reset faults where it is read: a HINT byte or a DIN word by a load, a DOUT
word with a bit no capture has written by a load, the hint SCANH stands at, and a DIN word SHIFT_DR takes a bit from. -/
def Obligations.UnwrittenEntriesFault : Prop :=
  (∀ (s : State) (rest : List Move) (k : Nat), k < s.params.maxDevs → k < 256 → s.hint.read k = none →
    step (s.withEnv (.host (.load .word (s.params.windowBase + 0x100 + 4 * (k / 4))) :: rest)) =
      .fault .hintReadUnwritten) ∧
  (∀ (s : State) (rest : List Move) (w : Nat), w < s.params.maxDrWords → w < 64 → s.din.read w = none →
    step (s.withEnv (.host (.load .word (s.params.windowBase + 0x200 + 4 * w)) :: rest)) = .fault .dinReadUnwritten) ∧
  (∀ (s : State) (rest : List Move) (b : Nat), b < 32 * s.params.maxDrWords → b < 2048 → s.dout.read b = none →
    step (s.withEnv (.host (.load .word (s.params.windowBase + 0x300 + 4 * (b / 32))) :: rest)) =
      .fault .doutReadUnwritten) ∧
  (∀ s : State, s.phase = .irHint → s.k.toNat < s.params.maxDevs → s.hint.read s.k.toNat = none → s.CoreTurn →
    step s = .fault .hintUsedUnwritten) ∧
  (∀ (s : State) (b : Nat), s.phase = .sdData → b < s.oplNbits → s.din.read (b / 32) = none → s.CoreTurn →
    step s = .fault .dinUsedUnwritten) ∧
  (∀ (p : Params) (k : Nat), (State.resetWith p).hint.read k = none ∧ (State.resetWith p).din.read k = none ∧
    (State.resetWith p).dout.read k = none)

/-- R36, R63, R64: a load of a buffer word whose entries are written gives them: HINT entry k in byte `k mod 4`, with 0 past
the last entry, a DIN word as it was stored, DOUT bit b in bit `b mod 32`. -/
def Obligations.WrittenEntriesRead : Prop :=
  (∀ (s : State) (rest : List Move) (q : Nat), q < 64 → 4 * q < s.params.maxDevs →
    (∀ b, b < 4 → 4 * q + b < s.params.maxDevs → ∃ e, s.hint.read (4 * q + b) = some e) →
    ∃ v, step (s.withEnv (.host (.load .word (s.params.windowBase + 0x100 + 4 * q)) :: rest)) =
        .next { s with env := rest, trace := .loadData v :: s.trace } ∧
      ∀ b, b < 4 → if 4 * q + b < s.params.maxDevs then s.hint.read (4 * q + b) = some (v.extractLsb' (8 * b) 8)
        else v.extractLsb' (8 * b) 8 = 0#8) ∧
  (∀ (s : State) (rest : List Move) (w : Nat) (v : Word), w < 64 → w < s.params.maxDrWords → s.din.read w = some v →
    step (s.withEnv (.host (.load .word (s.params.windowBase + 0x200 + 4 * w)) :: rest)) =
      .next { s with env := rest, trace := .loadData v :: s.trace }) ∧
  (∀ (s : State) (rest : List Move) (w : Nat), w < 64 → w < s.params.maxDrWords →
    (∀ b, b < 32 → ∃ c, s.dout.read (32 * w + b) = some c) →
    ∃ v, step (s.withEnv (.host (.load .word (s.params.windowBase + 0x300 + 4 * w)) :: rest)) =
        .next { s with env := rest, trace := .loadData v :: s.trace } ∧
      ∀ b, b < 32 → s.dout.read (32 * w + b) = some (v.getLsbD b))

/-! ### The TAP request bus -/

/-- R90: REQ_OP, COUNT, EXIT and SRC of every request, for every choice of the parameters; COUNT carries the low 16 bits of
its number, which R91 says is all of it. -/
def Obligations.RequestFields : Prop :=
  ∀ (p : Params) (c n : Nat) (v : Vec) (exit : Bool),
    ∀ row ∈ ([(.init, 0#3, 0, false, 0#1), (.reset, 1#3, 0, false, 0#1), (.enterShiftIr, 2#3, 0, false, 0#1),
        (.enterShiftDr, 3#3, 0, false, 0#1), (.returnIdle c, 4#3, c, false, 0#1),
        (.shift .ones n exit, 5#3, n, exit, 0#1), (.shift (.vec v) n exit, 5#3, n, exit, 1#1),
        (.shiftCapture .ones n exit, 6#3, n, exit, 0#1), (.shiftCapture (.vec v) n exit, 6#3, n, exit, 1#1)] :
          List (TapReq × BitVec 3 × Nat × Bool × BitVec 1)),
      (row.1.bus p).reqOp = row.2.1 ∧ (row.1.bus p).count = BitVec.ofNat 16 row.2.2.1 ∧
        (row.1.bus p).exit = BitVec.ofBool row.2.2.2.1 ∧ (row.1.bus p).src = row.2.2.2.2

/-- R90, R91: VEC and TDO have max(32, MAX_DR_BITS) bits, and that is room enough for what the core shifts and captures: bit k
of VEC is bit k of the source below COUNT; bit k of TDO is the k-th captured bit below COUNT and 0 from it on; LAST is
`TDO[COUNT-1]`; OK is INIT's answer. The core reads the response as the bus carries it. -/
def Obligations.VectorsOnTheBus : Prop :=
  (∀ (p : Params) (r : TapResp), p.busWidth = max 32 p.maxDrBits ∧ (TapReq.init.respBus p r).ok = BitVec.ofBool r.ok ∧
    (TapReq.init.received p r).ok = r.ok) ∧
  ∀ (s : State) (q : TapReq) (n : Nat), s.Inv → s.tapRequest = some q → q.shiftCount = some n →
    (∀ (v : Vec) (exit : Bool), (q = .shift (.vec v) n exit ∨ q = .shiftCapture (.vec v) n exit) →
      ∀ k, k < n → (q.bus s.params).vec.getLsbD k = v.getLsbD k) ∧
    (∀ (src : Src) (exit : Bool) (r : TapResp), q = .shiftCapture src n exit →
      (∀ k, (q.respBus s.params r).tdo.getLsbD k = (decide (k < n) && r.tdo.getLsbD k)) ∧
      (∀ k, (q.received s.params r).tdo.getLsbD k = (q.respBus s.params r).tdo.getLsbD k) ∧
      (q.respBus s.params r).last = BitVec.ofBool ((q.respBus s.params r).tdo.getLsbD (n - 1)))
end

