-- ==== Sys2Proof/Laws/State.lean ====
section
/-! SUPPORT. Each shared operation over State, field by field: one lemma per field, so that no later proof unfolds a record
update. -/
namespace Sys2Proof.Machine

variable (s : State)

@[simp] theorem goto_params (p : Phase) : (s.goto p).params = s.params := by rfl
@[simp] theorem goto_cmdLast (p : Phase) : (s.goto p).cmdLast = s.cmdLast := by rfl
@[simp] theorem goto_arg (p : Phase) : (s.goto p).arg = s.arg := by rfl
@[simp] theorem goto_result (p : Phase) : (s.goto p).result = s.result := by rfl
@[simp] theorem goto_table (p : Phase) : (s.goto p).table = s.table := by rfl
@[simp] theorem goto_deviceCount (p : Phase) : (s.goto p).deviceCount = s.deviceCount := by rfl
@[simp] theorem goto_phase (p : Phase) : (s.goto p).phase = p := by rfl
@[simp] theorem goto_tapReady (p : Phase) : (s.goto p).tapReady = s.tapReady := by rfl
@[simp] theorem goto_hookActive (p : Phase) : (s.goto p).hookActive = s.hookActive := by rfl
@[simp] theorem goto_hookDev (p : Phase) : (s.goto p).hookDev = s.hookDev := by rfl
@[simp] theorem goto_hookDesc (p : Phase) : (s.goto p).hookDesc = s.hookDesc := by rfl
@[simp] theorem goto_warnIr0 (p : Phase) : (s.goto p).warnIr0 = s.warnIr0 := by rfl
@[simp] theorem goto_drop (p : Phase) : (s.goto p).drop = s.drop := by rfl
@[simp] theorem goto_err (p : Phase) : (s.goto p).err = s.err := by rfl
@[simp] theorem goto_oplCmd (p : Phase) : (s.goto p).oplCmd = s.oplCmd := by rfl
@[simp] theorem goto_oplArg (p : Phase) : (s.goto p).oplArg = s.oplArg := by rfl
@[simp] theorem goto_n (p : Phase) : (s.goto p).n = s.n := by rfl
@[simp] theorem goto_k (p : Phase) : (s.goto p).k = s.k := by rfl
@[simp] theorem goto_dev (p : Phase) : (s.goto p).dev = s.dev := by rfl
@[simp] theorem goto_len (p : Phase) : (s.goto p).len = s.len := by rfl
@[simp] theorem goto_pre (p : Phase) : (s.goto p).pre = s.pre := by rfl
@[simp] theorem goto_cnt (p : Phase) : (s.goto p).cnt = s.cnt := by rfl
@[simp] theorem goto_i (p : Phase) : (s.goto p).i = s.i := by rfl
@[simp] theorem goto_j (p : Phase) : (s.goto p).j = s.j := by rfl
@[simp] theorem goto_failCode (p : Phase) : (s.goto p).failCode = s.failCode := by rfl
@[simp] theorem goto_fromHook (p : Phase) : (s.goto p).fromHook = s.fromHook := by rfl
@[simp] theorem goto_hint (p : Phase) : (s.goto p).hint = s.hint := by rfl
@[simp] theorem goto_din (p : Phase) : (s.goto p).din = s.din := by rfl
@[simp] theorem goto_dout (p : Phase) : (s.goto p).dout = s.dout := by rfl
@[simp] theorem goto_tapCtl (p : Phase) : (s.goto p).tapCtl = s.tapCtl := by rfl
@[simp] theorem goto_env (p : Phase) : (s.goto p).env = s.env := by rfl
@[simp] theorem goto_trace (p : Phase) : (s.goto p).trace = s.trace := by rfl

@[simp] theorem emit_params (o : Output) : (s.emit o).params = s.params := by rfl
@[simp] theorem emit_cmdLast (o : Output) : (s.emit o).cmdLast = s.cmdLast := by rfl
@[simp] theorem emit_arg (o : Output) : (s.emit o).arg = s.arg := by rfl
@[simp] theorem emit_result (o : Output) : (s.emit o).result = s.result := by rfl
@[simp] theorem emit_table (o : Output) : (s.emit o).table = s.table := by rfl
@[simp] theorem emit_deviceCount (o : Output) : (s.emit o).deviceCount = s.deviceCount := by rfl
@[simp] theorem emit_phase (o : Output) : (s.emit o).phase = s.phase := by rfl
@[simp] theorem emit_tapReady (o : Output) : (s.emit o).tapReady = s.tapReady := by rfl
@[simp] theorem emit_hookActive (o : Output) : (s.emit o).hookActive = s.hookActive := by rfl
@[simp] theorem emit_hookDev (o : Output) : (s.emit o).hookDev = s.hookDev := by rfl
@[simp] theorem emit_hookDesc (o : Output) : (s.emit o).hookDesc = s.hookDesc := by rfl
@[simp] theorem emit_warnIr0 (o : Output) : (s.emit o).warnIr0 = s.warnIr0 := by rfl
@[simp] theorem emit_drop (o : Output) : (s.emit o).drop = s.drop := by rfl
@[simp] theorem emit_err (o : Output) : (s.emit o).err = s.err := by rfl
@[simp] theorem emit_oplCmd (o : Output) : (s.emit o).oplCmd = s.oplCmd := by rfl
@[simp] theorem emit_oplArg (o : Output) : (s.emit o).oplArg = s.oplArg := by rfl
@[simp] theorem emit_n (o : Output) : (s.emit o).n = s.n := by rfl
@[simp] theorem emit_k (o : Output) : (s.emit o).k = s.k := by rfl
@[simp] theorem emit_dev (o : Output) : (s.emit o).dev = s.dev := by rfl
@[simp] theorem emit_len (o : Output) : (s.emit o).len = s.len := by rfl
@[simp] theorem emit_pre (o : Output) : (s.emit o).pre = s.pre := by rfl
@[simp] theorem emit_cnt (o : Output) : (s.emit o).cnt = s.cnt := by rfl
@[simp] theorem emit_i (o : Output) : (s.emit o).i = s.i := by rfl
@[simp] theorem emit_j (o : Output) : (s.emit o).j = s.j := by rfl
@[simp] theorem emit_failCode (o : Output) : (s.emit o).failCode = s.failCode := by rfl
@[simp] theorem emit_fromHook (o : Output) : (s.emit o).fromHook = s.fromHook := by rfl
@[simp] theorem emit_hint (o : Output) : (s.emit o).hint = s.hint := by rfl
@[simp] theorem emit_din (o : Output) : (s.emit o).din = s.din := by rfl
@[simp] theorem emit_dout (o : Output) : (s.emit o).dout = s.dout := by rfl
@[simp] theorem emit_tapCtl (o : Output) : (s.emit o).tapCtl = s.tapCtl := by rfl
@[simp] theorem emit_env (o : Output) : (s.emit o).env = s.env := by rfl
@[simp] theorem emit_trace (o : Output) : (s.emit o).trace = o :: s.trace := by rfl

@[simp] theorem modifySlot_params (a : Nat) (f : DevRec → DevRec) : (s.modifySlot a f).params = s.params := by rfl
@[simp] theorem modifySlot_cmdLast (a : Nat) (f : DevRec → DevRec) : (s.modifySlot a f).cmdLast = s.cmdLast := by rfl
@[simp] theorem modifySlot_arg (a : Nat) (f : DevRec → DevRec) : (s.modifySlot a f).arg = s.arg := by rfl
@[simp] theorem modifySlot_result (a : Nat) (f : DevRec → DevRec) : (s.modifySlot a f).result = s.result := by rfl
@[simp] theorem modifySlot_table (a : Nat) (f : DevRec → DevRec) : (s.modifySlot a f).table = s.table.modify a f := by rfl
@[simp] theorem modifySlot_deviceCount (a : Nat) (f : DevRec → DevRec) : (s.modifySlot a f).deviceCount = s.deviceCount := by rfl
@[simp] theorem modifySlot_phase (a : Nat) (f : DevRec → DevRec) : (s.modifySlot a f).phase = s.phase := by rfl
@[simp] theorem modifySlot_tapReady (a : Nat) (f : DevRec → DevRec) : (s.modifySlot a f).tapReady = s.tapReady := by rfl
@[simp] theorem modifySlot_hookActive (a : Nat) (f : DevRec → DevRec) : (s.modifySlot a f).hookActive = s.hookActive := by rfl
@[simp] theorem modifySlot_hookDev (a : Nat) (f : DevRec → DevRec) : (s.modifySlot a f).hookDev = s.hookDev := by rfl
@[simp] theorem modifySlot_hookDesc (a : Nat) (f : DevRec → DevRec) : (s.modifySlot a f).hookDesc = s.hookDesc := by rfl
@[simp] theorem modifySlot_warnIr0 (a : Nat) (f : DevRec → DevRec) : (s.modifySlot a f).warnIr0 = s.warnIr0 := by rfl
@[simp] theorem modifySlot_drop (a : Nat) (f : DevRec → DevRec) : (s.modifySlot a f).drop = s.drop := by rfl
@[simp] theorem modifySlot_err (a : Nat) (f : DevRec → DevRec) : (s.modifySlot a f).err = s.err := by rfl
@[simp] theorem modifySlot_oplCmd (a : Nat) (f : DevRec → DevRec) : (s.modifySlot a f).oplCmd = s.oplCmd := by rfl
@[simp] theorem modifySlot_oplArg (a : Nat) (f : DevRec → DevRec) : (s.modifySlot a f).oplArg = s.oplArg := by rfl
@[simp] theorem modifySlot_n (a : Nat) (f : DevRec → DevRec) : (s.modifySlot a f).n = s.n := by rfl
@[simp] theorem modifySlot_k (a : Nat) (f : DevRec → DevRec) : (s.modifySlot a f).k = s.k := by rfl
@[simp] theorem modifySlot_dev (a : Nat) (f : DevRec → DevRec) : (s.modifySlot a f).dev = s.dev := by rfl
@[simp] theorem modifySlot_len (a : Nat) (f : DevRec → DevRec) : (s.modifySlot a f).len = s.len := by rfl
@[simp] theorem modifySlot_pre (a : Nat) (f : DevRec → DevRec) : (s.modifySlot a f).pre = s.pre := by rfl
@[simp] theorem modifySlot_cnt (a : Nat) (f : DevRec → DevRec) : (s.modifySlot a f).cnt = s.cnt := by rfl
@[simp] theorem modifySlot_i (a : Nat) (f : DevRec → DevRec) : (s.modifySlot a f).i = s.i := by rfl
@[simp] theorem modifySlot_j (a : Nat) (f : DevRec → DevRec) : (s.modifySlot a f).j = s.j := by rfl
@[simp] theorem modifySlot_failCode (a : Nat) (f : DevRec → DevRec) : (s.modifySlot a f).failCode = s.failCode := by rfl
@[simp] theorem modifySlot_fromHook (a : Nat) (f : DevRec → DevRec) : (s.modifySlot a f).fromHook = s.fromHook := by rfl
@[simp] theorem modifySlot_hint (a : Nat) (f : DevRec → DevRec) : (s.modifySlot a f).hint = s.hint := by rfl
@[simp] theorem modifySlot_din (a : Nat) (f : DevRec → DevRec) : (s.modifySlot a f).din = s.din := by rfl
@[simp] theorem modifySlot_dout (a : Nat) (f : DevRec → DevRec) : (s.modifySlot a f).dout = s.dout := by rfl
@[simp] theorem modifySlot_tapCtl (a : Nat) (f : DevRec → DevRec) : (s.modifySlot a f).tapCtl = s.tapCtl := by rfl
@[simp] theorem modifySlot_env (a : Nat) (f : DevRec → DevRec) : (s.modifySlot a f).env = s.env := by rfl
@[simp] theorem modifySlot_trace (a : Nat) (f : DevRec → DevRec) : (s.modifySlot a f).trace = s.trace := by rfl

@[simp] theorem clearTable_params : s.clearTable.params = s.params := by rfl
@[simp] theorem clearTable_cmdLast : s.clearTable.cmdLast = s.cmdLast := by rfl
@[simp] theorem clearTable_arg : s.clearTable.arg = s.arg := by rfl
@[simp] theorem clearTable_result : s.clearTable.result = s.result := by rfl
@[simp] theorem clearTable_table : s.clearTable.table = List.replicate (s.params.maxDevs + 1) DevRec.zero := by rfl
@[simp] theorem clearTable_deviceCount : s.clearTable.deviceCount = 0#8 := by rfl
@[simp] theorem clearTable_phase : s.clearTable.phase = s.phase := by rfl
@[simp] theorem clearTable_tapReady : s.clearTable.tapReady = s.tapReady := by rfl
@[simp] theorem clearTable_hookActive : s.clearTable.hookActive = s.hookActive := by rfl
@[simp] theorem clearTable_hookDev : s.clearTable.hookDev = s.hookDev := by rfl
@[simp] theorem clearTable_hookDesc : s.clearTable.hookDesc = s.hookDesc := by rfl
@[simp] theorem clearTable_warnIr0 : s.clearTable.warnIr0 = s.warnIr0 := by rfl
@[simp] theorem clearTable_drop : s.clearTable.drop = s.drop := by rfl
@[simp] theorem clearTable_err : s.clearTable.err = s.err := by rfl
@[simp] theorem clearTable_oplCmd : s.clearTable.oplCmd = s.oplCmd := by rfl
@[simp] theorem clearTable_oplArg : s.clearTable.oplArg = s.oplArg := by rfl
@[simp] theorem clearTable_n : s.clearTable.n = s.n := by rfl
@[simp] theorem clearTable_k : s.clearTable.k = s.k := by rfl
@[simp] theorem clearTable_dev : s.clearTable.dev = s.dev := by rfl
@[simp] theorem clearTable_len : s.clearTable.len = s.len := by rfl
@[simp] theorem clearTable_pre : s.clearTable.pre = s.pre := by rfl
@[simp] theorem clearTable_cnt : s.clearTable.cnt = s.cnt := by rfl
@[simp] theorem clearTable_i : s.clearTable.i = s.i := by rfl
@[simp] theorem clearTable_j : s.clearTable.j = s.j := by rfl
@[simp] theorem clearTable_failCode : s.clearTable.failCode = s.failCode := by rfl
@[simp] theorem clearTable_fromHook : s.clearTable.fromHook = s.fromHook := by rfl
@[simp] theorem clearTable_hint : s.clearTable.hint = s.hint := by rfl
@[simp] theorem clearTable_din : s.clearTable.din = s.din := by rfl
@[simp] theorem clearTable_dout : s.clearTable.dout = s.dout := by rfl
@[simp] theorem clearTable_tapCtl : s.clearTable.tapCtl = s.tapCtl := by rfl
@[simp] theorem clearTable_env : s.clearTable.env = s.env := by rfl
@[simp] theorem clearTable_trace : s.clearTable.trace = s.trace := by rfl

@[simp] theorem forgetAll_params : s.forgetAll.params = s.params := by rfl
@[simp] theorem forgetAll_cmdLast : s.forgetAll.cmdLast = s.cmdLast := by rfl
@[simp] theorem forgetAll_arg : s.forgetAll.arg = s.arg := by rfl
@[simp] theorem forgetAll_result : s.forgetAll.result = s.result := by rfl
@[simp] theorem forgetAll_table : s.forgetAll.table = s.table.map DevRec.forget := by rfl
@[simp] theorem forgetAll_deviceCount : s.forgetAll.deviceCount = s.deviceCount := by rfl
@[simp] theorem forgetAll_phase : s.forgetAll.phase = s.phase := by rfl
@[simp] theorem forgetAll_tapReady : s.forgetAll.tapReady = s.tapReady := by rfl
@[simp] theorem forgetAll_hookActive : s.forgetAll.hookActive = s.hookActive := by rfl
@[simp] theorem forgetAll_hookDev : s.forgetAll.hookDev = s.hookDev := by rfl
@[simp] theorem forgetAll_hookDesc : s.forgetAll.hookDesc = s.hookDesc := by rfl
@[simp] theorem forgetAll_warnIr0 : s.forgetAll.warnIr0 = s.warnIr0 := by rfl
@[simp] theorem forgetAll_drop : s.forgetAll.drop = s.drop := by rfl
@[simp] theorem forgetAll_err : s.forgetAll.err = s.err := by rfl
@[simp] theorem forgetAll_oplCmd : s.forgetAll.oplCmd = s.oplCmd := by rfl
@[simp] theorem forgetAll_oplArg : s.forgetAll.oplArg = s.oplArg := by rfl
@[simp] theorem forgetAll_n : s.forgetAll.n = s.n := by rfl
@[simp] theorem forgetAll_k : s.forgetAll.k = s.k := by rfl
@[simp] theorem forgetAll_dev : s.forgetAll.dev = s.dev := by rfl
@[simp] theorem forgetAll_len : s.forgetAll.len = s.len := by rfl
@[simp] theorem forgetAll_pre : s.forgetAll.pre = s.pre := by rfl
@[simp] theorem forgetAll_cnt : s.forgetAll.cnt = s.cnt := by rfl
@[simp] theorem forgetAll_i : s.forgetAll.i = s.i := by rfl
@[simp] theorem forgetAll_j : s.forgetAll.j = s.j := by rfl
@[simp] theorem forgetAll_failCode : s.forgetAll.failCode = s.failCode := by rfl
@[simp] theorem forgetAll_fromHook : s.forgetAll.fromHook = s.fromHook := by rfl
@[simp] theorem forgetAll_hint : s.forgetAll.hint = s.hint := by rfl
@[simp] theorem forgetAll_din : s.forgetAll.din = s.din := by rfl
@[simp] theorem forgetAll_dout : s.forgetAll.dout = s.dout := by rfl
@[simp] theorem forgetAll_tapCtl : s.forgetAll.tapCtl = s.tapCtl := by rfl
@[simp] theorem forgetAll_env : s.forgetAll.env = s.env := by rfl
@[simp] theorem forgetAll_trace : s.forgetAll.trace = s.trace := by rfl

@[simp] theorem reject_params (code : ErrCode) : (s.reject code).params = s.params := by rfl
@[simp] theorem reject_cmdLast (code : ErrCode) : (s.reject code).cmdLast = s.cmdLast := by rfl
@[simp] theorem reject_arg (code : ErrCode) : (s.reject code).arg = s.arg := by rfl
@[simp] theorem reject_result (code : ErrCode) : (s.reject code).result = 0#32 := by rfl
@[simp] theorem reject_table (code : ErrCode) : (s.reject code).table = s.table := by rfl
@[simp] theorem reject_deviceCount (code : ErrCode) : (s.reject code).deviceCount = s.deviceCount := by rfl
@[simp] theorem reject_phase (code : ErrCode) : (s.reject code).phase = s.home := by rfl
@[simp] theorem reject_tapReady (code : ErrCode) : (s.reject code).tapReady = s.tapReady := by rfl
@[simp] theorem reject_hookActive (code : ErrCode) : (s.reject code).hookActive = s.hookActive := by rfl
@[simp] theorem reject_hookDev (code : ErrCode) : (s.reject code).hookDev = s.hookDev := by rfl
@[simp] theorem reject_hookDesc (code : ErrCode) : (s.reject code).hookDesc = s.hookDesc := by rfl
@[simp] theorem reject_warnIr0 (code : ErrCode) : (s.reject code).warnIr0 = s.warnIr0 := by rfl
@[simp] theorem reject_drop (code : ErrCode) : (s.reject code).drop = s.drop := by rfl
@[simp] theorem reject_err (code : ErrCode) : (s.reject code).err = code := by rfl
@[simp] theorem reject_oplCmd (code : ErrCode) : (s.reject code).oplCmd = s.oplCmd := by rfl
@[simp] theorem reject_oplArg (code : ErrCode) : (s.reject code).oplArg = s.oplArg := by rfl
@[simp] theorem reject_n (code : ErrCode) : (s.reject code).n = s.n := by rfl
@[simp] theorem reject_k (code : ErrCode) : (s.reject code).k = s.k := by rfl
@[simp] theorem reject_dev (code : ErrCode) : (s.reject code).dev = s.dev := by rfl
@[simp] theorem reject_len (code : ErrCode) : (s.reject code).len = s.len := by rfl
@[simp] theorem reject_pre (code : ErrCode) : (s.reject code).pre = s.pre := by rfl
@[simp] theorem reject_cnt (code : ErrCode) : (s.reject code).cnt = s.cnt := by rfl
@[simp] theorem reject_i (code : ErrCode) : (s.reject code).i = s.i := by rfl
@[simp] theorem reject_j (code : ErrCode) : (s.reject code).j = s.j := by rfl
@[simp] theorem reject_failCode (code : ErrCode) : (s.reject code).failCode = s.failCode := by rfl
@[simp] theorem reject_fromHook (code : ErrCode) : (s.reject code).fromHook = s.fromHook := by rfl
@[simp] theorem reject_hint (code : ErrCode) : (s.reject code).hint = s.hint := by rfl
@[simp] theorem reject_din (code : ErrCode) : (s.reject code).din = s.din := by rfl
@[simp] theorem reject_dout (code : ErrCode) : (s.reject code).dout = s.dout := by rfl
@[simp] theorem reject_tapCtl (code : ErrCode) : (s.reject code).tapCtl = s.tapCtl := by rfl
@[simp] theorem reject_env (code : ErrCode) : (s.reject code).env = s.env := by rfl
@[simp] theorem reject_trace (code : ErrCode) : (s.reject code).trace = s.trace := by rfl

@[simp] theorem complete_params (r : Word) : (s.complete r).params = s.params := by rfl
@[simp] theorem complete_cmdLast (r : Word) : (s.complete r).cmdLast = s.cmdLast := by rfl
@[simp] theorem complete_arg (r : Word) : (s.complete r).arg = s.arg := by rfl
@[simp] theorem complete_result (r : Word) : (s.complete r).result = r := by rfl
@[simp] theorem complete_table (r : Word) : (s.complete r).table = s.table := by rfl
@[simp] theorem complete_deviceCount (r : Word) : (s.complete r).deviceCount = s.deviceCount := by rfl
@[simp] theorem complete_phase (r : Word) : (s.complete r).phase = s.home := by rfl
@[simp] theorem complete_tapReady (r : Word) : (s.complete r).tapReady = s.tapReady := by rfl
@[simp] theorem complete_hookActive (r : Word) : (s.complete r).hookActive = s.hookActive := by rfl
@[simp] theorem complete_hookDev (r : Word) : (s.complete r).hookDev = s.hookDev := by rfl
@[simp] theorem complete_hookDesc (r : Word) : (s.complete r).hookDesc = s.hookDesc := by rfl
@[simp] theorem complete_warnIr0 (r : Word) : (s.complete r).warnIr0 = s.warnIr0 := by rfl
@[simp] theorem complete_drop (r : Word) : (s.complete r).drop = s.drop := by rfl
@[simp] theorem complete_err (r : Word) : (s.complete r).err = .none := by rfl
@[simp] theorem complete_oplCmd (r : Word) : (s.complete r).oplCmd = s.oplCmd := by rfl
@[simp] theorem complete_oplArg (r : Word) : (s.complete r).oplArg = s.oplArg := by rfl
@[simp] theorem complete_n (r : Word) : (s.complete r).n = s.n := by rfl
@[simp] theorem complete_k (r : Word) : (s.complete r).k = s.k := by rfl
@[simp] theorem complete_dev (r : Word) : (s.complete r).dev = s.dev := by rfl
@[simp] theorem complete_len (r : Word) : (s.complete r).len = s.len := by rfl
@[simp] theorem complete_pre (r : Word) : (s.complete r).pre = s.pre := by rfl
@[simp] theorem complete_cnt (r : Word) : (s.complete r).cnt = s.cnt := by rfl
@[simp] theorem complete_i (r : Word) : (s.complete r).i = s.i := by rfl
@[simp] theorem complete_j (r : Word) : (s.complete r).j = s.j := by rfl
@[simp] theorem complete_failCode (r : Word) : (s.complete r).failCode = s.failCode := by rfl
@[simp] theorem complete_fromHook (r : Word) : (s.complete r).fromHook = s.fromHook := by rfl
@[simp] theorem complete_hint (r : Word) : (s.complete r).hint = s.hint := by rfl
@[simp] theorem complete_din (r : Word) : (s.complete r).din = s.din := by rfl
@[simp] theorem complete_dout (r : Word) : (s.complete r).dout = s.dout := by rfl
@[simp] theorem complete_tapCtl (r : Word) : (s.complete r).tapCtl = s.tapCtl := by rfl
@[simp] theorem complete_env (r : Word) : (s.complete r).env = s.env := by rfl
@[simp] theorem complete_trace (r : Word) : (s.complete r).trace = s.trace := by rfl

@[simp] theorem completeScan_params : s.completeScan.params = s.params := by rfl
@[simp] theorem completeScan_cmdLast : s.completeScan.cmdLast = s.cmdLast := by rfl
@[simp] theorem completeScan_arg : s.completeScan.arg = s.arg := by rfl
@[simp] theorem completeScan_result : s.completeScan.result = s.cnt.setWidth 32 := by rfl
@[simp] theorem completeScan_table : s.completeScan.table = s.table := by rfl
@[simp] theorem completeScan_deviceCount : s.completeScan.deviceCount = s.deviceCount := by rfl
@[simp] theorem completeScan_phase : s.completeScan.phase = .idle := by rfl
@[simp] theorem completeScan_tapReady : s.completeScan.tapReady = s.tapReady := by rfl
@[simp] theorem completeScan_hookActive : s.completeScan.hookActive = s.hookActive := by rfl
@[simp] theorem completeScan_hookDev : s.completeScan.hookDev = s.hookDev := by rfl
@[simp] theorem completeScan_hookDesc : s.completeScan.hookDesc = s.hookDesc := by rfl
@[simp] theorem completeScan_warnIr0 : s.completeScan.warnIr0 = s.warnIr0 := by rfl
@[simp] theorem completeScan_drop : s.completeScan.drop = s.drop := by rfl
@[simp] theorem completeScan_err : s.completeScan.err = .none := by rfl
@[simp] theorem completeScan_oplCmd : s.completeScan.oplCmd = s.oplCmd := by rfl
@[simp] theorem completeScan_oplArg : s.completeScan.oplArg = s.oplArg := by rfl
@[simp] theorem completeScan_n : s.completeScan.n = s.n := by rfl
@[simp] theorem completeScan_k : s.completeScan.k = s.k := by rfl
@[simp] theorem completeScan_dev : s.completeScan.dev = s.dev := by rfl
@[simp] theorem completeScan_len : s.completeScan.len = s.len := by rfl
@[simp] theorem completeScan_pre : s.completeScan.pre = s.pre := by rfl
@[simp] theorem completeScan_cnt : s.completeScan.cnt = s.cnt := by rfl
@[simp] theorem completeScan_i : s.completeScan.i = s.i := by rfl
@[simp] theorem completeScan_j : s.completeScan.j = s.j := by rfl
@[simp] theorem completeScan_failCode : s.completeScan.failCode = s.failCode := by rfl
@[simp] theorem completeScan_fromHook : s.completeScan.fromHook = s.fromHook := by rfl
@[simp] theorem completeScan_hint : s.completeScan.hint = s.hint := by rfl
@[simp] theorem completeScan_din : s.completeScan.din = s.din := by rfl
@[simp] theorem completeScan_dout : s.completeScan.dout = s.dout := by rfl
@[simp] theorem completeScan_tapCtl : s.completeScan.tapCtl = s.tapCtl := by rfl
@[simp] theorem completeScan_env : s.completeScan.env = s.env := by rfl
@[simp] theorem completeScan_trace : s.completeScan.trace = s.trace := by rfl

@[simp] theorem fail_params (code : ErrCode) : (s.fail code).params = s.params := by rfl
@[simp] theorem fail_cmdLast (code : ErrCode) : (s.fail code).cmdLast = s.cmdLast := by rfl
@[simp] theorem fail_arg (code : ErrCode) : (s.fail code).arg = s.arg := by rfl
@[simp] theorem fail_result (code : ErrCode) : (s.fail code).result = s.result := by rfl
@[simp] theorem fail_table (code : ErrCode) : (s.fail code).table = s.table := by rfl
@[simp] theorem fail_deviceCount (code : ErrCode) : (s.fail code).deviceCount = s.deviceCount := by rfl
@[simp] theorem fail_phase (code : ErrCode) : (s.fail code).phase = if code = .tapInitFail then .failClear else .failExit := by rfl
@[simp] theorem fail_tapReady (code : ErrCode) : (s.fail code).tapReady = s.tapReady := by rfl
@[simp] theorem fail_hookActive (code : ErrCode) : (s.fail code).hookActive = s.hookActive := by rfl
@[simp] theorem fail_hookDev (code : ErrCode) : (s.fail code).hookDev = s.hookDev := by rfl
@[simp] theorem fail_hookDesc (code : ErrCode) : (s.fail code).hookDesc = s.hookDesc := by rfl
@[simp] theorem fail_warnIr0 (code : ErrCode) : (s.fail code).warnIr0 = s.warnIr0 := by rfl
@[simp] theorem fail_drop (code : ErrCode) : (s.fail code).drop = s.drop := by rfl
@[simp] theorem fail_err (code : ErrCode) : (s.fail code).err = s.err := by rfl
@[simp] theorem fail_oplCmd (code : ErrCode) : (s.fail code).oplCmd = s.oplCmd := by rfl
@[simp] theorem fail_oplArg (code : ErrCode) : (s.fail code).oplArg = s.oplArg := by rfl
@[simp] theorem fail_n (code : ErrCode) : (s.fail code).n = s.n := by rfl
@[simp] theorem fail_k (code : ErrCode) : (s.fail code).k = s.k := by rfl
@[simp] theorem fail_dev (code : ErrCode) : (s.fail code).dev = s.dev := by rfl
@[simp] theorem fail_len (code : ErrCode) : (s.fail code).len = s.len := by rfl
@[simp] theorem fail_pre (code : ErrCode) : (s.fail code).pre = s.pre := by rfl
@[simp] theorem fail_cnt (code : ErrCode) : (s.fail code).cnt = s.cnt := by rfl
@[simp] theorem fail_i (code : ErrCode) : (s.fail code).i = s.i := by rfl
@[simp] theorem fail_j (code : ErrCode) : (s.fail code).j = s.j := by rfl
@[simp] theorem fail_failCode (code : ErrCode) : (s.fail code).failCode = code := by rfl
@[simp] theorem fail_fromHook (code : ErrCode) : (s.fail code).fromHook = s.fromHook := by rfl
@[simp] theorem fail_hint (code : ErrCode) : (s.fail code).hint = s.hint := by rfl
@[simp] theorem fail_din (code : ErrCode) : (s.fail code).din = s.din := by rfl
@[simp] theorem fail_dout (code : ErrCode) : (s.fail code).dout = s.dout := by rfl
@[simp] theorem fail_tapCtl (code : ErrCode) : (s.fail code).tapCtl = s.tapCtl := by rfl
@[simp] theorem fail_env (code : ErrCode) : (s.fail code).env = s.env := by rfl
@[simp] theorem fail_trace (code : ErrCode) : (s.fail code).trace = s.trace := by rfl

@[simp] theorem dropCommand_params : s.dropCommand.params = s.params := by rfl
@[simp] theorem dropCommand_cmdLast : s.dropCommand.cmdLast = s.cmdLast := by rfl
@[simp] theorem dropCommand_arg : s.dropCommand.arg = s.arg := by rfl
@[simp] theorem dropCommand_result : s.dropCommand.result = s.result := by rfl
@[simp] theorem dropCommand_table : s.dropCommand.table = s.table := by rfl
@[simp] theorem dropCommand_deviceCount : s.dropCommand.deviceCount = s.deviceCount := by rfl
@[simp] theorem dropCommand_phase : s.dropCommand.phase = s.phase := by rfl
@[simp] theorem dropCommand_tapReady : s.dropCommand.tapReady = s.tapReady := by rfl
@[simp] theorem dropCommand_hookActive : s.dropCommand.hookActive = s.hookActive := by rfl
@[simp] theorem dropCommand_hookDev : s.dropCommand.hookDev = s.hookDev := by rfl
@[simp] theorem dropCommand_hookDesc : s.dropCommand.hookDesc = s.hookDesc := by rfl
@[simp] theorem dropCommand_warnIr0 : s.dropCommand.warnIr0 = s.warnIr0 := by rfl
@[simp] theorem dropCommand_drop : s.dropCommand.drop = true := by rfl
@[simp] theorem dropCommand_err : s.dropCommand.err = s.err := by rfl
@[simp] theorem dropCommand_oplCmd : s.dropCommand.oplCmd = s.oplCmd := by rfl
@[simp] theorem dropCommand_oplArg : s.dropCommand.oplArg = s.oplArg := by rfl
@[simp] theorem dropCommand_n : s.dropCommand.n = s.n := by rfl
@[simp] theorem dropCommand_k : s.dropCommand.k = s.k := by rfl
@[simp] theorem dropCommand_dev : s.dropCommand.dev = s.dev := by rfl
@[simp] theorem dropCommand_len : s.dropCommand.len = s.len := by rfl
@[simp] theorem dropCommand_pre : s.dropCommand.pre = s.pre := by rfl
@[simp] theorem dropCommand_cnt : s.dropCommand.cnt = s.cnt := by rfl
@[simp] theorem dropCommand_i : s.dropCommand.i = s.i := by rfl
@[simp] theorem dropCommand_j : s.dropCommand.j = s.j := by rfl
@[simp] theorem dropCommand_failCode : s.dropCommand.failCode = s.failCode := by rfl
@[simp] theorem dropCommand_fromHook : s.dropCommand.fromHook = s.fromHook := by rfl
@[simp] theorem dropCommand_hint : s.dropCommand.hint = s.hint := by rfl
@[simp] theorem dropCommand_din : s.dropCommand.din = s.din := by rfl
@[simp] theorem dropCommand_dout : s.dropCommand.dout = s.dout := by rfl
@[simp] theorem dropCommand_tapCtl : s.dropCommand.tapCtl = s.tapCtl := by rfl
@[simp] theorem dropCommand_env : s.dropCommand.env = s.env := by rfl
@[simp] theorem dropCommand_trace : s.dropCommand.trace = s.trace := by rfl

@[simp] theorem latch_params (w : Word) : (s.latch w).params = s.params := by rfl
@[simp] theorem latch_cmdLast (w : Word) : (s.latch w).cmdLast = w := by rfl
@[simp] theorem latch_arg (w : Word) : (s.latch w).arg = s.arg := by rfl
@[simp] theorem latch_result (w : Word) : (s.latch w).result = s.result := by rfl
@[simp] theorem latch_table (w : Word) : (s.latch w).table = s.table := by rfl
@[simp] theorem latch_deviceCount (w : Word) : (s.latch w).deviceCount = s.deviceCount := by rfl
@[simp] theorem latch_phase (w : Word) : (s.latch w).phase = s.phase := by rfl
@[simp] theorem latch_tapReady (w : Word) : (s.latch w).tapReady = s.tapReady := by rfl
@[simp] theorem latch_hookActive (w : Word) : (s.latch w).hookActive = s.hookActive := by rfl
@[simp] theorem latch_hookDev (w : Word) : (s.latch w).hookDev = s.hookDev := by rfl
@[simp] theorem latch_hookDesc (w : Word) : (s.latch w).hookDesc = s.hookDesc := by rfl
@[simp] theorem latch_warnIr0 (w : Word) : (s.latch w).warnIr0 = s.warnIr0 := by rfl
@[simp] theorem latch_drop (w : Word) : (s.latch w).drop = false := by rfl
@[simp] theorem latch_err (w : Word) : (s.latch w).err = s.err := by rfl
@[simp] theorem latch_oplCmd (w : Word) : (s.latch w).oplCmd = w := by rfl
@[simp] theorem latch_oplArg (w : Word) : (s.latch w).oplArg = s.arg := by rfl
@[simp] theorem latch_n (w : Word) : (s.latch w).n = s.n := by rfl
@[simp] theorem latch_k (w : Word) : (s.latch w).k = s.k := by rfl
@[simp] theorem latch_dev (w : Word) : (s.latch w).dev = s.dev := by rfl
@[simp] theorem latch_len (w : Word) : (s.latch w).len = s.len := by rfl
@[simp] theorem latch_pre (w : Word) : (s.latch w).pre = s.pre := by rfl
@[simp] theorem latch_cnt (w : Word) : (s.latch w).cnt = s.cnt := by rfl
@[simp] theorem latch_i (w : Word) : (s.latch w).i = s.i := by rfl
@[simp] theorem latch_j (w : Word) : (s.latch w).j = s.j := by rfl
@[simp] theorem latch_failCode (w : Word) : (s.latch w).failCode = s.failCode := by rfl
@[simp] theorem latch_fromHook (w : Word) : (s.latch w).fromHook = decide (s.mode = .hook) := by rfl
@[simp] theorem latch_hint (w : Word) : (s.latch w).hint = s.hint := by rfl
@[simp] theorem latch_din (w : Word) : (s.latch w).din = s.din := by rfl
@[simp] theorem latch_dout (w : Word) : (s.latch w).dout = s.dout := by rfl
@[simp] theorem latch_tapCtl (w : Word) : (s.latch w).tapCtl = s.tapCtl := by rfl
@[simp] theorem latch_env (w : Word) : (s.latch w).env = s.env := by rfl
@[simp] theorem latch_trace (w : Word) : (s.latch w).trace = s.trace := by rfl

@[simp] theorem completeRequest_params (q : TapReq) : (s.completeRequest q).params = s.params := by rfl
@[simp] theorem completeRequest_cmdLast (q : TapReq) : (s.completeRequest q).cmdLast = s.cmdLast := by rfl
@[simp] theorem completeRequest_arg (q : TapReq) : (s.completeRequest q).arg = s.arg := by rfl
@[simp] theorem completeRequest_result (q : TapReq) : (s.completeRequest q).result = s.result := by rfl
@[simp] theorem completeRequest_table (q : TapReq) : (s.completeRequest q).table = s.table := by rfl
@[simp] theorem completeRequest_deviceCount (q : TapReq) : (s.completeRequest q).deviceCount = s.deviceCount := by rfl
@[simp] theorem completeRequest_phase (q : TapReq) : (s.completeRequest q).phase = s.phase := by rfl
@[simp] theorem completeRequest_tapReady (q : TapReq) : (s.completeRequest q).tapReady = s.tapReady := by rfl
@[simp] theorem completeRequest_hookActive (q : TapReq) : (s.completeRequest q).hookActive = s.hookActive := by rfl
@[simp] theorem completeRequest_hookDev (q : TapReq) : (s.completeRequest q).hookDev = s.hookDev := by rfl
@[simp] theorem completeRequest_hookDesc (q : TapReq) : (s.completeRequest q).hookDesc = s.hookDesc := by rfl
@[simp] theorem completeRequest_warnIr0 (q : TapReq) : (s.completeRequest q).warnIr0 = s.warnIr0 := by rfl
@[simp] theorem completeRequest_drop (q : TapReq) : (s.completeRequest q).drop = s.drop := by rfl
@[simp] theorem completeRequest_err (q : TapReq) : (s.completeRequest q).err = s.err := by rfl
@[simp] theorem completeRequest_oplCmd (q : TapReq) : (s.completeRequest q).oplCmd = s.oplCmd := by rfl
@[simp] theorem completeRequest_oplArg (q : TapReq) : (s.completeRequest q).oplArg = s.oplArg := by rfl
@[simp] theorem completeRequest_n (q : TapReq) : (s.completeRequest q).n = s.n := by rfl
@[simp] theorem completeRequest_k (q : TapReq) : (s.completeRequest q).k = s.k := by rfl
@[simp] theorem completeRequest_dev (q : TapReq) : (s.completeRequest q).dev = s.dev := by rfl
@[simp] theorem completeRequest_len (q : TapReq) : (s.completeRequest q).len = s.len := by rfl
@[simp] theorem completeRequest_pre (q : TapReq) : (s.completeRequest q).pre = s.pre := by rfl
@[simp] theorem completeRequest_cnt (q : TapReq) : (s.completeRequest q).cnt = s.cnt := by rfl
@[simp] theorem completeRequest_i (q : TapReq) : (s.completeRequest q).i = s.i := by rfl
@[simp] theorem completeRequest_j (q : TapReq) : (s.completeRequest q).j = s.j := by rfl
@[simp] theorem completeRequest_failCode (q : TapReq) : (s.completeRequest q).failCode = s.failCode := by rfl
@[simp] theorem completeRequest_fromHook (q : TapReq) : (s.completeRequest q).fromHook = s.fromHook := by rfl
@[simp] theorem completeRequest_hint (q : TapReq) : (s.completeRequest q).hint = s.hint := by rfl
@[simp] theorem completeRequest_din (q : TapReq) : (s.completeRequest q).din = s.din := by rfl
@[simp] theorem completeRequest_dout (q : TapReq) : (s.completeRequest q).dout = s.dout := by rfl
@[simp] theorem completeRequest_tapCtl (q : TapReq) : (s.completeRequest q).tapCtl = contract q s.tapCtl := by rfl
@[simp] theorem completeRequest_env (q : TapReq) : (s.completeRequest q).env = s.env := by rfl
@[simp] theorem completeRequest_trace (q : TapReq) : (s.completeRequest q).trace = .tap q :: s.trace := by rfl

@[simp] theorem endHook_params : s.endHook.params = s.params := by rfl
@[simp] theorem endHook_cmdLast : s.endHook.cmdLast = s.cmdLast := by rfl
@[simp] theorem endHook_arg : s.endHook.arg = s.arg := by rfl
@[simp] theorem endHook_result : s.endHook.result = s.result := by rfl
@[simp] theorem endHook_table : s.endHook.table = s.table := by rfl
@[simp] theorem endHook_deviceCount : s.endHook.deviceCount = s.deviceCount := by rfl
@[simp] theorem endHook_phase : s.endHook.phase = .scClassify := by rfl
@[simp] theorem endHook_tapReady : s.endHook.tapReady = s.tapReady := by rfl
@[simp] theorem endHook_hookActive : s.endHook.hookActive = false := by rfl
@[simp] theorem endHook_hookDev : s.endHook.hookDev = 0#8 := by rfl
@[simp] theorem endHook_hookDesc : s.endHook.hookDesc = 0#8 := by rfl
@[simp] theorem endHook_warnIr0 : s.endHook.warnIr0 = s.warnIr0 := by rfl
@[simp] theorem endHook_drop : s.endHook.drop = s.drop := by rfl
@[simp] theorem endHook_err : s.endHook.err = s.err := by rfl
@[simp] theorem endHook_oplCmd : s.endHook.oplCmd = s.oplCmd := by rfl
@[simp] theorem endHook_oplArg : s.endHook.oplArg = s.oplArg := by rfl
@[simp] theorem endHook_n : s.endHook.n = s.n := by rfl
@[simp] theorem endHook_k : s.endHook.k = s.k := by rfl
@[simp] theorem endHook_dev : s.endHook.dev = s.dev := by rfl
@[simp] theorem endHook_len : s.endHook.len = s.len := by rfl
@[simp] theorem endHook_pre : s.endHook.pre = s.pre := by rfl
@[simp] theorem endHook_cnt : s.endHook.cnt = s.cnt := by rfl
@[simp] theorem endHook_i : s.endHook.i = s.i := by rfl
@[simp] theorem endHook_j : s.endHook.j = s.j + 1#9 := by rfl
@[simp] theorem endHook_failCode : s.endHook.failCode = s.failCode := by rfl
@[simp] theorem endHook_fromHook : s.endHook.fromHook = s.fromHook := by rfl
@[simp] theorem endHook_hint : s.endHook.hint = s.hint := by rfl
@[simp] theorem endHook_din : s.endHook.din = s.din := by rfl
@[simp] theorem endHook_dout : s.endHook.dout = s.dout := by rfl
@[simp] theorem endHook_tapCtl : s.endHook.tapCtl = s.tapCtl := by rfl
@[simp] theorem endHook_env : s.endHook.env = s.env := by rfl
@[simp] theorem endHook_trace : s.endHook.trace = s.trace := by rfl

@[simp] theorem fillCache_params (idx : Nat) (v : Word) : (s.fillCache idx v).params = s.params := by rfl
@[simp] theorem fillCache_cmdLast (idx : Nat) (v : Word) : (s.fillCache idx v).cmdLast = s.cmdLast := by rfl
@[simp] theorem fillCache_arg (idx : Nat) (v : Word) : (s.fillCache idx v).arg = s.arg := by rfl
@[simp] theorem fillCache_result (idx : Nat) (v : Word) : (s.fillCache idx v).result = s.result := by rfl
@[simp] theorem fillCache_table (idx : Nat) (v : Word) :
    (s.fillCache idx v).table = (s.table.map DevRec.forget).modify idx (fun r => { r with currentIr := v, curKnown := true }) := by rfl
@[simp] theorem fillCache_deviceCount (idx : Nat) (v : Word) : (s.fillCache idx v).deviceCount = s.deviceCount := by rfl
@[simp] theorem fillCache_phase (idx : Nat) (v : Word) : (s.fillCache idx v).phase = s.phase := by rfl
@[simp] theorem fillCache_tapReady (idx : Nat) (v : Word) : (s.fillCache idx v).tapReady = s.tapReady := by rfl
@[simp] theorem fillCache_hookActive (idx : Nat) (v : Word) : (s.fillCache idx v).hookActive = s.hookActive := by rfl
@[simp] theorem fillCache_hookDev (idx : Nat) (v : Word) : (s.fillCache idx v).hookDev = s.hookDev := by rfl
@[simp] theorem fillCache_hookDesc (idx : Nat) (v : Word) : (s.fillCache idx v).hookDesc = s.hookDesc := by rfl
@[simp] theorem fillCache_warnIr0 (idx : Nat) (v : Word) : (s.fillCache idx v).warnIr0 = s.warnIr0 := by rfl
@[simp] theorem fillCache_drop (idx : Nat) (v : Word) : (s.fillCache idx v).drop = s.drop := by rfl
@[simp] theorem fillCache_err (idx : Nat) (v : Word) : (s.fillCache idx v).err = s.err := by rfl
@[simp] theorem fillCache_oplCmd (idx : Nat) (v : Word) : (s.fillCache idx v).oplCmd = s.oplCmd := by rfl
@[simp] theorem fillCache_oplArg (idx : Nat) (v : Word) : (s.fillCache idx v).oplArg = s.oplArg := by rfl
@[simp] theorem fillCache_n (idx : Nat) (v : Word) : (s.fillCache idx v).n = s.n := by rfl
@[simp] theorem fillCache_k (idx : Nat) (v : Word) : (s.fillCache idx v).k = s.k := by rfl
@[simp] theorem fillCache_dev (idx : Nat) (v : Word) : (s.fillCache idx v).dev = s.dev := by rfl
@[simp] theorem fillCache_len (idx : Nat) (v : Word) : (s.fillCache idx v).len = s.len := by rfl
@[simp] theorem fillCache_pre (idx : Nat) (v : Word) : (s.fillCache idx v).pre = s.pre := by rfl
@[simp] theorem fillCache_cnt (idx : Nat) (v : Word) : (s.fillCache idx v).cnt = s.cnt := by rfl
@[simp] theorem fillCache_i (idx : Nat) (v : Word) : (s.fillCache idx v).i = s.i := by rfl
@[simp] theorem fillCache_j (idx : Nat) (v : Word) : (s.fillCache idx v).j = s.j := by rfl
@[simp] theorem fillCache_failCode (idx : Nat) (v : Word) : (s.fillCache idx v).failCode = s.failCode := by rfl
@[simp] theorem fillCache_fromHook (idx : Nat) (v : Word) : (s.fillCache idx v).fromHook = s.fromHook := by rfl
@[simp] theorem fillCache_hint (idx : Nat) (v : Word) : (s.fillCache idx v).hint = s.hint := by rfl
@[simp] theorem fillCache_din (idx : Nat) (v : Word) : (s.fillCache idx v).din = s.din := by rfl
@[simp] theorem fillCache_dout (idx : Nat) (v : Word) : (s.fillCache idx v).dout = s.dout := by rfl
@[simp] theorem fillCache_tapCtl (idx : Nat) (v : Word) : (s.fillCache idx v).tapCtl = s.tapCtl := by rfl
@[simp] theorem fillCache_env (idx : Nat) (v : Word) : (s.fillCache idx v).env = s.env := by rfl
@[simp] theorem fillCache_trace (idx : Nat) (v : Word) : (s.fillCache idx v).trace = s.trace := by rfl

@[simp] theorem recordHint_params (h : Byte) (resp : TapResp) : (s.recordHint h resp).params = s.params := by rfl
@[simp] theorem recordHint_cmdLast (h : Byte) (resp : TapResp) : (s.recordHint h resp).cmdLast = s.cmdLast := by rfl
@[simp] theorem recordHint_arg (h : Byte) (resp : TapResp) : (s.recordHint h resp).arg = s.arg := by rfl
@[simp] theorem recordHint_result (h : Byte) (resp : TapResp) : (s.recordHint h resp).result = s.result := by rfl
@[simp] theorem recordHint_table (h : Byte) (resp : TapResp) :
    (s.recordHint h resp).table = s.table.modify s.k.toNat (fun r => { r with irLength := h, irPrescan := s.pre }) := by rfl
@[simp] theorem recordHint_deviceCount (h : Byte) (resp : TapResp) : (s.recordHint h resp).deviceCount = s.deviceCount := by rfl
@[simp] theorem recordHint_phase (h : Byte) (resp : TapResp) : (s.recordHint h resp).phase = s.phase := by rfl
@[simp] theorem recordHint_tapReady (h : Byte) (resp : TapResp) : (s.recordHint h resp).tapReady = s.tapReady := by rfl
@[simp] theorem recordHint_hookActive (h : Byte) (resp : TapResp) : (s.recordHint h resp).hookActive = s.hookActive := by rfl
@[simp] theorem recordHint_hookDev (h : Byte) (resp : TapResp) : (s.recordHint h resp).hookDev = s.hookDev := by rfl
@[simp] theorem recordHint_hookDesc (h : Byte) (resp : TapResp) : (s.recordHint h resp).hookDesc = s.hookDesc := by rfl
@[simp] theorem recordHint_warnIr0 (h : Byte) (resp : TapResp) :
    (s.recordHint h resp).warnIr0 = if resp.tdo.getLsbD 0 then s.warnIr0 else true := by rfl
@[simp] theorem recordHint_drop (h : Byte) (resp : TapResp) : (s.recordHint h resp).drop = s.drop := by rfl
@[simp] theorem recordHint_err (h : Byte) (resp : TapResp) : (s.recordHint h resp).err = s.err := by rfl
@[simp] theorem recordHint_oplCmd (h : Byte) (resp : TapResp) : (s.recordHint h resp).oplCmd = s.oplCmd := by rfl
@[simp] theorem recordHint_oplArg (h : Byte) (resp : TapResp) : (s.recordHint h resp).oplArg = s.oplArg := by rfl
@[simp] theorem recordHint_n (h : Byte) (resp : TapResp) : (s.recordHint h resp).n = s.n := by rfl
@[simp] theorem recordHint_k (h : Byte) (resp : TapResp) : (s.recordHint h resp).k = s.k + 1#9 := by rfl
@[simp] theorem recordHint_dev (h : Byte) (resp : TapResp) : (s.recordHint h resp).dev = s.dev := by rfl
@[simp] theorem recordHint_len (h : Byte) (resp : TapResp) : (s.recordHint h resp).len = s.len := by rfl
@[simp] theorem recordHint_pre (h : Byte) (resp : TapResp) : (s.recordHint h resp).pre = s.pre + h.setWidth 16 := by rfl
@[simp] theorem recordHint_cnt (h : Byte) (resp : TapResp) : (s.recordHint h resp).cnt = s.cnt := by rfl
@[simp] theorem recordHint_i (h : Byte) (resp : TapResp) : (s.recordHint h resp).i = s.i := by rfl
@[simp] theorem recordHint_j (h : Byte) (resp : TapResp) : (s.recordHint h resp).j = s.j := by rfl
@[simp] theorem recordHint_failCode (h : Byte) (resp : TapResp) : (s.recordHint h resp).failCode = s.failCode := by rfl
@[simp] theorem recordHint_fromHook (h : Byte) (resp : TapResp) : (s.recordHint h resp).fromHook = s.fromHook := by rfl
@[simp] theorem recordHint_hint (h : Byte) (resp : TapResp) : (s.recordHint h resp).hint = s.hint := by rfl
@[simp] theorem recordHint_din (h : Byte) (resp : TapResp) : (s.recordHint h resp).din = s.din := by rfl
@[simp] theorem recordHint_dout (h : Byte) (resp : TapResp) : (s.recordHint h resp).dout = s.dout := by rfl
@[simp] theorem recordHint_tapCtl (h : Byte) (resp : TapResp) : (s.recordHint h resp).tapCtl = s.tapCtl := by rfl
@[simp] theorem recordHint_env (h : Byte) (resp : TapResp) : (s.recordHint h resp).env = s.env := by rfl
@[simp] theorem recordHint_trace (h : Byte) (resp : TapResp) : (s.recordHint h resp).trace = s.trace := by rfl

@[simp] theorem recordDr_params : s.recordDr.params = s.params := by rfl
@[simp] theorem recordDr_cmdLast : s.recordDr.cmdLast = s.cmdLast := by rfl
@[simp] theorem recordDr_arg : s.recordDr.arg = s.arg := by rfl
@[simp] theorem recordDr_result : s.recordDr.result = s.result := by rfl
@[simp] theorem recordDr_table :
    s.recordDr.table = s.table.modify s.i.toNat (fun r => { r with drPrescan := s.i.setWidth 8, drPostscan := (s.cnt - s.i - 1#9).setWidth 8 }) := by rfl
@[simp] theorem recordDr_deviceCount : s.recordDr.deviceCount = s.deviceCount := by rfl
@[simp] theorem recordDr_phase : s.recordDr.phase = s.phase := by rfl
@[simp] theorem recordDr_tapReady : s.recordDr.tapReady = s.tapReady := by rfl
@[simp] theorem recordDr_hookActive : s.recordDr.hookActive = s.hookActive := by rfl
@[simp] theorem recordDr_hookDev : s.recordDr.hookDev = s.hookDev := by rfl
@[simp] theorem recordDr_hookDesc : s.recordDr.hookDesc = s.hookDesc := by rfl
@[simp] theorem recordDr_warnIr0 : s.recordDr.warnIr0 = s.warnIr0 := by rfl
@[simp] theorem recordDr_drop : s.recordDr.drop = s.drop := by rfl
@[simp] theorem recordDr_err : s.recordDr.err = s.err := by rfl
@[simp] theorem recordDr_oplCmd : s.recordDr.oplCmd = s.oplCmd := by rfl
@[simp] theorem recordDr_oplArg : s.recordDr.oplArg = s.oplArg := by rfl
@[simp] theorem recordDr_n : s.recordDr.n = s.n := by rfl
@[simp] theorem recordDr_k : s.recordDr.k = s.k := by rfl
@[simp] theorem recordDr_dev : s.recordDr.dev = s.dev := by rfl
@[simp] theorem recordDr_len : s.recordDr.len = s.len := by rfl
@[simp] theorem recordDr_pre : s.recordDr.pre = s.pre := by rfl
@[simp] theorem recordDr_cnt : s.recordDr.cnt = s.cnt := by rfl
@[simp] theorem recordDr_i : s.recordDr.i = s.i + 1#9 := by rfl
@[simp] theorem recordDr_j : s.recordDr.j = s.j := by rfl
@[simp] theorem recordDr_failCode : s.recordDr.failCode = s.failCode := by rfl
@[simp] theorem recordDr_fromHook : s.recordDr.fromHook = s.fromHook := by rfl
@[simp] theorem recordDr_hint : s.recordDr.hint = s.hint := by rfl
@[simp] theorem recordDr_din : s.recordDr.din = s.din := by rfl
@[simp] theorem recordDr_dout : s.recordDr.dout = s.dout := by rfl
@[simp] theorem recordDr_tapCtl : s.recordDr.tapCtl = s.tapCtl := by rfl
@[simp] theorem recordDr_env : s.recordDr.env = s.env := by rfl
@[simp] theorem recordDr_trace : s.recordDr.trace = s.trace := by rfl

@[simp] theorem invokeHook_params (d : Nat) : (s.invokeHook d).params = s.params := by rfl
@[simp] theorem invokeHook_cmdLast (d : Nat) : (s.invokeHook d).cmdLast = s.cmdLast := by rfl
@[simp] theorem invokeHook_arg (d : Nat) : (s.invokeHook d).arg = s.arg := by rfl
@[simp] theorem invokeHook_result (d : Nat) : (s.invokeHook d).result = s.result := by rfl
@[simp] theorem invokeHook_table (d : Nat) :
    (s.invokeHook d).table = s.table.modify s.j.toNat (fun r => { r with curKnown := false, descValid := true, descIdx := BitVec.ofNat 8 d }) := by rfl
@[simp] theorem invokeHook_deviceCount (d : Nat) : (s.invokeHook d).deviceCount = s.deviceCount := by rfl
@[simp] theorem invokeHook_phase (d : Nat) : (s.invokeHook d).phase = .hookWait := by rfl
@[simp] theorem invokeHook_tapReady (d : Nat) : (s.invokeHook d).tapReady = s.tapReady := by rfl
@[simp] theorem invokeHook_hookActive (d : Nat) : (s.invokeHook d).hookActive = true := by rfl
@[simp] theorem invokeHook_hookDev (d : Nat) : (s.invokeHook d).hookDev = s.j.setWidth 8 := by rfl
@[simp] theorem invokeHook_hookDesc (d : Nat) : (s.invokeHook d).hookDesc = BitVec.ofNat 8 d := by rfl
@[simp] theorem invokeHook_warnIr0 (d : Nat) : (s.invokeHook d).warnIr0 = s.warnIr0 := by rfl
@[simp] theorem invokeHook_drop (d : Nat) : (s.invokeHook d).drop = s.drop := by rfl
@[simp] theorem invokeHook_err (d : Nat) : (s.invokeHook d).err = s.err := by rfl
@[simp] theorem invokeHook_oplCmd (d : Nat) : (s.invokeHook d).oplCmd = s.oplCmd := by rfl
@[simp] theorem invokeHook_oplArg (d : Nat) : (s.invokeHook d).oplArg = s.oplArg := by rfl
@[simp] theorem invokeHook_n (d : Nat) : (s.invokeHook d).n = s.n := by rfl
@[simp] theorem invokeHook_k (d : Nat) : (s.invokeHook d).k = s.k := by rfl
@[simp] theorem invokeHook_dev (d : Nat) : (s.invokeHook d).dev = s.dev := by rfl
@[simp] theorem invokeHook_len (d : Nat) : (s.invokeHook d).len = s.len := by rfl
@[simp] theorem invokeHook_pre (d : Nat) : (s.invokeHook d).pre = s.pre := by rfl
@[simp] theorem invokeHook_cnt (d : Nat) : (s.invokeHook d).cnt = s.cnt := by rfl
@[simp] theorem invokeHook_i (d : Nat) : (s.invokeHook d).i = s.i := by rfl
@[simp] theorem invokeHook_j (d : Nat) : (s.invokeHook d).j = s.j := by rfl
@[simp] theorem invokeHook_failCode (d : Nat) : (s.invokeHook d).failCode = s.failCode := by rfl
@[simp] theorem invokeHook_fromHook (d : Nat) : (s.invokeHook d).fromHook = s.fromHook := by rfl
@[simp] theorem invokeHook_hint (d : Nat) : (s.invokeHook d).hint = s.hint := by rfl
@[simp] theorem invokeHook_din (d : Nat) : (s.invokeHook d).din = s.din := by rfl
@[simp] theorem invokeHook_dout (d : Nat) : (s.invokeHook d).dout = s.dout := by rfl
@[simp] theorem invokeHook_tapCtl (d : Nat) : (s.invokeHook d).tapCtl = s.tapCtl := by rfl
@[simp] theorem invokeHook_env (d : Nat) : (s.invokeHook d).env = s.env := by rfl
@[simp] theorem invokeHook_trace (d : Nat) : (s.invokeHook d).trace = .hookReq (s.j.setWidth 8) (BitVec.ofNat 8 d) :: s.trace := by rfl

@[simp] theorem withEnv_params (rest : List Move) : (s.withEnv rest).params = s.params := by rfl
@[simp] theorem withEnv_cmdLast (rest : List Move) : (s.withEnv rest).cmdLast = s.cmdLast := by rfl
@[simp] theorem withEnv_arg (rest : List Move) : (s.withEnv rest).arg = s.arg := by rfl
@[simp] theorem withEnv_result (rest : List Move) : (s.withEnv rest).result = s.result := by rfl
@[simp] theorem withEnv_table (rest : List Move) : (s.withEnv rest).table = s.table := by rfl
@[simp] theorem withEnv_deviceCount (rest : List Move) : (s.withEnv rest).deviceCount = s.deviceCount := by rfl
@[simp] theorem withEnv_phase (rest : List Move) : (s.withEnv rest).phase = s.phase := by rfl
@[simp] theorem withEnv_tapReady (rest : List Move) : (s.withEnv rest).tapReady = s.tapReady := by rfl
@[simp] theorem withEnv_hookActive (rest : List Move) : (s.withEnv rest).hookActive = s.hookActive := by rfl
@[simp] theorem withEnv_hookDev (rest : List Move) : (s.withEnv rest).hookDev = s.hookDev := by rfl
@[simp] theorem withEnv_hookDesc (rest : List Move) : (s.withEnv rest).hookDesc = s.hookDesc := by rfl
@[simp] theorem withEnv_warnIr0 (rest : List Move) : (s.withEnv rest).warnIr0 = s.warnIr0 := by rfl
@[simp] theorem withEnv_drop (rest : List Move) : (s.withEnv rest).drop = s.drop := by rfl
@[simp] theorem withEnv_err (rest : List Move) : (s.withEnv rest).err = s.err := by rfl
@[simp] theorem withEnv_oplCmd (rest : List Move) : (s.withEnv rest).oplCmd = s.oplCmd := by rfl
@[simp] theorem withEnv_oplArg (rest : List Move) : (s.withEnv rest).oplArg = s.oplArg := by rfl
@[simp] theorem withEnv_n (rest : List Move) : (s.withEnv rest).n = s.n := by rfl
@[simp] theorem withEnv_k (rest : List Move) : (s.withEnv rest).k = s.k := by rfl
@[simp] theorem withEnv_dev (rest : List Move) : (s.withEnv rest).dev = s.dev := by rfl
@[simp] theorem withEnv_len (rest : List Move) : (s.withEnv rest).len = s.len := by rfl
@[simp] theorem withEnv_pre (rest : List Move) : (s.withEnv rest).pre = s.pre := by rfl
@[simp] theorem withEnv_cnt (rest : List Move) : (s.withEnv rest).cnt = s.cnt := by rfl
@[simp] theorem withEnv_i (rest : List Move) : (s.withEnv rest).i = s.i := by rfl
@[simp] theorem withEnv_j (rest : List Move) : (s.withEnv rest).j = s.j := by rfl
@[simp] theorem withEnv_failCode (rest : List Move) : (s.withEnv rest).failCode = s.failCode := by rfl
@[simp] theorem withEnv_fromHook (rest : List Move) : (s.withEnv rest).fromHook = s.fromHook := by rfl
@[simp] theorem withEnv_hint (rest : List Move) : (s.withEnv rest).hint = s.hint := by rfl
@[simp] theorem withEnv_din (rest : List Move) : (s.withEnv rest).din = s.din := by rfl
@[simp] theorem withEnv_dout (rest : List Move) : (s.withEnv rest).dout = s.dout := by rfl
@[simp] theorem withEnv_tapCtl (rest : List Move) : (s.withEnv rest).tapCtl = s.tapCtl := by rfl
@[simp] theorem withEnv_env (rest : List Move) : (s.withEnv rest).env = rest := by rfl
@[simp] theorem withEnv_trace (rest : List Move) : (s.withEnv rest).trace = s.trace := by rfl

@[simp] theorem recordIdcode_params (v : Word) : (s.recordIdcode v).params = s.params := by rfl
@[simp] theorem recordIdcode_cmdLast (v : Word) : (s.recordIdcode v).cmdLast = s.cmdLast := by rfl
@[simp] theorem recordIdcode_arg (v : Word) : (s.recordIdcode v).arg = s.arg := by rfl
@[simp] theorem recordIdcode_result (v : Word) : (s.recordIdcode v).result = s.result := by rfl
@[simp] theorem recordIdcode_table (v : Word) :
    (s.recordIdcode v).table = s.table.modify s.n.toNat (fun r => { r with idcode := v }) := by rfl
@[simp] theorem recordIdcode_deviceCount (v : Word) : (s.recordIdcode v).deviceCount = s.deviceCount := by rfl
@[simp] theorem recordIdcode_phase (v : Word) : (s.recordIdcode v).phase = s.phase := by rfl
@[simp] theorem recordIdcode_tapReady (v : Word) : (s.recordIdcode v).tapReady = s.tapReady := by rfl
@[simp] theorem recordIdcode_hookActive (v : Word) : (s.recordIdcode v).hookActive = s.hookActive := by rfl
@[simp] theorem recordIdcode_hookDev (v : Word) : (s.recordIdcode v).hookDev = s.hookDev := by rfl
@[simp] theorem recordIdcode_hookDesc (v : Word) : (s.recordIdcode v).hookDesc = s.hookDesc := by rfl
@[simp] theorem recordIdcode_warnIr0 (v : Word) : (s.recordIdcode v).warnIr0 = s.warnIr0 := by rfl
@[simp] theorem recordIdcode_drop (v : Word) : (s.recordIdcode v).drop = s.drop := by rfl
@[simp] theorem recordIdcode_err (v : Word) : (s.recordIdcode v).err = s.err := by rfl
@[simp] theorem recordIdcode_oplCmd (v : Word) : (s.recordIdcode v).oplCmd = s.oplCmd := by rfl
@[simp] theorem recordIdcode_oplArg (v : Word) : (s.recordIdcode v).oplArg = s.oplArg := by rfl
@[simp] theorem recordIdcode_n (v : Word) : (s.recordIdcode v).n = s.n + 1#9 := by rfl
@[simp] theorem recordIdcode_k (v : Word) : (s.recordIdcode v).k = s.k := by rfl
@[simp] theorem recordIdcode_dev (v : Word) : (s.recordIdcode v).dev = s.dev := by rfl
@[simp] theorem recordIdcode_len (v : Word) : (s.recordIdcode v).len = s.len := by rfl
@[simp] theorem recordIdcode_pre (v : Word) : (s.recordIdcode v).pre = s.pre := by rfl
@[simp] theorem recordIdcode_cnt (v : Word) : (s.recordIdcode v).cnt = s.cnt := by rfl
@[simp] theorem recordIdcode_i (v : Word) : (s.recordIdcode v).i = s.i := by rfl
@[simp] theorem recordIdcode_j (v : Word) : (s.recordIdcode v).j = s.j := by rfl
@[simp] theorem recordIdcode_failCode (v : Word) : (s.recordIdcode v).failCode = s.failCode := by rfl
@[simp] theorem recordIdcode_fromHook (v : Word) : (s.recordIdcode v).fromHook = s.fromHook := by rfl
@[simp] theorem recordIdcode_hint (v : Word) : (s.recordIdcode v).hint = s.hint := by rfl
@[simp] theorem recordIdcode_din (v : Word) : (s.recordIdcode v).din = s.din := by rfl
@[simp] theorem recordIdcode_dout (v : Word) : (s.recordIdcode v).dout = s.dout := by rfl
@[simp] theorem recordIdcode_tapCtl (v : Word) : (s.recordIdcode v).tapCtl = s.tapCtl := by rfl
@[simp] theorem recordIdcode_env (v : Word) : (s.recordIdcode v).env = s.env := by rfl
@[simp] theorem recordIdcode_trace (v : Word) : (s.recordIdcode v).trace = s.trace := by rfl

@[simp] theorem endIr_params (c : BitVec 9) : (s.endIr c).params = s.params := by rfl
@[simp] theorem endIr_cmdLast (c : BitVec 9) : (s.endIr c).cmdLast = s.cmdLast := by rfl
@[simp] theorem endIr_arg (c : BitVec 9) : (s.endIr c).arg = s.arg := by rfl
@[simp] theorem endIr_result (c : BitVec 9) : (s.endIr c).result = s.result := by rfl
@[simp] theorem endIr_table (c : BitVec 9) : (s.endIr c).table = s.table := by rfl
@[simp] theorem endIr_deviceCount (c : BitVec 9) : (s.endIr c).deviceCount = s.deviceCount := by rfl
@[simp] theorem endIr_phase (c : BitVec 9) : (s.endIr c).phase = .irExit := by rfl
@[simp] theorem endIr_tapReady (c : BitVec 9) : (s.endIr c).tapReady = s.tapReady := by rfl
@[simp] theorem endIr_hookActive (c : BitVec 9) : (s.endIr c).hookActive = s.hookActive := by rfl
@[simp] theorem endIr_hookDev (c : BitVec 9) : (s.endIr c).hookDev = s.hookDev := by rfl
@[simp] theorem endIr_hookDesc (c : BitVec 9) : (s.endIr c).hookDesc = s.hookDesc := by rfl
@[simp] theorem endIr_warnIr0 (c : BitVec 9) : (s.endIr c).warnIr0 = s.warnIr0 := by rfl
@[simp] theorem endIr_drop (c : BitVec 9) : (s.endIr c).drop = s.drop := by rfl
@[simp] theorem endIr_err (c : BitVec 9) : (s.endIr c).err = s.err := by rfl
@[simp] theorem endIr_oplCmd (c : BitVec 9) : (s.endIr c).oplCmd = s.oplCmd := by rfl
@[simp] theorem endIr_oplArg (c : BitVec 9) : (s.endIr c).oplArg = s.oplArg := by rfl
@[simp] theorem endIr_n (c : BitVec 9) : (s.endIr c).n = s.n := by rfl
@[simp] theorem endIr_k (c : BitVec 9) : (s.endIr c).k = s.k := by rfl
@[simp] theorem endIr_dev (c : BitVec 9) : (s.endIr c).dev = s.dev := by rfl
@[simp] theorem endIr_len (c : BitVec 9) : (s.endIr c).len = s.len := by rfl
@[simp] theorem endIr_pre (c : BitVec 9) : (s.endIr c).pre = s.pre := by rfl
@[simp] theorem endIr_cnt (c : BitVec 9) : (s.endIr c).cnt = c := by rfl
@[simp] theorem endIr_i (c : BitVec 9) : (s.endIr c).i = s.i := by rfl
@[simp] theorem endIr_j (c : BitVec 9) : (s.endIr c).j = s.j := by rfl
@[simp] theorem endIr_failCode (c : BitVec 9) : (s.endIr c).failCode = s.failCode := by rfl
@[simp] theorem endIr_fromHook (c : BitVec 9) : (s.endIr c).fromHook = s.fromHook := by rfl
@[simp] theorem endIr_hint (c : BitVec 9) : (s.endIr c).hint = s.hint := by rfl
@[simp] theorem endIr_din (c : BitVec 9) : (s.endIr c).din = s.din := by rfl
@[simp] theorem endIr_dout (c : BitVec 9) : (s.endIr c).dout = s.dout := by rfl
@[simp] theorem endIr_tapCtl (c : BitVec 9) : (s.endIr c).tapCtl = s.tapCtl := by rfl
@[simp] theorem endIr_env (c : BitVec 9) : (s.endIr c).env = s.env := by rfl
@[simp] theorem endIr_trace (c : BitVec 9) : (s.endIr c).trace = s.trace := by rfl

@[simp] theorem startHints_params : s.startHints.params = s.params := by rfl
@[simp] theorem startHints_cmdLast : s.startHints.cmdLast = s.cmdLast := by rfl
@[simp] theorem startHints_arg : s.startHints.arg = s.arg := by rfl
@[simp] theorem startHints_result : s.startHints.result = s.result := by rfl
@[simp] theorem startHints_table : s.startHints.table = s.table := by rfl
@[simp] theorem startHints_deviceCount : s.startHints.deviceCount = s.deviceCount := by rfl
@[simp] theorem startHints_phase : s.startHints.phase = s.phase := by rfl
@[simp] theorem startHints_tapReady : s.startHints.tapReady = s.tapReady := by rfl
@[simp] theorem startHints_hookActive : s.startHints.hookActive = s.hookActive := by rfl
@[simp] theorem startHints_hookDev : s.startHints.hookDev = s.hookDev := by rfl
@[simp] theorem startHints_hookDesc : s.startHints.hookDesc = s.hookDesc := by rfl
@[simp] theorem startHints_warnIr0 : s.startHints.warnIr0 = s.warnIr0 := by rfl
@[simp] theorem startHints_drop : s.startHints.drop = s.drop := by rfl
@[simp] theorem startHints_err : s.startHints.err = s.err := by rfl
@[simp] theorem startHints_oplCmd : s.startHints.oplCmd = s.oplCmd := by rfl
@[simp] theorem startHints_oplArg : s.startHints.oplArg = s.oplArg := by rfl
@[simp] theorem startHints_n : s.startHints.n = s.n := by rfl
@[simp] theorem startHints_k : s.startHints.k = 0#9 := by rfl
@[simp] theorem startHints_dev : s.startHints.dev = s.dev := by rfl
@[simp] theorem startHints_len : s.startHints.len = s.len := by rfl
@[simp] theorem startHints_pre : s.startHints.pre = 0#16 := by rfl
@[simp] theorem startHints_cnt : s.startHints.cnt = s.cnt := by rfl
@[simp] theorem startHints_i : s.startHints.i = s.i := by rfl
@[simp] theorem startHints_j : s.startHints.j = s.j := by rfl
@[simp] theorem startHints_failCode : s.startHints.failCode = s.failCode := by rfl
@[simp] theorem startHints_fromHook : s.startHints.fromHook = s.fromHook := by rfl
@[simp] theorem startHints_hint : s.startHints.hint = s.hint := by rfl
@[simp] theorem startHints_din : s.startHints.din = s.din := by rfl
@[simp] theorem startHints_dout : s.startHints.dout = s.dout := by rfl
@[simp] theorem startHints_tapCtl : s.startHints.tapCtl = s.tapCtl := by rfl
@[simp] theorem startHints_env : s.startHints.env = s.env := by rfl
@[simp] theorem startHints_trace : s.startHints.trace = s.trace := by rfl

@[simp] theorem recordProbe_params : s.recordProbe.params = s.params := by rfl
@[simp] theorem recordProbe_cmdLast : s.recordProbe.cmdLast = s.cmdLast := by rfl
@[simp] theorem recordProbe_arg : s.recordProbe.arg = s.arg := by rfl
@[simp] theorem recordProbe_result : s.recordProbe.result = s.result := by rfl
@[simp] theorem recordProbe_table :
    s.recordProbe.table = s.table.modify s.dev.toNat (fun r => { r with irLength := s.len, irPrescan := s.pre }) := by rfl
@[simp] theorem recordProbe_deviceCount : s.recordProbe.deviceCount = s.deviceCount := by rfl
@[simp] theorem recordProbe_phase : s.recordProbe.phase = s.phase := by rfl
@[simp] theorem recordProbe_tapReady : s.recordProbe.tapReady = s.tapReady := by rfl
@[simp] theorem recordProbe_hookActive : s.recordProbe.hookActive = s.hookActive := by rfl
@[simp] theorem recordProbe_hookDev : s.recordProbe.hookDev = s.hookDev := by rfl
@[simp] theorem recordProbe_hookDesc : s.recordProbe.hookDesc = s.hookDesc := by rfl
@[simp] theorem recordProbe_warnIr0 : s.recordProbe.warnIr0 = s.warnIr0 := by rfl
@[simp] theorem recordProbe_drop : s.recordProbe.drop = s.drop := by rfl
@[simp] theorem recordProbe_err : s.recordProbe.err = s.err := by rfl
@[simp] theorem recordProbe_oplCmd : s.recordProbe.oplCmd = s.oplCmd := by rfl
@[simp] theorem recordProbe_oplArg : s.recordProbe.oplArg = s.oplArg := by rfl
@[simp] theorem recordProbe_n : s.recordProbe.n = s.n := by rfl
@[simp] theorem recordProbe_k : s.recordProbe.k = s.k := by rfl
@[simp] theorem recordProbe_dev : s.recordProbe.dev = s.dev + 1#9 := by rfl
@[simp] theorem recordProbe_len : s.recordProbe.len = 1#8 := by rfl
@[simp] theorem recordProbe_pre : s.recordProbe.pre = s.pre + s.len.setWidth 16 := by rfl
@[simp] theorem recordProbe_cnt : s.recordProbe.cnt = s.cnt := by rfl
@[simp] theorem recordProbe_i : s.recordProbe.i = s.i := by rfl
@[simp] theorem recordProbe_j : s.recordProbe.j = s.j := by rfl
@[simp] theorem recordProbe_failCode : s.recordProbe.failCode = s.failCode := by rfl
@[simp] theorem recordProbe_fromHook : s.recordProbe.fromHook = s.fromHook := by rfl
@[simp] theorem recordProbe_hint : s.recordProbe.hint = s.hint := by rfl
@[simp] theorem recordProbe_din : s.recordProbe.din = s.din := by rfl
@[simp] theorem recordProbe_dout : s.recordProbe.dout = s.dout := by rfl
@[simp] theorem recordProbe_tapCtl : s.recordProbe.tapCtl = s.tapCtl := by rfl
@[simp] theorem recordProbe_env : s.recordProbe.env = s.env := by rfl
@[simp] theorem recordProbe_trace : s.recordProbe.trace = s.trace := by rfl

@[simp] theorem countIrBit_params : s.countIrBit.params = s.params := by rfl
@[simp] theorem countIrBit_cmdLast : s.countIrBit.cmdLast = s.cmdLast := by rfl
@[simp] theorem countIrBit_arg : s.countIrBit.arg = s.arg := by rfl
@[simp] theorem countIrBit_result : s.countIrBit.result = s.result := by rfl
@[simp] theorem countIrBit_table : s.countIrBit.table = s.table := by rfl
@[simp] theorem countIrBit_deviceCount : s.countIrBit.deviceCount = s.deviceCount := by rfl
@[simp] theorem countIrBit_phase : s.countIrBit.phase = s.phase := by rfl
@[simp] theorem countIrBit_tapReady : s.countIrBit.tapReady = s.tapReady := by rfl
@[simp] theorem countIrBit_hookActive : s.countIrBit.hookActive = s.hookActive := by rfl
@[simp] theorem countIrBit_hookDev : s.countIrBit.hookDev = s.hookDev := by rfl
@[simp] theorem countIrBit_hookDesc : s.countIrBit.hookDesc = s.hookDesc := by rfl
@[simp] theorem countIrBit_warnIr0 : s.countIrBit.warnIr0 = s.warnIr0 := by rfl
@[simp] theorem countIrBit_drop : s.countIrBit.drop = s.drop := by rfl
@[simp] theorem countIrBit_err : s.countIrBit.err = s.err := by rfl
@[simp] theorem countIrBit_oplCmd : s.countIrBit.oplCmd = s.oplCmd := by rfl
@[simp] theorem countIrBit_oplArg : s.countIrBit.oplArg = s.oplArg := by rfl
@[simp] theorem countIrBit_n : s.countIrBit.n = s.n := by rfl
@[simp] theorem countIrBit_k : s.countIrBit.k = s.k := by rfl
@[simp] theorem countIrBit_dev : s.countIrBit.dev = s.dev := by rfl
@[simp] theorem countIrBit_len : s.countIrBit.len = s.len + 1#8 := by rfl
@[simp] theorem countIrBit_pre : s.countIrBit.pre = s.pre := by rfl
@[simp] theorem countIrBit_cnt : s.countIrBit.cnt = s.cnt := by rfl
@[simp] theorem countIrBit_i : s.countIrBit.i = s.i := by rfl
@[simp] theorem countIrBit_j : s.countIrBit.j = s.j := by rfl
@[simp] theorem countIrBit_failCode : s.countIrBit.failCode = s.failCode := by rfl
@[simp] theorem countIrBit_fromHook : s.countIrBit.fromHook = s.fromHook := by rfl
@[simp] theorem countIrBit_hint : s.countIrBit.hint = s.hint := by rfl
@[simp] theorem countIrBit_din : s.countIrBit.din = s.din := by rfl
@[simp] theorem countIrBit_dout : s.countIrBit.dout = s.dout := by rfl
@[simp] theorem countIrBit_tapCtl : s.countIrBit.tapCtl = s.tapCtl := by rfl
@[simp] theorem countIrBit_env : s.countIrBit.env = s.env := by rfl
@[simp] theorem countIrBit_trace : s.countIrBit.trace = s.trace := by rfl

@[simp] theorem recordPostscan_params : s.recordPostscan.params = s.params := by rfl
@[simp] theorem recordPostscan_cmdLast : s.recordPostscan.cmdLast = s.cmdLast := by rfl
@[simp] theorem recordPostscan_arg : s.recordPostscan.arg = s.arg := by rfl
@[simp] theorem recordPostscan_result : s.recordPostscan.result = s.result := by rfl
@[simp] theorem recordPostscan_table : s.recordPostscan.table = backfill s.table (s.cnt.toNat - 1) := by rfl
@[simp] theorem recordPostscan_deviceCount : s.recordPostscan.deviceCount = s.deviceCount := by rfl
@[simp] theorem recordPostscan_phase : s.recordPostscan.phase = s.phase := by rfl
@[simp] theorem recordPostscan_tapReady : s.recordPostscan.tapReady = s.tapReady := by rfl
@[simp] theorem recordPostscan_hookActive : s.recordPostscan.hookActive = s.hookActive := by rfl
@[simp] theorem recordPostscan_hookDev : s.recordPostscan.hookDev = s.hookDev := by rfl
@[simp] theorem recordPostscan_hookDesc : s.recordPostscan.hookDesc = s.hookDesc := by rfl
@[simp] theorem recordPostscan_warnIr0 : s.recordPostscan.warnIr0 = s.warnIr0 := by rfl
@[simp] theorem recordPostscan_drop : s.recordPostscan.drop = s.drop := by rfl
@[simp] theorem recordPostscan_err : s.recordPostscan.err = s.err := by rfl
@[simp] theorem recordPostscan_oplCmd : s.recordPostscan.oplCmd = s.oplCmd := by rfl
@[simp] theorem recordPostscan_oplArg : s.recordPostscan.oplArg = s.oplArg := by rfl
@[simp] theorem recordPostscan_n : s.recordPostscan.n = s.n := by rfl
@[simp] theorem recordPostscan_k : s.recordPostscan.k = s.k := by rfl
@[simp] theorem recordPostscan_dev : s.recordPostscan.dev = s.dev := by rfl
@[simp] theorem recordPostscan_len : s.recordPostscan.len = s.len := by rfl
@[simp] theorem recordPostscan_pre : s.recordPostscan.pre = s.pre := by rfl
@[simp] theorem recordPostscan_cnt : s.recordPostscan.cnt = s.cnt := by rfl
@[simp] theorem recordPostscan_i : s.recordPostscan.i = s.i := by rfl
@[simp] theorem recordPostscan_j : s.recordPostscan.j = 0#9 := by rfl
@[simp] theorem recordPostscan_failCode : s.recordPostscan.failCode = s.failCode := by rfl
@[simp] theorem recordPostscan_fromHook : s.recordPostscan.fromHook = s.fromHook := by rfl
@[simp] theorem recordPostscan_hint : s.recordPostscan.hint = s.hint := by rfl
@[simp] theorem recordPostscan_din : s.recordPostscan.din = s.din := by rfl
@[simp] theorem recordPostscan_dout : s.recordPostscan.dout = s.dout := by rfl
@[simp] theorem recordPostscan_tapCtl : s.recordPostscan.tapCtl = s.tapCtl := by rfl
@[simp] theorem recordPostscan_env : s.recordPostscan.env = s.env := by rfl
@[simp] theorem recordPostscan_trace : s.recordPostscan.trace = s.trace := by rfl

@[simp] theorem nextDevice_params : s.nextDevice.params = s.params := by rfl
@[simp] theorem nextDevice_cmdLast : s.nextDevice.cmdLast = s.cmdLast := by rfl
@[simp] theorem nextDevice_arg : s.nextDevice.arg = s.arg := by rfl
@[simp] theorem nextDevice_result : s.nextDevice.result = s.result := by rfl
@[simp] theorem nextDevice_table : s.nextDevice.table = s.table := by rfl
@[simp] theorem nextDevice_deviceCount : s.nextDevice.deviceCount = s.deviceCount := by rfl
@[simp] theorem nextDevice_phase : s.nextDevice.phase = s.phase := by rfl
@[simp] theorem nextDevice_tapReady : s.nextDevice.tapReady = s.tapReady := by rfl
@[simp] theorem nextDevice_hookActive : s.nextDevice.hookActive = s.hookActive := by rfl
@[simp] theorem nextDevice_hookDev : s.nextDevice.hookDev = s.hookDev := by rfl
@[simp] theorem nextDevice_hookDesc : s.nextDevice.hookDesc = s.hookDesc := by rfl
@[simp] theorem nextDevice_warnIr0 : s.nextDevice.warnIr0 = s.warnIr0 := by rfl
@[simp] theorem nextDevice_drop : s.nextDevice.drop = s.drop := by rfl
@[simp] theorem nextDevice_err : s.nextDevice.err = s.err := by rfl
@[simp] theorem nextDevice_oplCmd : s.nextDevice.oplCmd = s.oplCmd := by rfl
@[simp] theorem nextDevice_oplArg : s.nextDevice.oplArg = s.oplArg := by rfl
@[simp] theorem nextDevice_n : s.nextDevice.n = s.n := by rfl
@[simp] theorem nextDevice_k : s.nextDevice.k = s.k := by rfl
@[simp] theorem nextDevice_dev : s.nextDevice.dev = s.dev := by rfl
@[simp] theorem nextDevice_len : s.nextDevice.len = s.len := by rfl
@[simp] theorem nextDevice_pre : s.nextDevice.pre = s.pre := by rfl
@[simp] theorem nextDevice_cnt : s.nextDevice.cnt = s.cnt := by rfl
@[simp] theorem nextDevice_i : s.nextDevice.i = s.i := by rfl
@[simp] theorem nextDevice_j : s.nextDevice.j = s.j + 1#9 := by rfl
@[simp] theorem nextDevice_failCode : s.nextDevice.failCode = s.failCode := by rfl
@[simp] theorem nextDevice_fromHook : s.nextDevice.fromHook = s.fromHook := by rfl
@[simp] theorem nextDevice_hint : s.nextDevice.hint = s.hint := by rfl
@[simp] theorem nextDevice_din : s.nextDevice.din = s.din := by rfl
@[simp] theorem nextDevice_dout : s.nextDevice.dout = s.dout := by rfl
@[simp] theorem nextDevice_tapCtl : s.nextDevice.tapCtl = s.tapCtl := by rfl
@[simp] theorem nextDevice_env : s.nextDevice.env = s.env := by rfl
@[simp] theorem nextDevice_trace : s.nextDevice.trace = s.trace := by rfl

@[simp] theorem captureDout_params (resp : TapResp) : (s.captureDout resp).params = s.params := by rfl
@[simp] theorem captureDout_cmdLast (resp : TapResp) : (s.captureDout resp).cmdLast = s.cmdLast := by rfl
@[simp] theorem captureDout_arg (resp : TapResp) : (s.captureDout resp).arg = s.arg := by rfl
@[simp] theorem captureDout_result (resp : TapResp) : (s.captureDout resp).result = s.result := by rfl
@[simp] theorem captureDout_table (resp : TapResp) : (s.captureDout resp).table = s.table := by rfl
@[simp] theorem captureDout_deviceCount (resp : TapResp) : (s.captureDout resp).deviceCount = s.deviceCount := by rfl
@[simp] theorem captureDout_phase (resp : TapResp) : (s.captureDout resp).phase = s.phase := by rfl
@[simp] theorem captureDout_tapReady (resp : TapResp) : (s.captureDout resp).tapReady = s.tapReady := by rfl
@[simp] theorem captureDout_hookActive (resp : TapResp) : (s.captureDout resp).hookActive = s.hookActive := by rfl
@[simp] theorem captureDout_hookDev (resp : TapResp) : (s.captureDout resp).hookDev = s.hookDev := by rfl
@[simp] theorem captureDout_hookDesc (resp : TapResp) : (s.captureDout resp).hookDesc = s.hookDesc := by rfl
@[simp] theorem captureDout_warnIr0 (resp : TapResp) : (s.captureDout resp).warnIr0 = s.warnIr0 := by rfl
@[simp] theorem captureDout_drop (resp : TapResp) : (s.captureDout resp).drop = s.drop := by rfl
@[simp] theorem captureDout_err (resp : TapResp) : (s.captureDout resp).err = s.err := by rfl
@[simp] theorem captureDout_oplCmd (resp : TapResp) : (s.captureDout resp).oplCmd = s.oplCmd := by rfl
@[simp] theorem captureDout_oplArg (resp : TapResp) : (s.captureDout resp).oplArg = s.oplArg := by rfl
@[simp] theorem captureDout_n (resp : TapResp) : (s.captureDout resp).n = s.n := by rfl
@[simp] theorem captureDout_k (resp : TapResp) : (s.captureDout resp).k = s.k := by rfl
@[simp] theorem captureDout_dev (resp : TapResp) : (s.captureDout resp).dev = s.dev := by rfl
@[simp] theorem captureDout_len (resp : TapResp) : (s.captureDout resp).len = s.len := by rfl
@[simp] theorem captureDout_pre (resp : TapResp) : (s.captureDout resp).pre = s.pre := by rfl
@[simp] theorem captureDout_cnt (resp : TapResp) : (s.captureDout resp).cnt = s.cnt := by rfl
@[simp] theorem captureDout_i (resp : TapResp) : (s.captureDout resp).i = s.i := by rfl
@[simp] theorem captureDout_j (resp : TapResp) : (s.captureDout resp).j = s.j := by rfl
@[simp] theorem captureDout_failCode (resp : TapResp) : (s.captureDout resp).failCode = s.failCode := by rfl
@[simp] theorem captureDout_fromHook (resp : TapResp) : (s.captureDout resp).fromHook = s.fromHook := by rfl
@[simp] theorem captureDout_hint (resp : TapResp) : (s.captureDout resp).hint = s.hint := by rfl
@[simp] theorem captureDout_din (resp : TapResp) : (s.captureDout resp).din = s.din := by rfl
@[simp] theorem captureDout_dout (resp : TapResp) :
    (s.captureDout resp).dout = if s.oplCap then s.dout.writeBits resp.tdo s.oplNbits else s.dout := by rfl
@[simp] theorem captureDout_tapCtl (resp : TapResp) : (s.captureDout resp).tapCtl = s.tapCtl := by rfl
@[simp] theorem captureDout_env (resp : TapResp) : (s.captureDout resp).env = s.env := by rfl
@[simp] theorem captureDout_trace (resp : TapResp) : (s.captureDout resp).trace = s.trace := by rfl

end Sys2Proof.Machine
end

