-- ==== Sys2Proof/Laws/Table.lean ====
section
/-! SUPPORT. The laws of the Device Table: what each operation does to every slot. -/
namespace Sys2Proof.Machine

variable (s : State)

/-- What a change of one slot does to every slot. -/
theorem slot_modifySlot (a b : Nat) (f : DevRec → DevRec) :
    (s.modifySlot a f).slot b = if a = b ∧ b < s.table.length then f (s.slot b) else s.slot b := by
  simp only [State.slot, State.modifySlot, List.getD_eq_getElem?_getD, List.getElem?_modify]
  by_cases hb : b < s.table.length
  · by_cases hab : a = b <;> simp [hb, hab]
  · simp [hb]

theorem slot_modifySlot_self {a : Nat} (f : DevRec → DevRec) (h : a < s.table.length) :
    (s.modifySlot a f).slot a = f (s.slot a) := by simp [slot_modifySlot, h]

theorem slot_modifySlot_ne {a b : Nat} (f : DevRec → DevRec) (h : a ≠ b) :
    (s.modifySlot a f).slot b = s.slot b := by simp [slot_modifySlot, h]

@[simp] theorem length_modifySlot (a : Nat) (f : DevRec → DevRec) :
    (s.table.modify a f).length = s.table.length := by simp

/-- A cleared table holds the zero record in every slot. -/
@[simp] theorem slot_clearTable (a : Nat) : s.clearTable.slot a = DevRec.zero := by
  simp only [State.slot, State.clearTable, List.getD_eq_getElem?_getD, List.getElem?_replicate]
  split <;> rfl

/-- Forgetting every cache forgets each one. -/
@[simp] theorem slot_forgetAll (a : Nat) : s.forgetAll.slot a = (s.slot a).forget := by
  simp only [State.slot, State.forgetAll, List.getD_eq_getElem?_getD, List.getElem?_map]
  cases s.table[a]? <;> rfl

/-- The caches of a WRITE_IR that shifts: the target known, every other unknown (41_addressed_access.md R163). -/
theorem slot_fillCache (idx a : Nat) (v : Word) :
    (s.fillCache idx v).slot a =
      if idx = a ∧ a < s.table.length then { s.slot a with currentIr := v, curKnown := true } else (s.slot a).forget := by
  simp only [State.fillCache, slot_modifySlot, slot_forgetAll]
  simp [State.forgetAll, DevRec.forget]

/-- A slot depends on the table alone. -/
theorem slot_congr {s t : State} (h : t.table = s.table) (a : Nat) : t.slot a = s.slot a := by simp only [State.slot, h]

@[simp] theorem slot_goto (p : Phase) (a : Nat) : (s.goto p).slot a = s.slot a := slot_congr rfl a
@[simp] theorem slot_emit (o : Output) (a : Nat) : (s.emit o).slot a = s.slot a := slot_congr rfl a
@[simp] theorem slot_latch (w : Word) (a : Nat) : (s.latch w).slot a = s.slot a := slot_congr rfl a
@[simp] theorem slot_withEnv (e : List Move) (a : Nat) : (s.withEnv e).slot a = s.slot a := slot_congr rfl a
@[simp] theorem slot_completeRequest (q : TapReq) (a : Nat) : (s.completeRequest q).slot a = s.slot a := slot_congr rfl a
@[simp] theorem slot_complete (r : Word) (a : Nat) : (s.complete r).slot a = s.slot a := slot_congr rfl a
@[simp] theorem slot_reject (c : ErrCode) (a : Nat) : (s.reject c).slot a = s.slot a := slot_congr rfl a
@[simp] theorem slot_fail (c : ErrCode) (a : Nat) : (s.fail c).slot a = s.slot a := slot_congr rfl a
@[simp] theorem slot_startHints (a : Nat) : s.startHints.slot a = s.slot a := slot_congr rfl a
@[simp] theorem slot_countIrBit (a : Nat) : s.countIrBit.slot a = s.slot a := slot_congr rfl a
@[simp] theorem slot_nextDevice (a : Nat) : s.nextDevice.slot a = s.slot a := slot_congr rfl a
@[simp] theorem slot_completeScan (a : Nat) : s.completeScan.slot a = s.slot a := slot_congr rfl a
@[simp] theorem slot_endHook (a : Nat) : s.endHook.slot a = s.slot a := slot_congr rfl a
@[simp] theorem slot_dropCommand (a : Nat) : s.dropCommand.slot a = s.slot a := slot_congr rfl a
@[simp] theorem slot_endIr (c : BitVec 9) (a : Nat) : (s.endIr c).slot a = s.slot a := slot_congr rfl a
@[simp] theorem slot_captureDout (r : TapResp) (a : Nat) : (s.captureDout r).slot a = s.slot a := slot_congr rfl a

@[simp] theorem slot_enterHint (a : Nat) : s.enterHint.slot a = s.slot a := by
  refine slot_congr ?_ a
  unfold State.enterHint
  cases s.hintEntry <;> rfl

/-- One IDCODE (40_discovery.md R118). -/
theorem slot_recordIdcode (v : Word) (a : Nat) : (s.recordIdcode v).slot a =
    if s.n.toNat = a ∧ a < s.table.length then { s.slot a with idcode := v } else s.slot a :=
  (slot_congr rfl a).trans (slot_modifySlot s s.n.toNat a (fun r => { r with idcode := v }))

/-- One hint (40_discovery.md R124). -/
theorem slot_recordHint (h : Byte) (resp : TapResp) (a : Nat) : (s.recordHint h resp).slot a =
    if s.k.toNat = a ∧ a < s.table.length then { s.slot a with irLength := h, irPrescan := s.pre } else s.slot a :=
  (slot_congr rfl a).trans (slot_modifySlot s s.k.toNat a (fun r => { r with irLength := h, irPrescan := s.pre }))

/-- One probed device (40_discovery.md R128). -/
theorem slot_recordProbe (a : Nat) : s.recordProbe.slot a =
    if s.dev.toNat = a ∧ a < s.table.length then { s.slot a with irLength := s.len, irPrescan := s.pre } else s.slot a :=
  (slot_congr rfl a).trans (slot_modifySlot s s.dev.toNat a (fun r => { r with irLength := s.len, irPrescan := s.pre }))

/-- The DR offsets of one device (40_discovery.md R132). -/
theorem slot_recordDr (a : Nat) : s.recordDr.slot a =
    if s.i.toNat = a ∧ a < s.table.length then
      { s.slot a with drPrescan := s.i.setWidth 8, drPostscan := (s.cnt - s.i - 1#9).setWidth 8 }
    else s.slot a :=
  (slot_congr rfl a).trans (slot_modifySlot s s.i.toNat a
    (fun r => { r with drPrescan := s.i.setWidth 8, drPostscan := (s.cnt - s.i - 1#9).setWidth 8 }))

/-- The marks of a match (40_discovery.md R138). -/
theorem slot_invokeHook (d a : Nat) : (s.invokeHook d).slot a =
    if s.j.toNat = a ∧ a < s.table.length then
      { s.slot a with curKnown := false, descValid := true, descIdx := BitVec.ofNat 8 d }
    else s.slot a :=
  (slot_congr rfl a).trans (slot_modifySlot s s.j.toNat a
    (fun r => { r with curKnown := false, descValid := true, descIdx := BitVec.ofNat 8 d }))

@[simp] theorem irSum_zero : s.irSum 0 = 0 := by rfl

theorem irSum_succ (m : Nat) : s.irSum (m + 1) = s.irSum m + (s.slot m).irLength.toNat := by rfl

/-- A sum of lengths depends on the lengths below its bound alone. -/
theorem irSum_congr {s t : State} {m : Nat} (h : ∀ a, a < m → (t.slot a).irLength = (s.slot a).irLength) :
    t.irSum m = s.irSum m := by
  induction m with
  | zero => rfl
  | succ m ih =>
    simp only [irSum_succ]
    rw [ih fun a ha => h a (by omega), h m (by omega)]

/-- A sum of lengths is at most the number of devices times the longest length. -/
theorem irSum_le {m : Nat} (h : s.IrDone m) : s.irSum m ≤ m * s.params.maxIrLen := by
  induction m with
  | zero => simp
  | succ m ih =>
    have h1 := ih fun a ha => h a (by omega)
    have h2 := (h m (by omega)).2.1
    simp only [irSum_succ, Nat.succ_mul]
    omega

theorem irSum_mono {a b : Nat} (h : a ≤ b) : s.irSum a ≤ s.irSum b := by
  induction h with
  | refl => exact le_rfl
  | step _ ih => exact ih.trans (by simp [irSum_succ])

end Sys2Proof.Machine
end

