-- ==== Sys2Proof/Laws/Command.lean ====
section
/-! SUPPORT. What accepting a command can do, once for all sixteen: every later proof cites `exec_cases`. -/
namespace Sys2Proof.Machine

variable {s : State}

/-- The acceptance step in its three cases (60_exceptions.md R201, R213). -/
theorem accept_cases (s : State) (c : Instr) (run : State → State) :
    (s.mode = .busy ∧ s.accept c run = s.dropCommand) ∨
    (s.mode ≠ .busy ∧ allowed c s.mode = false ∧ s.accept c run = (s.latch (encode c)).reject .badState) ∨
    (s.mode ≠ .busy ∧ allowed c s.mode = true ∧ s.accept c run = run (s.latch (encode c))) := by
  unfold State.accept
  by_cases hb : s.mode = .busy
  · simp [hb]
  · by_cases ha : allowed c s.mode = true <;> simp [hb, ha]

/-- The home phase of a command just latched is the phase it was accepted in (60_exceptions.md R203, R205). -/
theorem home_latch (w : Word) (h : s.mode ≠ .busy) : (s.latch w).home = s.phase := by
  cases hp : s.phase <;> simp_all [State.home, State.mode]

/-- A command is accepted in IDLE or in HOOK_WAIT (60_exceptions.md R200). -/
theorem mode_ne_busy : s.mode ≠ .busy ↔ s.phase = .idle ∨ s.phase = .hookWait := by
  cases hp : s.phase <;> simp [State.mode, hp]

theorem mode_eq_idle : s.mode = .idle ↔ s.phase = .idle := by
  cases hp : s.phase <;> simp [State.mode, hp]

theorem mode_eq_hook : s.mode = .hook ↔ s.phase = .hookWait := by
  cases hp : s.phase <;> simp [State.mode, hp]

/-- A command accepted and allowed runs on what acceptance latched. -/
theorem accept_run (h : s.mode ≠ .busy) {c : Instr} (ha : allowed c s.mode = true) (run : State → State) :
    s.accept c run = run (s.latch (encode c)) := by
  unfold State.accept
  rw [if_neg h, if_pos ha]

/-- The index check passes for a live device, on what acceptance latched (41_addressed_access.md R165). -/
theorem indexed_live {w : Word} {idx : Nat} (h : idx < s.deviceCount.toNat) (run : State → State) :
    (s.latch w).indexed idx run = run (s.latch w) := if_pos h

/-- The index check refuses any other index. -/
theorem indexed_dead {w : Word} {idx : Nat} (h : s.deviceCount.toNat ≤ idx) (run : State → State) :
    (s.latch w).indexed idx run = (s.latch w).reject .badIndex :=
  if_neg (show ¬ idx < s.deviceCount.toNat by omega)

/-- Acceptance latches the mode it happens in (10_state.md R27). -/
theorem latch_hook (w : Word) : (s.latch w).fromHook = decide (s.phase = .hookWait) := by
  show decide (s.mode = .hook) = _
  simp only [mode_eq_hook]

/-- A command that completes in its acceptance step (60_exceptions.md R205). -/
theorem complete_eq (h : s.Accepting) (w r : Word) : (s.latch w).complete r = s.answered w r .none := by
  have := home_latch w (mode_ne_busy.2 h)
  unfold State.complete
  rw [this]
  unfold State.answered
  rw [← latch_hook w]; rfl

/-- A command that is refused (60_exceptions.md R203). -/
theorem reject_eq (h : s.Accepting) (w : Word) (e : ErrCode) : (s.latch w).reject e = s.answered w 0#32 e := by
  have := home_latch w (mode_ne_busy.2 h)
  unfold State.reject
  rw [this]
  unfold State.answered
  rw [← latch_hook w]; rfl

/-- A command that starts (60_exceptions.md R201). -/
theorem started_eq (w : Word) (p : Phase) : (s.latch w).goto p = s.started w p := by
  unfold State.started
  rw [← latch_hook w]; rfl

/-- A CMD write while BUSY is dropped, whatever the command (60_exceptions.md R204). -/
theorem exec_busy (h : s.mode = .busy) (i : Instr) : exec i s = .next s.dropCommand := by
  have : ∀ run, s.accept i run = s.dropCommand := fun run => by unfold State.accept; rw [if_pos h]
  cases i <;> exact congrArg Host.Outcome.next (this _)

/-- What one command's acceptance step can do, in one line each. -/
inductive Accepted (s : State) (i : Instr) : State → Prop where
  /-- A CMD write while BUSY. -/
  | drop (h : s.mode = .busy) : Accepted s i s.dropCommand
  /-- A refusal (60_exceptions.md R203). -/
  | reject (h : s.mode ≠ .busy) (code : ErrCode) : Accepted s i ((s.latch (encode i)).reject code)
  /-- A completion within the step (60_exceptions.md R205). -/
  | complete (h : s.mode ≠ .busy) (r : Word) : Accepted s i ((s.latch (encode i)).complete r)
  /-- A scan starts (40_discovery.md R113). -/
  | scan (h : s.phase = .idle) (hi : i = .scan ∨ i = .scanh) : Accepted s i ((s.latch (encode i)).goto .scClear)
  /-- A hook ends (40_discovery.md R142). -/
  | hookDone (h : s.phase = .hookWait) (hi : i = .hookDone) : Accepted s i (s.latch (encode i)).endHook
  /-- A WRITE_IR that shifts (41_addressed_access.md R161). -/
  | writeIr (h : s.mode ≠ .busy) (idx : Nat) (hi : i = .writeIr idx) (hx : idx < s.deviceCount.toNat) : Accepted s i
      (((s.latch (encode i)).fillCache idx s.arg).goto .wiEnter)
  /-- A SHIFT_DR (41_addressed_access.md R167). -/
  | shiftDr (h : s.mode ≠ .busy) (idx nbits : Nat) (cap : Bool) (hi : i = .shiftDr idx nbits cap)
      (hx : idx < s.deviceCount.toNat) (h1 : 1 ≤ nbits) (h2 : nbits ≤ s.params.maxDrBits) : Accepted s i
      ((s.latch (encode i)).goto .sdEnter)

/-- The acceptance step of a command whose body rejects, completes or starts as `Accepted` lists. -/
theorem accept_accepted (i : Instr) (run : State → State)
    (hrun : s.mode ≠ .busy → allowed i s.mode = true → Accepted s i (run (s.latch (encode i)))) :
    Accepted s i (s.accept i run) := by
  rcases accept_cases s i run with ⟨hb, he⟩ | ⟨hb, _, he⟩ | ⟨hb, ha, he⟩
  · exact he ▸ .drop hb
  · exact he ▸ .reject hb _
  · exact he ▸ hrun hb ha

/-- The common body of the readbacks (42_readback.md R180). -/
theorem readback_accepted (i : Instr) (idx : Nat) (f : DevRec → Word) :
    Accepted s i (s.readback i idx f) := by
  refine accept_accepted i _ fun hb _ => ?_
  unfold State.indexed
  split
  · exact .complete hb _
  · exact .reject hb _

/-- Every command's acceptance step answers a next state, and it is one of those `Accepted` lists. -/
theorem exec_cases (i : Instr) (s : State) : ∃ t, exec i s = .next t ∧ Accepted s i t := by
  cases i with
  | scan =>
    refine ⟨_, rfl, accept_accepted _ _ fun _ ha => ?_⟩
    exact .scan (mode_eq_idle.1 (by cases hm : s.mode <;> simp_all [allowed])) (.inl rfl)
  | scanh =>
    refine ⟨_, rfl, accept_accepted _ _ fun _ ha => ?_⟩
    exact .scan (mode_eq_idle.1 (by cases hm : s.mode <;> simp_all [allowed])) (.inr rfl)
  | hookDone =>
    refine ⟨_, rfl, accept_accepted _ _ fun _ ha => ?_⟩
    exact .hookDone (mode_eq_hook.1 (by cases hm : s.mode <;> simp_all [allowed])) rfl
  | writeIr idx =>
    refine ⟨_, rfl, accept_accepted _ _ fun hb _ => ?_⟩
    simp only [State.indexed, latch_deviceCount, latch_oplArg]
    by_cases hx : idx < s.deviceCount.toNat
    · rw [if_pos hx]
      by_cases hc : ((s.latch (encode (.writeIr idx))).slot idx).cacheHit s.arg = true
      · rw [if_pos hc]; exact .complete hb _
      · rw [if_neg hc]; exact .writeIr hb idx rfl hx
    · rw [if_neg hx]; exact .reject hb _
  | shiftDr idx nbits cap =>
    refine ⟨_, rfl, accept_accepted _ _ fun hb _ => ?_⟩
    simp only [State.indexed, latch_deviceCount, latch_params]
    by_cases hx : idx < s.deviceCount.toNat
    · rw [if_pos hx]
      by_cases hn : nbits = 0 ∨ s.params.maxDrBits < nbits
      · rw [if_pos hn]; exact .reject hb _
      · rw [if_neg hn]; exact .shiftDr hb idx nbits cap rfl hx (by omega) (by omega)
    · rw [if_neg hx]; exact .reject hb _
  | rdCount => exact ⟨_, rfl, accept_accepted _ _ fun hb _ => .complete hb _⟩
  | rdIdcode idx => exact ⟨_, rfl, readback_accepted _ _ _⟩
  | rdIrlen idx => exact ⟨_, rfl, readback_accepted _ _ _⟩
  | rdDesc idx => exact ⟨_, rfl, readback_accepted _ _ _⟩
  | rdIndex idx => exact ⟨_, rfl, readback_accepted _ _ _⟩
  | rdIrpre idx => exact ⟨_, rfl, readback_accepted _ _ _⟩
  | rdIrpost idx => exact ⟨_, rfl, readback_accepted _ _ _⟩
  | rdDrpre idx => exact ⟨_, rfl, readback_accepted _ _ _⟩
  | rdDrpost idx => exact ⟨_, rfl, readback_accepted _ _ _⟩
  | rdCurir idx => exact ⟨_, rfl, readback_accepted _ _ _⟩
  | rdCurirk idx => exact ⟨_, rfl, readback_accepted _ _ _⟩

end Sys2Proof.Machine
end

