-- ==== Sys2Proof/Laws/Encoding.lean ====
section
/-! SUPPORT. The fields of a command word as arithmetic, and what the decoder answers with. -/
namespace Sys2Proof

/-- The assembler's word as a sum: its four fields do not overlap (30_encoding.md R80, R81). -/
theorem enc_toNat (opc : Word) (idx nbits : Nat) (cap : Bool) (ho : opc.toNat < 256) (hi : idx < 256)
    (hn : nbits < 4096) :
    (enc opc idx nbits cap).toNat = opc.toNat + 2 ^ 8 * idx + 2 ^ 16 * nbits + 2 ^ 28 * cap.toNat := by
  have h1 : (BitVec.ofNat 32 idx <<< 8).toNat = idx <<< 8 := by
    rw [BitVec.toNat_shiftLeft, BitVec.toNat_ofNat, Nat.shiftLeft_eq, Nat.shiftLeft_eq]; omega
  have h2 : (BitVec.ofNat 32 nbits <<< 16).toNat = nbits <<< 16 := by
    rw [BitVec.toNat_shiftLeft, BitVec.toNat_ofNat, Nat.shiftLeft_eq, Nat.shiftLeft_eq]; omega
  have h3 : ((BitVec.ofBool cap).setWidth 32 <<< 28).toNat = cap.toNat <<< 28 := by cases cap <;> decide
  have l2 : idx <<< 8 + opc.toNat < 2 ^ 16 := by rw [Nat.shiftLeft_eq]; omega
  have l3 : nbits <<< 16 + (idx <<< 8 + opc.toNat) < 2 ^ 28 := by rw [Nat.shiftLeft_eq]; omega
  unfold enc
  rw [BitVec.toNat_or, BitVec.toNat_or, BitVec.toNat_or, h1, h2, h3, Nat.or_comm opc.toNat,
    ← Nat.shiftLeft_add_eq_or_of_lt ho, Nat.or_comm _ (nbits <<< 16), ← Nat.shiftLeft_add_eq_or_of_lt l2,
    Nat.or_comm _ (cap.toNat <<< 28), ← Nat.shiftLeft_add_eq_or_of_lt l3, Nat.shiftLeft_eq, Nat.shiftLeft_eq,
    Nat.shiftLeft_eq]
  omega

theorem opcOf_toNat (w : Word) : (opcOf w).toNat = w.toNat % 2 ^ 8 := by
  simp [opcOf, BitVec.extractLsb'_toNat]

theorem idxOf_eq (w : Word) : idxOf w = w.toNat / 2 ^ 8 % 2 ^ 8 := by
  simp [idxOf, BitVec.extractLsb'_toNat, Nat.shiftRight_eq_div_pow]

theorem nbitsOf_eq (w : Word) : nbitsOf w = w.toNat / 2 ^ 16 % 2 ^ 12 := by
  simp [nbitsOf, BitVec.extractLsb'_toNat, Nat.shiftRight_eq_div_pow]

theorem capOf_eq (w : Word) : capOf w = decide (w.toNat / 2 ^ 28 % 2 = 1) := by
  simp [capOf, BitVec.getLsbD, Nat.testBit_eq_decide_div_mod_eq]

theorem rsvOf_toNat (w : Word) : (rsvOf w).toNat = w.toNat / 2 ^ 29 % 2 ^ 3 := by
  simp [rsvOf, BitVec.extractLsb'_toNat, Nat.shiftRight_eq_div_pow]

/-- The fields of an assembled word are the operands it was assembled from (30_encoding.md R81). -/
theorem enc_fields (opc : Word) (idx nbits : Nat) (cap : Bool) (ho : opc.toNat < 256) (hi : idx < 256)
    (hn : nbits < 4096) :
    (opcOf (enc opc idx nbits cap)).toNat = opc.toNat ∧ idxOf (enc opc idx nbits cap) = idx ∧
      nbitsOf (enc opc idx nbits cap) = nbits ∧ capOf (enc opc idx nbits cap) = cap ∧
      rsvOf (enc opc idx nbits cap) = 0#3 := by
  have h := enc_toNat opc idx nbits cap ho hi hn
  have hc : cap.toNat ≤ 1 := by cases cap <;> decide
  refine ⟨?_, ?_, ?_, ?_, ?_⟩
  · rw [opcOf_toNat, h]; omega
  · rw [idxOf_eq, h]; omega
  · rw [nbitsOf_eq, h]; omega
  · rw [capOf_eq, h]
    cases cap
    · simp only [Bool.toNat_false, decide_eq_false_iff_not]; omega
    · simp only [Bool.toNat_true, decide_eq_true_eq]; omega
  · apply BitVec.eq_of_toNat_eq
    rw [rsvOf_toNat, h]; simp; omega

theorem idxOf_lt (w : Word) : idxOf w < 256 := (w.extractLsb' 8 8).isLt

theorem nbitsOf_lt (w : Word) : nbitsOf w < 4096 := (w.extractLsb' 16 12).isLt

/-- What the decoder answers with, row by row: the row's opcode, its must-be-zero fields, its operands (R83). -/
inductive Decoded (w : Word) : Instr → Prop where
  | plain (i : Instr) (hi : i = .scan ∨ i = .scanh ∨ i = .hookDone ∨ i = .rdCount)
      (ho : (opcOf w).setWidth 32 = opcodeOf i) (hx : idxOf w = 0) (hn : nbitsOf w = 0) (hc : capOf w = false) :
      Decoded w i
  | indexed (mk : Nat → Instr)
      (hm : mk ∈ [Instr.writeIr, .rdIdcode, .rdIrlen, .rdDesc, .rdIndex, .rdIrpre, .rdIrpost, .rdDrpre, .rdDrpost,
        .rdCurir, .rdCurirk])
      (ho : (opcOf w).setWidth 32 = opcodeOf (mk 0)) (hn : nbitsOf w = 0) (hc : capOf w = false) :
      Decoded w (mk (idxOf w))
  | shiftDr (ho : (opcOf w).setWidth 32 = 0x04#32) : Decoded w (.shiftDr (idxOf w) (nbitsOf w) (capOf w))

theorem decodePlain_decoded {w : Word} {i j : Instr} (h : decodePlain i w = .ok j)
    (hi : i = .scan ∨ i = .scanh ∨ i = .hookDone ∨ i = .rdCount) (ho : (opcOf w).setWidth 32 = opcodeOf i) :
    Decoded w j := by
  unfold decodePlain at h
  split at h
  · next hz => cases h; exact .plain i hi ho hz.1 hz.2.1 hz.2.2
  · cases h

theorem decodeIndexed_decoded {w : Word} {mk : Nat → Instr} {j : Instr} (h : decodeIndexed mk w = .ok j)
    (hm : mk ∈ [Instr.writeIr, .rdIdcode, .rdIrlen, .rdDesc, .rdIndex, .rdIrpre, .rdIrpost, .rdDrpre, .rdDrpost,
      .rdCurir, .rdCurirk]) (ho : (opcOf w).setWidth 32 = opcodeOf (mk 0)) : Decoded w j := by
  unfold decodeIndexed at h
  split at h
  · next hz => cases h; exact .indexed mk hm ho hz.1 hz.2
  · cases h

/-- Every answer of the decoder has RSV zero and is one of `Decoded`. -/
theorem decode_decoded {w : Word} {i : Instr} (h : decode w = .ok i) : rsvOf w = 0#3 ∧ Decoded w i := by
  unfold decode at h
  split at h
  · cases h
  next hr =>
  refine ⟨by simpa using hr, ?_⟩
  split at h <;> rename_i ho
  case h_4 => cases h; exact .shiftDr (by rw [ho]; rfl)
  case h_17 => cases h
  all_goals
    first
    | exact decodePlain_decoded h (by simp) (by rw [ho]; rfl)
    | exact decodeIndexed_decoded h (by simp) (by rw [ho]; rfl)

/-- The decoder answers with well-formed commands only. -/
theorem decode_wellFormed {w : Word} {i : Instr} (h : decode w = .ok i) : i.wellFormed = true := by
  have hx := idxOf_lt w
  have hn := nbitsOf_lt w
  cases (decode_decoded h).2 with
  | plain i hi => rcases hi with rfl | rfl | rfl | rfl <;> rfl
  | indexed mk hm =>
    simp only [List.mem_cons, List.not_mem_nil, or_false] at hm
    rcases hm with rfl | rfl | rfl | rfl | rfl | rfl | rfl | rfl | rfl | rfl | rfl <;>
      simp [Instr.wellFormed, idxFits, hx]
  | shiftDr => simp [Instr.wellFormed, idxFits, nbitsFits, hx, hn]

end Sys2Proof
end

