-- ==== Sys2Proof/Laws/Operands.lean ====
section
/-! SUPPORT. The laws of the operands: counters, hint entries, the vectors of DIN and DOUT bits, the postscan backfill and the
descriptor search. -/
namespace Sys2Proof.Machine

variable {s : State}

/-- A 9-bit counter below 256 counts up without wrapping (10_state.md R27). -/
theorem toNat_succ9 {x : BitVec 9} (h : x.toNat ≤ 255) : (x + 1#9).toNat = x.toNat + 1 := by
  rw [BitVec.toNat_add]; simp; omega

/-- What an entry that is a length tells (40_discovery.md R124, R126). -/
theorem hintEntry_length {h : Byte} (he : s.hintEntry = .length h) :
    s.k.toNat < s.params.maxDevs ∧ s.hint.read s.k.toNat = some h ∧ 1 ≤ h.toNat ∧ h.toNat ≤ s.params.maxIrLen := by
  unfold State.hintEntry at he
  split at he
  · cases he
  next hk =>
  split at he
  · cases he
  next b hb =>
  split at he
  · cases he
  next h0 =>
  split at he
  · cases he
  next hr =>
  cases he
  refine ⟨by omega, hb, ?_, by omega⟩
  rcases Nat.eq_zero_or_pos h.toNat with hz | hz
  · exact absurd (BitVec.eq_of_toNat_eq (by simpa using hz)) h0
  · exact hz

/-- Bit `b` of the low `n` bits of a vector. -/
theorem lowBits_get (v : Vec) (n b : Nat) : (lowBits v n).getLsbD b = (decide (b < n) && v.getLsbD b) := by
  unfold lowBits
  rw [BitVec.getLsbD_and, BitVec.getLsbD_ofNat, Nat.testBit_two_pow_sub_one]
  rcases Nat.lt_or_ge b 2048 with h | h
  · simp [h, Bool.and_comm]
  · rw [BitVec.getLsbD_of_ge v b h]; simp

/-- A word that is not written leaves no number (70_reset_and_hazards.md R232). -/
theorem dinNumber_none (m : Memory Word) (n j : Nat) (hj : j < n) (h : m.read j = none) : dinNumber m n = none := by
  induction n with
  | zero => omega
  | succ n ih =>
    unfold dinNumber
    rcases Nat.lt_or_ge j n with h1 | h1
    · rw [ih h1]
    · have : j = n := by omega
      subst this; rw [h]; cases dinNumber m j <;> rfl

/-- Words that are all written make the number whose bits they hold. -/
theorem dinNumber_some (m : Memory Word) (n : Nat) (h : ∀ b, b < n → ∃ c, m.read b = some c) : ∃ x, dinNumber m n =
    some x ∧ x < 2 ^ (32 * n) ∧ ∀ b w, b < 32 * n → m.read (b / 32) = some w → w.getLsbD (b % 32) = x.testBit b := by
  induction n with
  | zero => exact ⟨0, rfl, by simp, fun b w hb => by omega⟩
  | succ n ih =>
    obtain ⟨x, h1, h2, h3⟩ := ih fun b hb => h b (by omega)
    obtain ⟨c, hc⟩ := h n (by omega)
    refine ⟨x + c.toNat * 2 ^ (32 * n), by unfold dinNumber; rw [h1, hc], ?_, fun b w hb hw => ?_⟩
    · have := c.isLt
      rw [Nat.mul_succ, Nat.pow_add]
      have h5 : c.toNat * 2 ^ (32 * n) ≤ (2 ^ 32 - 1) * 2 ^ (32 * n) := Nat.mul_le_mul_right _ (by omega)
      rw [Nat.mul_comm (2 ^ (32 * n))]
      have : 2 ^ 32 * 2 ^ (32 * n) = (2 ^ 32 - 1) * 2 ^ (32 * n) + 2 ^ (32 * n) := by omega
      omega
    · rw [Nat.add_comm x, Nat.mul_comm, Nat.testBit_two_pow_mul_add _ h2]
      split
      · next hl => exact h3 b w hl hw
      · have h6 : b / 32 = n := by omega
        rw [h6, hc] at hw; cases hw
        have : b - 32 * n = b % 32 := by omega
        rw [this]; rfl

/-- SHIFT_DR finds no vector where a word it takes a bit from is not written (70_reset_and_hazards.md R232). -/
theorem dinVector_none {b : Nat} (hb : b < s.oplNbits) (h : s.din.read (b / 32) = none) : s.dinVector = none := by
  unfold State.dinVector
  rw [dinNumber_none s.din ((s.oplNbits + 31) / 32) (b / 32) (by omega) h]

/-- A bit that is not written leaves no number (70_reset_and_hazards.md R232). -/
theorem doutNumber_none (m : Memory Bool) (base n j : Nat) (hj : j < n) (h : m.read (base + j) =
    none) : doutNumber m base n = none := by
  induction n with
  | zero => omega
  | succ n ih =>
    unfold doutNumber
    rcases Nat.lt_or_ge j n with h1 | h1
    · rw [ih h1]
    · have : j = n := by omega
      subst this; rw [h]; cases doutNumber m base j <;> rfl

/-- Bits that are all written make the number whose bits they are. -/
theorem doutNumber_some (m : Memory Bool) (base n : Nat) (h : ∀ b, b < n → ∃ c, m.read (base + b) = some c) : ∃ x,
    doutNumber m base n = some x ∧ x < 2 ^ n ∧ ∀ b, b < n → m.read (base + b) = some (x.testBit b) := by
  induction n with
  | zero => exact ⟨0, rfl, by simp, fun b hb => by omega⟩
  | succ n ih =>
    obtain ⟨x, h1, h2, h3⟩ := ih fun b hb => h b (by omega)
    obtain ⟨c, hc⟩ := h n (by omega)
    refine ⟨x + c.toNat * 2 ^ n, by unfold doutNumber; rw [h1, hc], ?_, fun b hb => ?_⟩
    · rw [Nat.pow_succ]; cases c <;> simp <;> omega
    · rw [Nat.add_comm x, Nat.mul_comm, Nat.testBit_two_pow_mul_add _ h2]
      split
      · next hl => exact h3 b hl
      · have : b = n := by omega
        subst this; rw [hc]; cases c <;> simp

/-- What a change of one record does to every record of a list. -/
theorem getD_modify (l : List DevRec) (a b : Nat) (f : DevRec → DevRec) :
    (l.modify a f).getD b DevRec.zero = if a = b ∧
        b < l.length then f (l.getD b DevRec.zero) else l.getD b DevRec.zero := by
  simp only [List.getD_eq_getElem?_getD, List.getElem?_modify]
  by_cases hb : b < l.length
  · by_cases hab : a = b <;> simp [hb, hab]
  · simp [hb]

@[simp] theorem backfill_length (t : List DevRec) (m : Nat) : (backfill t m).length = t.length := by
  induction m generalizing t with
  | zero => rfl
  | succ m ih => simp [backfill, ih]

/-- The backfill writes nothing but `ir_postscan`, and only below the tail. -/
theorem backfill_other (l : List DevRec) (m b : Nat) :
    ∃ p, (backfill l m).getD b DevRec.zero = { l.getD b DevRec.zero with irPostscan := p } ∧
      (m ≤ b → p = (l.getD b DevRec.zero).irPostscan) := by
  induction m generalizing l with
  | zero => exact ⟨_, rfl, fun _ => rfl⟩
  | succ m ih =>
    simp only [backfill]
    obtain ⟨p, hp, hq⟩ := ih (l.modify m fun q => { q with irPostscan := (l.getD (m+1) DevRec.zero).irPostscan + (l.getD (m+1) DevRec.zero).irLength.setWidth 16 })
    refine ⟨p, ?_, ?_⟩
    · rw [hp, getD_modify]; split <;> rfl
    · intro hb
      rw [hq (by omega), getD_modify, if_neg (by omega)]

/-- The backfill from a tail whose postscan is right gives every slot its postscan. -/
theorem backfill_post (l : List DevRec) (m total : Nat) (hlen : m < l.length)
    (hbound : lengthSum l (m + 1) ≤ total) (htot : total < 65536)
    (hm : (l.getD m DevRec.zero).irPostscan.toNat + lengthSum l (m + 1) = total) (b : Nat) (hb : b ≤ m) :
    ((backfill l m).getD b DevRec.zero).irPostscan.toNat + lengthSum l (b + 1) = total := by
  induction m generalizing l with
  | zero => have : b = 0 := by omega
            subst this; exact hm
  | succ m ih =>
    rcases Nat.lt_or_ge m b with h | h
    · have : b = m + 1 := by omega
      subst this
      obtain ⟨p, hp, hq⟩ := backfill_other l (m + 1) (m + 1)
      rw [hp, hq le_rfl]; exact hm
    · simp only [backfill]
      set r := l.getD (m + 1) DevRec.zero with hr
      set l' := l.modify m (fun q => { q with irPostscan := r.irPostscan + r.irLength.setWidth 16 }) with hl'
      have hsum : ∀ c, lengthSum l' c = lengthSum l c := by
        intro c
        induction c with
        | zero => rfl
        | succ c ih2 =>
          have : (l'.getD c DevRec.zero).irLength = (l.getD c DevRec.zero).irLength := by
            rw [hl', getD_modify]; split <;> rfl
          simp only [lengthSum, ih2, this]
      have e1 : lengthSum l (m + 1 + 1) = lengthSum l (m + 1) + r.irLength.toNat := rfl
      rw [← hsum (b + 1)]
      refine ih l' (by simp [hl']; omega) (by rw [hsum]; omega) ?_ h
      rw [hsum, hl', getD_modify, if_pos ⟨rfl, by omega⟩]
      show (r.irPostscan + r.irLength.setWidth 16).toNat + _ = _
      rw [BitVec.toNat_add, BitVec.toNat_setWidth]
      have := r.irLength.isLt
      omega

/-- The lowest matching descriptor is found (40_discovery.md R138). -/
theorem match_lowest (t : List Descriptor) (x : Word) (d : Nat) (h : d < t.length) (hm : x &&& t[d].mask =
    t[d].expected)
    (hl : ∀ (e : Nat) (he : e < d), x &&& t[e].mask ≠ t[e].expected) : matchDescriptor t x = some d := by
  induction t generalizing d with
  | nil => simp at h
  | cons c t ih =>
    unfold matchDescriptor
    cases d with
    | zero => exact if_pos hm
    | succ d =>
      rw [if_neg (show ¬ x &&& c.mask = c.expected from hl 0 (by omega))]
      rw [ih d (by simpa using h) hm (fun e he => hl (e+1) (by omega))]; rfl

/-- Where none matches, none is found. -/
theorem match_none (t : List Descriptor) (x : Word) (hl : ∀ e ∈ t, x &&& e.mask ≠ e.expected) : matchDescriptor t x =
    none := by
  induction t with
  | nil => rfl
  | cons c t ih =>
    unfold matchDescriptor
    rw [if_neg (hl c (by simp)), ih (fun e he => hl e (by simp [he]))]; rfl

/-- A descriptor that is found exists and matches. -/
theorem match_spec (l : List Descriptor) (x : Word) (d : Nat) (h : matchDescriptor l x = some d) : ∃ e, l[d]? =
    some e ∧ x &&& e.mask = e.expected := by
  induction l generalizing d with
  | nil => cases h
  | cons c l ih =>
    unfold matchDescriptor at h
    split at h
    · next hm => cases h; exact ⟨c, rfl, hm⟩
    · cases hq : matchDescriptor l x <;> rw [hq] at h <;> simp at h
      subst h
      obtain ⟨e, h1, h2⟩ := ih _ hq
      exact ⟨e, by simpa using h1, h2⟩

end Sys2Proof.Machine
end

