-- ==== Sys2Proof/Laws/Memory.lean ====
section
/-! SUPPORT. The laws of the buffers: a read after a write, and that every operation keeps the canonical form. -/
namespace Sys2Proof.Machine

variable {α : Type}

@[simp] theorem Memory.read_nil (a : Nat) : Memory.read ([] : Memory α) a = none := rfl

theorem Memory.read_cons (b : Nat) (v : α) (rest : Memory α) (a : Nat) :
    Memory.read ((b, v) :: rest) a = if a = b then some v else Memory.read rest a := rfl

/-- What a write does to every read. -/
theorem Memory.read_write (m : Memory α) (a b : Nat) (v : α) :
    (m.write a v).read b = if b = a then some v else m.read b := by
  induction m with
  | nil => simp [Memory.write, Memory.read]
  | cons e rest ih =>
    obtain ⟨c, w⟩ := e
    simp only [Memory.write]
    split
    · simp [Memory.read_cons]
    · split
      · next h => subst h; simp only [Memory.read_cons]; split <;> rfl
      · next hne =>
        simp only [Memory.read_cons, ih]
        split <;> split <;> simp_all

@[simp] theorem Memory.read_write_self (m : Memory α) (a : Nat) (v : α) : (m.write a v).read a = some v := by
  simp [Memory.read_write]

theorem Memory.read_write_ne (m : Memory α) {a b : Nat} (v : α) (h : b ≠ a) : (m.write a v).read b = m.read b := by
  simp [Memory.read_write, h]

/-- The indices after a write are the old ones and the one written. -/
theorem Memory.mem_index_write (m : Memory α) (a : Nat) (v : α) (b : Nat) :
    b ∈ (m.write a v).map Prod.fst → b = a ∨ b ∈ m.map Prod.fst := by
  induction m with
  | nil => simp [Memory.write]
  | cons e rest ih =>
    obtain ⟨c, w⟩ := e
    simp only [Memory.write]
    split
    · simp
    · split
      · next h => subst h; simp
      · simp only [List.map_cons, List.mem_cons]
        rintro (rfl | h)
        · simp
        · rcases ih h with rfl | h <;> simp_all

/-- A write keeps the canonical form. -/
theorem Memory.wf_write (m : Memory α) (a : Nat) (v : α) (h : m.wf) : (m.write a v).wf := by
  induction m with
  | nil => simp [Memory.write, Memory.wf]
  | cons e rest ih =>
    obtain ⟨c, w⟩ := e
    simp only [Memory.wf, List.map_cons, List.pairwise_cons] at h
    simp only [Memory.write]
    split
    · next hlt =>
      simp only [Memory.wf, List.map_cons, List.pairwise_cons, List.mem_cons]
      refine ⟨?_, h⟩
      rintro b (rfl | hb)
      · exact hlt
      · exact hlt.trans (h.1 b hb)
    · split
      · next heq => subst heq; simpa [Memory.wf] using h
      · simp only [Memory.wf, List.map_cons, List.pairwise_cons]
        refine ⟨fun b hb => ?_, ih h.2⟩
        rcases Memory.mem_index_write rest a v b hb with rfl | hb
        · omega
        · exact h.1 b hb

/-- What writing the low `count` bits of a vector does to every read (41_addressed_access.md R168). -/
theorem Memory.read_writeBits (m : Memory Bool) (v : Vec) (count b : Nat) :
    (m.writeBits v count).read b = if b < count then some (v.getLsbD b) else m.read b := by
  induction count with
  | zero => simp [Memory.writeBits]
  | succ c ih =>
    simp only [Memory.writeBits, Memory.read_write, ih]
    split
    · next h => subst h; simp
    · next h =>
      have : b < c ↔ b < c + 1 := by omega
      simp [this]

/-- Writing bits keeps the canonical form. -/
theorem Memory.wf_writeBits (m : Memory Bool) (v : Vec) (count : Nat) (h : m.wf) : (m.writeBits v count).wf := by
  induction count with
  | zero => exact h
  | succ c ih => exact Memory.wf_write _ _ _ ih

theorem Memory.wf_nil : Memory.wf ([] : Memory α) := by simp [Memory.wf]

end Sys2Proof.Machine
end

