-- ==== Sys2Proof/Laws/Step.lean ====
section
/-! SUPPORT. What a step can do, once: every invariant's proof cites `step_cases`. -/
namespace Sys2Proof.Machine

/-- What one move but RST can make of a state, in one line each. -/
inductive Moved (s : State) : State → Prop where
  /-- Nothing happens: a wait, an ignored response, an ignored store. -/
  | still : Moved s s
  /-- An internal phase runs (60_exceptions.md R202 (c)). -/
  | internal (hq : s.tapRequest = none) {t : State} (h : s.phaseStep TapResp.silent = .next t) : Moved s t
  /-- The driver completes the outstanding request (60_exceptions.md R202 (b)). -/
  | tap (q : TapReq) (resp : TapResp) (hq : s.tapRequest = some q) {t : State}
      (h : (s.completeRequest q).phaseStep resp = .next t) : Moved s t
  /-- A legal command word (60_exceptions.md R201). -/
  | command (i : Instr) (hw : i.wellFormed = true) {t : State} (h : Accepted s i t) : Moved s t
  /-- An illegal command word (60_exceptions.md R201). -/
  | illegal (w : Word) : Moved s (s.acceptIllegal w)
  /-- A store to ARG (10_state.md R32). -/
  | arg (v : Word) : Moved s { s with arg := v }
  /-- A store to HINT, outside BUSY (20_memory.md R64, 70_reset_and_hazards.md R236). -/
  | hint (hb : s.mode ≠ .busy) (q : Nat) (v : Word) : Moved s
      ((((s.storeHintByte (4 * q) (v.extractLsb' 0 8)).storeHintByte (4 * q + 1) (v.extractLsb' 8 8)).storeHintByte
        (4 * q + 2) (v.extractLsb' 16 8)).storeHintByte (4 * q + 3) (v.extractLsb' 24 8))
  /-- A store to DIN, outside BUSY (10_state.md R36, 70_reset_and_hazards.md R236). -/
  | din (hb : s.mode ≠ .busy) (w : Nat) (hw : w < s.params.maxDrWords) (v : Word) : Moved s
      { s with din := s.din.write w v }
  /-- A load (20_memory.md R66). -/
  | load (v : Word) : Moved s (s.emit (.loadData v))

theorem storeCmd_moved {s t : State} {w : Word} (h : s.storeCmd w = .next t) : Moved s t := by
  unfold State.storeCmd at h
  split at h
  · next i hd =>
    obtain ⟨u, hu, ha⟩ := exec_cases i s
    cases hu.symm.trans h
    exact .command i (decode_wellFormed hd) ha
  · cases h; exact .illegal w

theorem storeAt_moved {s t : State} {off : Nat} {v : Word} (h : s.storeAt off v = .next t) : Moved s t := by
  unfold State.storeAt at h
  split at h
  · exact storeCmd_moved h
  split at h
  · cases h; exact .arg v
  split at h
  · cases h; exact .still
  split at h
  · unfold State.storeHint at h
    split at h
    · cases h; exact .still
    split at h
    · cases h
    · next hb => cases h; exact .hint hb _ v
  split at h
  · unfold State.storeDin at h
    split at h
    · cases h; exact .still
    split at h
    · cases h
    · next hw hb => cases h; exact .din hb _ (by omega) v
  · cases h; exact .still

theorem hostAccess_moved {s t : State} {a : Access} (h : s.hostAccess a = .next t) : Moved s t := by
  unfold State.hostAccess at h
  split at h
  · split at h
    · cases h
    split at h
    · unfold State.loadOut at h
      split at h
      · cases h; exact .load _
      · cases h
    · cases h
  · split at h
    · cases h
    split at h
    · exact storeAt_moved h
    · cases h

theorem tapStep_moved {s t : State} {resp : TapResp} (h : s.tapStep resp = .next t) : Moved s t := by
  unfold State.tapStep at h
  split at h
  · cases h; exact .still
  · next q hq => exact .tap q (q.received s.params resp) hq h

theorem coreStep_moved {s t : State} (h : s.coreStep = .next t) : Moved s t := by
  unfold State.coreStep at h
  split at h
  · next hq => exact .internal hq h
  · cases h; exact .still

theorem move_moved {s t : State} {m : Move} (hm : m ≠ .rst) (h : s.move m = .next t) : Moved s t := by
  cases m with
  | host a => exact hostAccess_moved h
  | tap resp => exact tapStep_moved h
  | core => exact coreStep_moved h
  | rst => exact absurd rfl hm

/-- A step that answers a next state takes the next move, if there is one: RST resets the block (70_reset_and_hazards.md
R230), any other move does what `Moved` lists. -/
theorem step_cases {s t : State} (h : step s = .next t) :
    (s.env.head? = some .rst ∧ t = (s.withEnv s.env.tail).blockReset) ∨
    (s.env.head? ≠ some .rst ∧ Moved (s.withEnv s.env.tail) t) := by
  unfold step at h
  split at h
  · next he =>
    have : s.withEnv s.env.tail = s := by cases s; cases he; rfl
    exact .inr ⟨by simp [he], this.symm ▸ coreStep_moved h⟩
  · next m rest he =>
    rw [he]
    by_cases hm : m = .rst
    · subst hm
      cases h
      exact .inl ⟨rfl, rfl⟩
    · exact .inr ⟨by simpa using hm, move_moved hm h⟩

end Sys2Proof.Machine
end

