-- ==== Sys2Proof/Laws/Invariant.lean ====
section
/-! SUPPORT. The phase invariant (`State.PhaseInv`): which fields it depends on, and that the effect of each phase leads to a
state in which the next phase's part of it holds. -/
namespace Sys2Proof.Machine

variable {s : State} {resp : TapResp}

/-! ### Facts that depend on the table, the parameters and the counters alone -/

theorem IrDone.congr {s t : State} {m : Nat} (hp : t.params = s.params)
    (h : ∀ a, a < m → (t.slot a).irLength = (s.slot a).irLength ∧ (t.slot a).irPrescan = (s.slot a).irPrescan)
    (hs : s.IrDone m) : t.IrDone m := by
  intro a ha
  obtain ⟨h1, h2⟩ := h a ha
  rw [h1, h2, hp, irSum_congr (s := s) fun b hb => (h b (by omega)).1]
  exact hs a ha

theorem DrDone.congr {s t : State} {m c : Nat}
    (h : ∀ a, a < m → (t.slot a).drPrescan = (s.slot a).drPrescan ∧ (t.slot a).drPostscan = (s.slot a).drPostscan)
    (hs : s.DrDone m c) : t.DrDone m c := by
  intro a ha
  rw [(h a ha).1, (h a ha).2]
  exact hs a ha

theorem PostDone.congr {s t : State} {m : Nat}
    (h : ∀ a, a < m → (t.slot a).irLength = (s.slot a).irLength ∧ (t.slot a).irPostscan = (s.slot a).irPostscan)
    (hs : s.PostDone m) : t.PostDone m := by
  intro a ha
  rw [(h a ha).2, irSum_congr (s := s) fun b hb => (h b (by omega)).1,
    irSum_congr (s := s) fun b hb => (h b (by omega)).1]
  exact hs a ha

/-- The fields of a record that addressing reads. -/
def DevRec.SameOffsets (r q : DevRec) : Prop :=
  r.irLength = q.irLength ∧ r.irPrescan = q.irPrescan ∧ r.irPostscan = q.irPostscan ∧ r.drPrescan = q.drPrescan ∧
    r.drPostscan = q.drPostscan

theorem TableFinal.congr {s t : State} (hp : t.params = s.params) (hc : t.deviceCount = s.deviceCount)
    (h : ∀ a, a < s.deviceCount.toNat → (t.slot a).SameOffsets (s.slot a))
    (hz : t.slot s.params.maxDevs = s.slot s.params.maxDevs) (hs : s.TableFinal) : t.TableFinal := by
  refine ⟨?_, ?_, ?_, ?_, ?_⟩
  · rw [hc, hp]; exact hs.count_le
  · rw [hc]; exact IrDone.congr hp (hs := hs.ir) fun a ha => ⟨(h a ha).1, (h a ha).2.1⟩
  · rw [hc]; exact DrDone.congr (hs := hs.dr) fun a ha => ⟨(h a ha).2.2.2.1, (h a ha).2.2.2.2⟩
  · rw [hc]; exact PostDone.congr (hs := hs.post) fun a ha => ⟨(h a ha).1, (h a ha).2.2.1⟩
  · show t.slot t.params.maxDevs = DevRec.zero
    rw [hp, hz]; exact hs.sentinel

/-! ### One phase after another -/

theorem at_phase {p : Phase} (hp : s.phase = p) (h : s.PhaseInv) : (s.goto p).PhaseInv := by
  subst hp; exact h

theorem sentinel_modify {a : Nat} {f : DevRec → DevRec} (h : s.SentinelZero) (ha : a ≠ s.params.maxDevs) :
    (s.modifySlot a f).SentinelZero := by
  show (s.modifySlot a f).slot s.params.maxDevs = _
  rw [slot_modifySlot_ne _ _ ha]; exact h

theorem forall_modify {P : DevRec → Prop} {a : Nat} {f : DevRec → DevRec} (h : ∀ b, P (s.slot b))
    (hf : ∀ r, P r → P (f r)) : ∀ b, P ((s.modifySlot a f).slot b) := by
  intro b
  rw [slot_modifySlot]
  split
  · exact hf _ (h b)
  · exact h b

theorem zero_onlyIdcode : DevRec.zero.OnlyIdcode := rfl

theorem DevRec.OnlyIdcode.onlyIr {r : DevRec} (h : r.OnlyIdcode) : r.OnlyIr := by
  have := congrArg (fun q : DevRec => { q with irLength := 0#8, irPrescan := 0#16 }) h
  exact this

theorem DevRec.OnlyIr.onlyIrDr {r : DevRec} (h : r.OnlyIr) : r.OnlyIrDr := by
  have := congrArg (fun q : DevRec => { q with drPrescan := 0#8, drPostscan := 0#8 }) h
  exact this

theorem keeps_scClear (hI : s.PhaseInv) (hp : s.phase = .scClear) : s.phaseScClear.PhaseInv := by
  have h : s.hookActive = false := by
    unfold State.PhaseInv at hI; rw [hp] at hI; exact hI.2
  unfold State.phaseScClear
  cases ht : s.tapReady
  · exact ⟨⟨rfl, h, slot_clearTable (s.emit .downstreamRelease) _⟩,
      fun a => slot_clearTable (s.emit .downstreamRelease) a, ht⟩
  · exact ⟨⟨rfl, h, slot_clearTable (s.emit .downstreamRelease) _⟩,
      fun a => slot_clearTable (s.emit .downstreamRelease) a, ht⟩

theorem keeps_scInit (hI : s.PhaseInv) (hp : s.phase = .scInit) : (s.phaseScInit resp).PhaseInv := by
  have h : s.Building ∧ (∀ a, s.slot a = DevRec.zero) ∧ s.tapReady = false := by
    unfold State.PhaseInv at hI; rw [hp] at hI; exact hI
  unfold State.phaseScInit
  simp only [h.2.2, Bool.false_eq_true, if_false]
  split
  · exact ⟨⟨h.1.1, h.1.2, h.1.3⟩, h.2.1, rfl⟩
  · exact ⟨h.1.1, h.1.2, ⟨fun _ => h.2.2, fun _ => rfl⟩⟩

theorem keeps_scReset (hI : s.PhaseInv) (hp : s.phase = .scReset) : s.phaseScReset.PhaseInv := by
  obtain ⟨h1, h2, h3⟩ : s.Building ∧ (∀ a, s.slot a = DevRec.zero) ∧ s.tapReady = true := by
    unfold State.PhaseInv at hI; rw [hp] at hI; exact hI
  exact ⟨⟨h1.1, h1.2, h1.3⟩, h2, h3⟩

theorem keeps_idEnter (hI : s.PhaseInv) (hp : s.phase = .idEnter) : s.phaseIdEnter.PhaseInv := by
  obtain ⟨h1, h2, h3⟩ : s.Building ∧ (∀ a, s.slot a = DevRec.zero) ∧ s.tapReady = true := by
    unfold State.PhaseInv at hI; rw [hp] at hI; exact hI
  refine ⟨⟨h1.1, h1.2, h1.3⟩, fun a => ?_, h3, Nat.zero_le _⟩
  show (s.slot a).OnlyIdcode
  rw [h2 a]; exact zero_onlyIdcode

theorem keeps_idShift (hS : s.Shape) (hI : s.PhaseInv) (hp : s.phase = .idShift) : (s.phaseIdShift resp).PhaseInv := by
  obtain ⟨h1, h2, h3, h4⟩ : s.Building ∧ (∀ a, (s.slot a).OnlyIdcode) ∧ s.tapReady = true ∧
      s.n.toNat ≤ s.params.maxDevs := by
    unfold State.PhaseInv at hI; rw [hp] at hI; exact hI
  have hM := hS.legal.devs_le
  unfold State.phaseIdShift
  split
  · exact ⟨⟨h1.1, h1.2, h1.3⟩, h2, h3⟩
  · have hn : (s.n + 1#9).toNat = s.n.toNat + 1 := toNat_succ9 (by omega)
    split
    · exact ⟨h1.1, h1.2, h3, ErrCode.noConfusion⟩
    · have hlt : s.n.toNat < s.params.maxDevs := by omega
      unfold State.PhaseInv
      simp only [recordIdcode_phase, hp]
      refine ⟨⟨h1.1, h1.2, sentinel_modify h1.3 (by omega)⟩, forall_modify h2 fun r hr => hr, h3, ?_⟩
      show (s.n + 1#9).toNat ≤ s.params.maxDevs
      omega

theorem keeps_idExit (hI : s.PhaseInv) (hp : s.phase = .idExit) : s.phaseIdExit.PhaseInv := by
  obtain ⟨h1, h2, h3⟩ : s.Building ∧ (∀ a, (s.slot a).OnlyIdcode) ∧ s.tapReady = true := by
    unfold State.PhaseInv at hI; rw [hp] at hI; exact hI
  exact ⟨⟨h1.1, h1.2, h1.3⟩, h2, h3⟩

theorem keeps_idIdle (hI : s.PhaseInv) (hp : s.phase = .idIdle) : s.phaseIdIdle.PhaseInv := by
  obtain ⟨h1, h2, h3⟩ : s.Building ∧ (∀ a, (s.slot a).OnlyIdcode) ∧ s.tapReady = true := by
    unfold State.PhaseInv at hI; rw [hp] at hI; exact hI
  exact ⟨⟨h1.1, h1.2, h1.3⟩, h2, h3⟩

/-- What the hinted loop relies on at each turn. -/
structure State.HintLoop (s : State) : Prop where
  building : s.Building
  only : ∀ a, (s.slot a).OnlyIr
  ready : s.tapReady = true
  cursor : s.k.toNat ≤ s.params.maxDevs
  done : s.IrDone s.k.toNat
  sum : s.pre.toNat = s.irSum s.k.toNat

theorem keeps_enterHint (h : s.HintLoop) : s.enterHint.PhaseInv := by
  unfold State.enterHint
  have hlt : s.hintEntry ≠ .stop → s.k.toNat < s.params.maxDevs := by
    intro hne
    by_contra hc
    exact hne (by unfold State.hintEntry; rw [if_pos (by omega)])
  cases he : s.hintEntry with
  | stop => dsimp only; exact ⟨⟨h.1.1, h.1.2, h.1.3⟩, h.2, h.3, h.4, h.5⟩
  | range => dsimp only; exact ⟨h.1.1, h.1.2, h.3, ErrCode.noConfusion⟩
  | unwritten => dsimp only; exact ⟨⟨h.1.1, h.1.2, h.1.3⟩, h.2, h.3, hlt (by simp [he]), h.5, h.6⟩
  | length b => dsimp only; exact ⟨⟨h.1.1, h.1.2, h.1.3⟩, h.2, h.3, hlt (by simp [he]), h.5, h.6⟩

theorem keeps_irEnter (hI : s.PhaseInv) (hp : s.phase = .irEnter) : s.phaseIrEnter.PhaseInv := by
  obtain ⟨h1, h2, h3⟩ : s.Building ∧ (∀ a, (s.slot a).OnlyIdcode) ∧ s.tapReady = true := by
    unfold State.PhaseInv at hI; rw [hp] at hI; exact hI
  unfold State.phaseIrEnter
  split
  · refine keeps_enterHint ⟨⟨h1.1, h1.2, h1.3⟩, fun a => DevRec.OnlyIdcode.onlyIr (h2 a), h3, Nat.zero_le _, ?_, rfl⟩
    intro a ha
    exact absurd ha (Nat.not_lt_zero a)
  · exact ⟨⟨h1.1, h1.2, h1.3⟩, h2, h3⟩

/-- Recording slot `m`'s length and the sum before it makes one more record done. -/
theorem irDone_record {t : State} {m : Nat} {len : BitVec 8} {pre : BitVec 16}
    (ht : ∀ a, t.slot a = (s.modifySlot m fun r => { r with irLength := len, irPrescan := pre }).slot a)
    (hpar : t.params = s.params)
    (hd : s.IrDone m) (hs : pre.toNat = s.irSum m) (hm : m < s.table.length)
    (h1 : 1 ≤ len.toNat) (h2 : len.toNat ≤ s.params.maxIrLen) :
    t.IrDone (m + 1) ∧ t.irSum (m + 1) = s.irSum m + len.toNat := by
  have hself : t.slot m = { s.slot m with irLength := len, irPrescan := pre } := by
    rw [ht, slot_modifySlot_self _ _ hm]
  have hlow : ∀ a, a < m → t.slot a = s.slot a := fun a ha => by
    rw [ht, slot_modifySlot_ne _ _ (by omega)]
  have hsum : ∀ a, a ≤ m → t.irSum a = s.irSum a := fun a ha =>
    irSum_congr fun b hb => by rw [hlow b (by omega)]
  refine ⟨fun a ha => ?_, ?_⟩
  · rw [hsum a (by omega), hpar]
    rcases Nat.lt_or_ge a m with h | h
    · rw [hlow a h]; exact hd a h
    · have : a = m := by omega
      subst this
      rw [hself]; exact ⟨h1, h2, hs⟩
  · simp only [irSum_succ, hself, hsum m le_rfl]

theorem sum_add {pre : BitVec 16} {len : BitVec 8} {m : Nat} (hS : s.Shape) (hd : s.IrDone m)
    (hm : m ≤ s.params.maxDevs) (hs : pre.toNat = s.irSum m) (h2 : len.toNat ≤ s.params.maxIrLen) :
    (pre + len.setWidth 16).toNat = s.irSum m + len.toNat := by
  have hle := irSum_le s hd
  have hM := hS.legal.devs_le
  have hL := hS.legal.irLen_le
  have : m * s.params.maxIrLen ≤ 255 * 32 := Nat.mul_le_mul (by omega) hL
  rw [BitVec.toNat_add, BitVec.toNat_setWidth, hs]
  omega

theorem keeps_irHint (hS : s.Shape) (hI : s.PhaseInv) (hp : s.phase = .irHint) {t : State}
    (ht : s.phaseIrHint resp = .next t) : t.PhaseInv := by
  obtain ⟨h1, h2, h3, h4, h5, h6⟩ : s.Building ∧ (∀ a, (s.slot a).OnlyIr) ∧ s.tapReady = true ∧
      s.k.toNat < s.params.maxDevs ∧
      s.IrDone s.k.toNat ∧ s.pre.toNat = s.irSum s.k.toNat := by
    unfold State.PhaseInv at hI; rw [hp] at hI; exact hI
  have hM := hS.legal.devs_le
  unfold State.phaseIrHint at ht
  cases he : s.hintEntry with
  | unwritten => simp [he] at ht
  | stop => simp only [he, Host.Outcome.next.injEq] at ht; subst ht; exact keeps_enterHint ⟨h1, h2, h3, by omega, h5,
      h6⟩
  | range => simp only [he, Host.Outcome.next.injEq] at ht; subst ht; exact keeps_enterHint ⟨h1, h2, h3, by omega,
      h5, h6⟩
  | length h =>
    simp only [he, Host.Outcome.next.injEq] at ht; subst ht
    obtain ⟨hk, -, hl1, hl2⟩ := hintEntry_length he
    have hk1 : (s.k + 1#9).toNat = s.k.toNat + 1 := toNat_succ9 (by omega)
    obtain ⟨d1, d2⟩ := irDone_record (t := s.recordHint h resp) (fun
        a => rfl) rfl h5 h6 (by have := hS.slots; omega) hl1 hl2
    refine keeps_enterHint ⟨⟨h1.1, h1.2, sentinel_modify h1.3 (by omega)⟩, forall_modify h2 fun r hr => hr, h3, ?_,
        ?_, ?_⟩
    · simp only [recordHint_k, recordHint_params]; omega
    · simp only [recordHint_k, hk1]; exact d1
    · simp only [recordHint_k, hk1, recordHint_pre, d2]
      exact sum_add hS h5 (by omega) h6 hl2

theorem keeps_irFirst (hS : s.Shape) (hI : s.PhaseInv) (hp : s.phase = .irFirst) : (s.phaseIrFirst resp).PhaseInv := by
  obtain ⟨h1, h2, h3⟩ : s.Building ∧ (∀ a, (s.slot a).OnlyIdcode) ∧ s.tapReady = true := by
    unfold State.PhaseInv at hI; rw [hp] at hI; exact hI
  refine ⟨⟨h1.1, h1.2, h1.3⟩, fun a => DevRec.OnlyIdcode.onlyIr (h2 a), h3, Nat.zero_le _, le_rfl,
      hS.legal.irLen_pos, ?_, rfl⟩
  intro a ha
  exact absurd ha (Nat.not_lt_zero a)

theorem keeps_irProbe (hS : s.Shape) (hI : s.PhaseInv) (hp : s.phase = .irProbe) : (s.phaseIrProbe resp).PhaseInv := by
  obtain ⟨h1, h2, h3, h4, h5, h6, h7, h8⟩ : s.Building ∧ (∀ a, (s.slot a).OnlyIr) ∧ s.tapReady = true ∧
      s.dev.toNat ≤ s.params.maxDevs ∧
      1 ≤ s.len.toNat ∧ s.len.toNat ≤ s.params.maxIrLen ∧ s.IrDone s.dev.toNat ∧ s.pre.toNat = s.irSum s.dev.toNat := by
    unfold State.PhaseInv at hI; rw [hp] at hI; exact hI
  have hM := hS.legal.devs_le
  have hL := hS.legal.irLen_le
  unfold State.phaseIrProbe
  split
  · split
    · exact ⟨⟨h1.1, h1.2, h1.3⟩, h2, h3, h4, h7⟩
    · have hd1 : (s.dev + 1#9).toNat = s.dev.toNat + 1 := toNat_succ9 (by omega)
      split
      · exact ⟨h1.1, h1.2, h3, ErrCode.noConfusion⟩
      · have hlt : s.dev.toNat < s.params.maxDevs := by omega
        obtain ⟨d1, d2⟩ := irDone_record (s := s) (t := s.recordProbe) (fun a => rfl) rfl h7 h8
          (by have := hS.slots; omega) h5 h6
        unfold State.PhaseInv
        simp only [recordProbe_phase, hp]
        refine ⟨⟨h1.1, h1.2, sentinel_modify h1.3 (by omega)⟩, forall_modify h2 fun r hr => hr, h3, ?_, le_rfl,
            hS.legal.irLen_pos, ?_, ?_⟩
        · show (s.dev + 1#9).toNat ≤ s.params.maxDevs
          omega
        · simp only [recordProbe_dev, hd1]; exact d1
        · simp only [recordProbe_dev, recordProbe_pre, hd1]
          refine Eq.trans ?_ d2.symm
          exact sum_add hS h7 h4 h8 h6
  · have hl1 : (s.len + 1#8).toNat = s.len.toNat + 1 := by rw [BitVec.toNat_add]; simp; omega
    split
    · exact ⟨h1.1, h1.2, h3, ErrCode.noConfusion⟩
    · unfold State.PhaseInv
      simp only [countIrBit_phase, hp]
      exact ⟨⟨h1.1, h1.2, h1.3⟩, h2, h3,
          h4, by show 1 ≤ (s.len + 1#8).toNat; omega, by show (s.len + 1#8).toNat ≤ s.params.maxIrLen; omega, h7, h8⟩

theorem keeps_irExit (hI : s.PhaseInv) (hp : s.phase = .irExit) : s.phaseIrExit.PhaseInv := by
  obtain ⟨h1, h2⟩ : s.Building ∧ (∀ a, (s.slot a).OnlyIr) ∧ s.tapReady = true ∧ s.cnt.toNat ≤ s.params.maxDevs ∧
      s.IrDone s.cnt.toNat := by
    unfold State.PhaseInv at hI; rw [hp] at hI; exact hI
  exact ⟨⟨h1.1, h1.2, h1.3⟩, h2⟩

theorem keeps_irIdle (hI : s.PhaseInv) (hp : s.phase = .irIdle) : s.phaseIrIdle.PhaseInv := by
  obtain ⟨h1, h2⟩ : s.Building ∧ (∀ a, (s.slot a).OnlyIr) ∧ s.tapReady = true ∧ s.cnt.toNat ≤ s.params.maxDevs ∧
      s.IrDone s.cnt.toNat := by
    unfold State.PhaseInv at hI; rw [hp] at hI; exact hI
  exact ⟨⟨h1.1, h1.2, h1.3⟩, h2⟩

theorem keeps_drEnter (hI : s.PhaseInv) (hp : s.phase = .drEnter) : s.phaseDrEnter.PhaseInv := by
  obtain ⟨h1, h2, h3, h4, h5⟩ : s.Building ∧ (∀ a, (s.slot a).OnlyIr) ∧ s.tapReady = true ∧
      s.cnt.toNat ≤ s.params.maxDevs ∧
      s.IrDone s.cnt.toNat := by
    unfold State.PhaseInv at hI; rw [hp] at hI; exact hI
  refine ⟨⟨h1.1, h1.2, h1.3⟩, fun a => DevRec.OnlyIr.onlyIrDr (h2 a), h3, h4, h5, Nat.zero_le _, ?_⟩
  intro a ha
  exact absurd ha (Nat.not_lt_zero a)

theorem keeps_drCount (hS : s.Shape) (hI : s.PhaseInv) (hp : s.phase = .drCount) : (s.phaseDrCount resp).PhaseInv := by
  obtain ⟨h1, h2, h3, h4, h5, h6, h7⟩ : s.Building ∧ (∀ a, (s.slot a).OnlyIrDr) ∧ s.tapReady = true ∧
      s.cnt.toNat ≤ s.params.maxDevs ∧
      s.IrDone s.cnt.toNat ∧ s.i.toNat ≤ s.cnt.toNat ∧ s.DrDone s.i.toNat s.cnt.toNat := by
    unfold State.PhaseInv at hI; rw [hp] at hI; exact hI
  have hM := hS.legal.devs_le
  unfold State.phaseDrCount
  split
  · split
    · next heq => exact ⟨⟨h1.1, h1.2, h1.3⟩, h2, h3, h4, h5, by rw [heq] at h7; exact h7⟩
    · exact ⟨h1.1, h1.2, h3, ErrCode.noConfusion⟩
  · split
    · exact ⟨h1.1, h1.2, h3, ErrCode.noConfusion⟩
    · next hne =>
      have hlt : s.i.toNat < s.cnt.toNat := by
        rcases Nat.lt_or_ge s.i.toNat s.cnt.toNat with h | h
        · exact h
        · exact absurd (BitVec.eq_of_toNat_eq (by omega)) hne
      have hi1 : (s.i + 1#9).toNat = s.i.toNat + 1 := toNat_succ9 (by omega)
      unfold State.PhaseInv
      simp only [recordDr_phase, hp]
      refine ⟨⟨h1.1, h1.2, sentinel_modify h1.3 (by omega)⟩, forall_modify h2 fun r hr => hr, h3, h4, ?_, ?_, ?_⟩
      · refine IrDone.congr (s := s) rfl (fun a _ => ?_) h5
        show ((s.modifySlot _ _).slot a).irLength = _ ∧ ((s.modifySlot _ _).slot a).irPrescan = _
        rw [slot_modifySlot]; split <;> exact ⟨rfl, rfl⟩
      · show (s.i + 1#9).toNat ≤ s.cnt.toNat
        omega
      · simp only [recordDr_i, recordDr_cnt, hi1]
        intro a ha
        show ((s.modifySlot _ _).slot a).drPrescan.toNat = a ∧ ((s.modifySlot _ _).slot a).drPostscan.toNat = _
        rw [slot_modifySlot]
        split
        · next hc =>
          obtain ⟨rfl, -⟩ := hc
          constructor
          · show (s.i.setWidth 8).toNat = _
            rw [BitVec.toNat_setWidth]; omega
          · show ((s.cnt - s.i - 1#9).setWidth 8).toNat = _
            rw [BitVec.toNat_setWidth, BitVec.toNat_sub, BitVec.toNat_sub]
            simp; omega
        · next hc => 
          have hs := hS.slots
          exact h7 a (by omega)

theorem keeps_drExit (hI : s.PhaseInv) (hp : s.phase = .drExit) : s.phaseDrExit.PhaseInv := by
  obtain ⟨h1, h2⟩ : s.Building ∧ (∀ a, (s.slot a).OnlyIrDr) ∧ s.tapReady = true ∧ s.cnt.toNat ≤ s.params.maxDevs ∧
      s.IrDone s.cnt.toNat ∧ s.DrDone s.cnt.toNat s.cnt.toNat := by
    unfold State.PhaseInv at hI; rw [hp] at hI; exact hI
  exact ⟨⟨h1.1, h1.2, h1.3⟩, h2⟩

theorem keeps_drIdle (hS : s.Shape) (hI : s.PhaseInv) (hp : s.phase = .drIdle) : s.phaseDrIdle.PhaseInv := by
  obtain ⟨h1, h2, h3, h4, h5⟩ : s.Building ∧ (∀ a, (s.slot a).OnlyIrDr) ∧ s.tapReady = true ∧
      s.cnt.toNat ≤ s.params.maxDevs ∧
      s.IrDone s.cnt.toNat ∧ s.DrDone s.cnt.toNat s.cnt.toNat := by
    unfold State.PhaseInv at hI; rw [hp] at hI; exact hI
  refine ⟨h1.2, h1.3, h2, h4, ?_, h5⟩
  have hM := hS.legal.devs_le
  show (s.cnt.setWidth 8).toNat = s.cnt.toNat
  rw [BitVec.toNat_setWidth]; omega

theorem OnlyIrDr.post {r : DevRec} (h : r.OnlyIrDr) : r.irPostscan = 0#16 := congrArg DevRec.irPostscan h

theorem keeps_scPost (hS : s.Shape) (hI : s.PhaseInv) (hp : s.phase = .scPost) : s.phaseScPost.PhaseInv := by
  obtain ⟨h1, h2, h3, h5, h6, h7, h8⟩ : s.hookActive = false ∧ s.SentinelZero ∧ (∀ a, (s.slot a).OnlyIrDr) ∧
      s.cnt.toNat ≤ s.params.maxDevs ∧ s.deviceCount.toNat = s.cnt.toNat ∧ s.IrDone s.cnt.toNat ∧
      s.DrDone s.cnt.toNat s.cnt.toNat := by
    unfold State.PhaseInv at hI; rw [hp] at hI; exact hI
  have hM := hS.legal.devs_le
  have hL := hS.legal.irLen_le
  have hT := hS.slots
  have hso : ∀ b, ∃ p, s.recordPostscan.slot b = { s.slot b with irPostscan := p } ∧ (s.cnt.toNat - 1 ≤ b → p =
      (s.slot b).irPostscan) :=
    fun b => backfill_other s.table _ b
  have hlen : ∀ b, (s.recordPostscan.slot b).irLength = (s.slot b).irLength := fun b => by
    obtain ⟨p, hq, -⟩ := hso b; rw [hq]
  have hsum : ∀ m, s.recordPostscan.irSum m = s.irSum m := fun m => irSum_congr fun a _ => hlen a
  have hfin : s.recordPostscan.TableFinal := by
    refine ⟨?_, ?_, ?_, ?_, ?_⟩
    · simp only [recordPostscan_deviceCount, recordPostscan_params]; omega
    · simp only [recordPostscan_deviceCount, h6]
      refine IrDone.congr (s := s) rfl (fun a _ => ?_) h7
      obtain ⟨p, hq, -⟩ := hso a; rw [hq]; exact ⟨rfl, rfl⟩
    · simp only [recordPostscan_deviceCount, h6]
      refine DrDone.congr (s := s) (fun a _ => ?_) h8
      obtain ⟨p, hq, -⟩ := hso a; rw [hq]; exact ⟨rfl, rfl⟩
    · simp only [recordPostscan_deviceCount, h6]
      intro a ha
      rw [hsum, hsum]
      have hle := irSum_le s h7
      have : s.cnt.toNat * s.params.maxIrLen ≤ 255 * 32 := Nat.mul_le_mul (by omega) hL
      have hc : s.cnt.toNat - 1 + 1 = s.cnt.toNat := by omega
      refine backfill_post s.table (s.cnt.toNat - 1) (s.irSum s.cnt.toNat) (by omega) ?_ (by omega) ?_ a (by omega)
      · rw [hc]; exact le_rfl
      · have hz : (s.table.getD (s.cnt.toNat - 1) DevRec.zero).irPostscan = 0#16 := OnlyIrDr.post (h3 _)
        rw [hz, hc]; exact Nat.zero_add _
    · obtain ⟨p, hq, hr⟩ := hso s.params.maxDevs
      show s.recordPostscan.slot s.params.maxDevs = _
      rw [hq, hr (by omega)]; exact h2
  unfold State.phaseScPost
  split
  · exact ⟨⟨hfin.1, hfin.2, hfin.3, hfin.4, hfin.5⟩, h1⟩
  · exact ⟨⟨hfin.1, hfin.2, hfin.3, hfin.4, hfin.5⟩, h1, h6, Nat.zero_le _⟩

theorem keeps_scClassify (hS : s.Shape) (hI : s.PhaseInv) (hp : s.phase =
    .scClassify) : s.phaseScClassify.PhaseInv := by
  obtain ⟨h1, h2, h4, h5⟩ : s.TableFinal ∧ s.hookActive = false ∧ s.deviceCount.toNat = s.cnt.toNat ∧
      s.j.toNat ≤ s.cnt.toNat := by
    unfold State.PhaseInv at hI; rw [hp] at hI; exact hI
  have hM := hS.legal.devs_le
  have hN := h1.count_le
  have hj1 : (s.j + 1#9).toNat = s.j.toNat + 1 := toNat_succ9 (by omega)
  unfold State.phaseScClassify
  split
  · exact ⟨⟨h1.1, h1.2, h1.3, h1.4, h1.5⟩, h2⟩
  · next hlt =>
    split
    · next d hd =>
      have hsl : ∀ a, ((s.invokeHook d).slot a) = if s.j.toNat = a ∧ a < s.table.length then
          { s.slot a with curKnown := false, descValid := true, descIdx := BitVec.ofNat 8 d } else s.slot a :=
        fun a => slot_modifySlot s s.j.toNat a _
      refine ⟨TableFinal.congr (s := s) rfl rfl (fun a _ => ?_) ?_ h1, rfl,
          h4.symm, by show s.j.toNat < s.cnt.toNat; omega, ?_⟩
      · rw [hsl]; split <;> exact ⟨rfl, rfl, rfl, rfl, rfl⟩
      · rw [hsl, if_neg (by omega)]
      · show (s.j.setWidth 8).toNat = s.j.toNat
        rw [BitVec.toNat_setWidth]; omega
    · split
      · exact ⟨⟨h1.1, h1.2, h1.3, h1.4, h1.5⟩, h2⟩
      · unfold State.PhaseInv
        simp only [nextDevice_phase, hp]
        exact ⟨⟨h1.1, h1.2, h1.3, h1.4, h1.5⟩, h2, h4, by show (s.j + 1#9).toNat ≤ s.cnt.toNat; omega⟩

theorem keeps_failExit (hI : s.PhaseInv) (hp : s.phase = .failExit) : s.phaseFailExit.PhaseInv := by
  unfold State.PhaseInv at hI; rw [hp] at hI; exact hI

theorem keeps_failIdle (hI : s.PhaseInv) (hp : s.phase = .failIdle) : s.phaseFailIdle.PhaseInv := by
  unfold State.PhaseInv at hI; rw [hp] at hI
  obtain ⟨h1, h2, h3, h4⟩ := hI
  exact ⟨h1, h2, ⟨fun h => absurd h h4, fun h => absurd (h3.symm.trans h) (by decide)⟩⟩

theorem tableFinal_clear {t : State} (hc : t.deviceCount = 0#8) (hz : t.slot t.params.maxDevs =
    DevRec.zero) : t.TableFinal := by
  have : t.deviceCount.toNat = 0 := by rw [hc]; rfl
  refine ⟨by omega, ?_, ?_, ?_, hz⟩ <;> (intro a ha; omega)

theorem keeps_failClear (hI : s.PhaseInv) (hp : s.phase = .failClear) : s.phaseFailClear.PhaseInv := by
  unfold State.PhaseInv at hI; rw [hp] at hI
  exact ⟨tableFinal_clear rfl (slot_clearTable s _), hI.2.1⟩

theorem Addressing.goto (h : s.Addressing) (p : Phase) : (s.goto p).Addressing := by
  refine ⟨⟨h.1.1, h.1.2, h.1.3, h.1.4, h.1.5⟩, h.2, ?_⟩
  have := h.3
  simp only [goto_fromHook, goto_hookActive]
  split at this
  · next hh => simp only [hh, if_true]; exact ⟨this.1, this.2, this.3, this.4⟩
  · next hh => simp only [hh]; exact this

theorem Shifting.goto (h : s.Shifting) (p : Phase) : (s.goto p).Shifting := ⟨Addressing.goto h.1 p, h.2, h.3⟩

/-- A completing addressed command goes back to the mode it came from, and that mode's invariant holds. -/
theorem keeps_complete {r : Word} (h : s.Addressing) : (s.complete r).PhaseInv := by
  have h3 := h.3
  unfold State.PhaseInv
  simp only [complete_phase, State.home]
  split at h3
  · next hh => simp only [hh, if_true]; exact ⟨⟨h.1.1, h.1.2, h.1.3, h.1.4, h.1.5⟩, h3.1, h3.2, h3.3, h3.4⟩
  · next hh => simp only [hh]; exact ⟨⟨h.1.1, h.1.2, h.1.3, h.1.4, h.1.5⟩, h3⟩

theorem wi_at {p : Phase} (h : s.Addressing) (hp : p = .wiEnter ∨ p = .wiPre ∨ p = .wiVal ∨ p = .wiIdle) :
    (s.goto p).PhaseInv := by
  have := Addressing.goto h p
  rcases hp with rfl | rfl | rfl | rfl <;> exact this

theorem wi_afterVal (h : s.Addressing) : (s.goto s.afterWiVal).PhaseInv := by
  unfold State.afterWiVal
  split
  · exact wi_at h (by simp)
  · next hne => exact ⟨Addressing.goto h _, hne⟩

theorem wi_afterPre (h : s.Addressing) : (s.goto s.afterWiPre).PhaseInv := by
  unfold State.afterWiPre
  split
  · exact wi_afterVal h
  · exact wi_at h (by simp)

theorem wi_afterEnter (h : s.Addressing) : (s.goto s.afterWiEnter).PhaseInv := by
  unfold State.afterWiEnter
  split
  · exact wi_afterPre h
  · exact wi_at h (by simp)

theorem sd_at {p : Phase} (h : s.Shifting) (hp : p = .sdEnter ∨ p = .sdPre ∨ p = .sdData ∨ p = .sdIdle) :
    (s.goto p).PhaseInv := by
  have := Shifting.goto h p
  rcases hp with rfl | rfl | rfl | rfl <;> exact this

theorem sd_afterData (h : s.Shifting) : (s.goto s.afterSdData).PhaseInv := by
  unfold State.afterSdData
  split
  · exact sd_at h (by simp)
  · next hne => exact ⟨Shifting.goto h _, hne⟩

theorem sd_afterPre (h : s.Shifting) : (s.goto s.afterSdPre).PhaseInv := by
  unfold State.afterSdPre
  split
  · exact sd_afterData h
  · exact sd_at h (by simp)

theorem sd_afterEnter (h : s.Shifting) : (s.goto s.afterSdEnter).PhaseInv := by
  unfold State.afterSdEnter
  split
  · exact sd_afterPre h
  · exact sd_at h (by simp)

theorem phase_keeps_inv (hS : s.Shape) (hI : s.PhaseInv) {t : State} (h : s.phaseStep resp = .next t) : t.PhaseInv := by
  have hI0 := hI
  cases hp : s.phase <;> simp only [State.phaseStep, hp, Host.Outcome.next.injEq] at h <;>
    (try subst h) <;> unfold State.PhaseInv at hI <;> rw [hp] at hI <;> dsimp only at hI
  case idle => exact hI0
  case hookWait => exact hI0
  case scClear => exact keeps_scClear hI0 hp
  case scInit => exact keeps_scInit hI0 hp
  case scReset => exact keeps_scReset hI0 hp
  case idEnter => exact keeps_idEnter hI0 hp
  case idShift => exact keeps_idShift hS hI0 hp
  case idExit => exact keeps_idExit hI0 hp
  case idIdle => exact keeps_idIdle hI0 hp
  case irEnter => exact keeps_irEnter hI0 hp
  case irHint => exact keeps_irHint hS hI0 hp h
  case irFirst => exact keeps_irFirst hS hI0 hp
  case irProbe => exact keeps_irProbe hS hI0 hp
  case irExit => exact keeps_irExit hI0 hp
  case irIdle => exact keeps_irIdle hI0 hp
  case drEnter => exact keeps_drEnter hI0 hp
  case drCount => exact keeps_drCount hS hI0 hp
  case drExit => exact keeps_drExit hI0 hp
  case drIdle => exact keeps_drIdle hS hI0 hp
  case scPost => exact keeps_scPost hS hI0 hp
  case scClassify => exact keeps_scClassify hS hI0 hp
  case failExit => exact keeps_failExit hI0 hp
  case failIdle => exact keeps_failIdle hI0 hp
  case failClear => exact keeps_failClear hI0 hp
  case wiEnter => exact wi_afterEnter hI
  case wiPre => exact wi_afterPre hI
  case wiVal => exact wi_afterVal hI
  case wiPost => exact wi_at hI.1 (by simp)
  case wiIdle => exact keeps_complete hI
  case sdEnter => exact sd_afterEnter hI
  case sdPre => exact sd_afterPre hI
  case sdData =>
    unfold State.phaseSdData at h
    split at h
    · cases h
    · simp only [Host.Outcome.next.injEq] at h
      subst h
      have h1 := hI.1
      refine sd_afterData (s := s.captureDout resp) ⟨⟨⟨h1.1.1, h1.1.2, h1.1.3, h1.1.4, h1.1.5⟩, h1.2, ?_⟩, hI.2, hI.3⟩
      have h3 := h1.3
      simp only [captureDout_fromHook, captureDout_hookActive]
      split at h3
      · next hh => simp only [hh, if_true]; exact ⟨h3.1, h3.2, h3.3, h3.4⟩
      · next hh => simp only [hh]; exact h3
  case sdPost => exact sd_at hI.1 (by simp)
  case sdIdle => exact keeps_complete hI.1

/-! ### A move that keeps what the invariant reads -/

/-- `t` agrees with `s` on every field the phase invariant reads. -/
structure SameCore (s t : State) : Prop where
  params : t.params = s.params
  table : t.table = s.table
  deviceCount : t.deviceCount = s.deviceCount
  phase : t.phase = s.phase
  tapReady : t.tapReady = s.tapReady
  hookActive : t.hookActive = s.hookActive
  hookDev : t.hookDev = s.hookDev
  oplCmd : t.oplCmd = s.oplCmd
  n : t.n = s.n
  k : t.k = s.k
  dev : t.dev = s.dev
  len : t.len = s.len
  pre : t.pre = s.pre
  cnt : t.cnt = s.cnt
  i : t.i = s.i
  j : t.j = s.j
  failCode : t.failCode = s.failCode
  fromHook : t.fromHook = s.fromHook

theorem SameCore.slot {t : State} (h : SameCore s t) (a : Nat) : t.slot a = s.slot a := slot_congr h.table a
theorem SameCore.irDone {t : State} (h : SameCore s t) {m : Nat} (hs : s.IrDone m) : t.IrDone m :=
  IrDone.congr h.params (fun a _ => by rw [h.slot]; exact ⟨rfl, rfl⟩) hs
theorem SameCore.irSum {t : State} (h : SameCore s t) (m : Nat) : t.irSum m = s.irSum m :=
  irSum_congr fun a _ => by rw [h.slot]
theorem SameCore.drDone {t : State} (h : SameCore s t) {m c : Nat} (hs : s.DrDone m c) : t.DrDone m c :=
  DrDone.congr (fun a _ => by rw [h.slot]; exact ⟨rfl, rfl⟩) hs
theorem SameCore.sentinel {t : State} (h : SameCore s t) (hs : s.SentinelZero) : t.SentinelZero := by
  show t.slot t.params.maxDevs = _
  rw [h.slot, h.params]; exact hs
theorem SameCore.tableFinal {t : State} (h : SameCore s t) (hs : s.TableFinal) : t.TableFinal :=
  TableFinal.congr h.params h.deviceCount (fun a _ => by rw [h.slot]; exact ⟨rfl, rfl, rfl, rfl, rfl⟩) (h.slot _) hs
theorem SameCore.building {t : State} (h : SameCore s t) (hs : s.Building) : t.Building :=
  ⟨h.deviceCount.trans hs.1, h.hookActive.trans hs.2, h.sentinel hs.3⟩
theorem SameCore.hooked {t : State} (h : SameCore s t) (hs : s.Hooked) : t.Hooked :=
  ⟨h.hookActive.trans hs.1, by rw [h.cnt, h.deviceCount]; exact hs.2, by rw [h.cnt, h.j]; exact hs.3,
    by rw [h.hookDev, h.j]; exact hs.4⟩
theorem SameCore.addressing {t : State} (h : SameCore s t) (hs : s.Addressing) : t.Addressing := by
  refine ⟨h.tableFinal hs.1, by unfold State.oplIdx; rw [h.oplCmd, h.deviceCount]; exact hs.2, ?_⟩
  have := hs.3
  rw [h.fromHook, h.hookActive]
  split at this
  · next hh => rw [if_pos hh]; exact h.hooked this
  · next hh => rw [if_neg hh]; exact this
theorem SameCore.shifting {t : State} (h : SameCore s t) (hs : s.Shifting) : t.Shifting :=
  ⟨h.addressing hs.1, by unfold State.oplNbits; rw [h.oplCmd]; exact hs.2,
    by unfold State.oplNbits; rw [h.oplCmd, h.params]; exact hs.3⟩

theorem SameCore.phaseInv {t : State} (h : SameCore s t) (hs : s.PhaseInv) : t.PhaseInv := by
  have hon : ∀ {P : DevRec → Prop}, (∀ a, P (s.slot a)) → ∀ a, P (t.slot a) := fun hP a => by rw [h.slot]; exact hP a
  have hir : ∀ {m}, s.IrDone m → t.IrDone m := h.irDone
  have hdr : ∀ {m c}, s.DrDone m c → t.DrDone m c := h.drDone
  unfold State.PhaseInv at hs ⊢
  rw [h.phase]
  cases hp : s.phase <;> rw [hp] at hs <;> dsimp only at hs ⊢ <;>
    (try simp only [h.params, h.deviceCount, h.tapReady, h.hookActive, h.n, h.k, h.dev, h.len, h.pre, h.cnt, h.i, h.j,
      h.failCode, h.irSum])
  case idle => exact ⟨h.tableFinal hs.1, hs.2⟩
  case hookWait => exact ⟨h.tableFinal hs.1, h.hooked hs.2⟩
  case scClear => exact ⟨h.tableFinal hs.1, hs.2⟩
  case scInit => exact ⟨h.building hs.1, hon (P := (· = DevRec.zero)) hs.2.1, hs.2.2⟩
  case scReset => exact ⟨h.building hs.1, hon (P := (· = DevRec.zero)) hs.2.1, hs.2.2⟩
  case idEnter => exact ⟨h.building hs.1, hon (P := (· = DevRec.zero)) hs.2.1, hs.2.2⟩
  case idShift => exact ⟨h.building hs.1, hon hs.2.1, hs.2.2⟩
  case idExit => exact ⟨h.building hs.1, hon hs.2.1, hs.2.2⟩
  case idIdle => exact ⟨h.building hs.1, hon hs.2.1, hs.2.2⟩
  case irEnter => exact ⟨h.building hs.1, hon hs.2.1, hs.2.2⟩
  case irFirst => exact ⟨h.building hs.1, hon hs.2.1, hs.2.2⟩
  case irHint =>
    obtain ⟨h1, h2, h3, h4, h5, h6⟩ := hs
    exact ⟨h.building h1, hon h2, h3, h4, hir h5, h6⟩
  case irProbe =>
    obtain ⟨h1, h2, h3, h4, h5, h6, h7, h8⟩ := hs
    exact ⟨h.building h1, hon h2, h3, h4, h5, h6, hir h7, h8⟩
  case irExit => exact ⟨h.building hs.1, hon hs.2.1, hs.2.2.1, hs.2.2.2.1, hir hs.2.2.2.2⟩
  case irIdle => exact ⟨h.building hs.1, hon hs.2.1, hs.2.2.1, hs.2.2.2.1, hir hs.2.2.2.2⟩
  case drEnter => exact ⟨h.building hs.1, hon hs.2.1, hs.2.2.1, hs.2.2.2.1, hir hs.2.2.2.2⟩
  case drCount =>
    obtain ⟨h1, h2, h3, h4, h5, h6, h7⟩ := hs
    exact ⟨h.building h1, hon h2, h3, h4, hir h5, h6, hdr h7⟩
  case drExit =>
    obtain ⟨h1, h2, h3, h4, h5, h6⟩ := hs
    exact ⟨h.building h1, hon h2, h3, h4, hir h5, hdr h6⟩
  case drIdle =>
    obtain ⟨h1, h2, h3, h4, h5, h6⟩ := hs
    exact ⟨h.building h1, hon h2, h3, h4, hir h5, hdr h6⟩
  case scPost =>
    obtain ⟨h1, h2, h3, h5, h6, h7, h8⟩ := hs
    exact ⟨h1, h.sentinel h2, hon h3, h5, h6, hir h7, hdr h8⟩
  case scClassify => exact ⟨h.tableFinal hs.1, hs.2⟩
  case failExit => exact hs
  case failIdle => exact hs
  case failClear => exact hs
  case wiEnter => exact h.addressing hs
  case wiPre => exact h.addressing hs
  case wiVal => exact h.addressing hs
  case wiPost => exact ⟨h.addressing hs.1, by unfold State.target State.oplIdx; rw [h.slot, h.oplCmd]; exact hs.2⟩
  case wiIdle => exact h.addressing hs
  case sdEnter => exact h.shifting hs
  case sdPre => exact h.shifting hs
  case sdData => exact h.shifting hs
  case sdPost => exact ⟨h.shifting hs.1, by unfold State.target State.oplIdx; rw [h.slot, h.oplCmd]; exact hs.2⟩
  case sdIdle => exact h.shifting hs

end Sys2Proof.Machine
end

