-- ==== Sys2Proof/Laws/PerInstr.lean ====
section
/-! SUPPORT. The family Fields of LAWS.json: for every command, the fields of its encoded word are its row's opcode and its
operands, and every other field is zero (30_encoding.md R80 to R83). -/
namespace Sys2Proof.Laws

/-- The device index a command's word carries. -/
def idxField : Instr → Nat
  | .scan | .scanh | .hookDone | .rdCount => 0
  | .shiftDr idx _ _ => idx
  | .writeIr idx | .rdIdcode idx | .rdIrlen idx | .rdDesc idx | .rdIndex idx | .rdIrpre idx | .rdIrpost idx
  | .rdDrpre idx | .rdDrpost idx | .rdCurir idx | .rdCurirk idx => idx

/-- The bit count a command's word carries. -/
def nbitsField : Instr → Nat
  | .shiftDr _ nbits _ => nbits
  | .scan | .scanh | .hookDone | .rdCount => 0
  | .writeIr _ | .rdIdcode _ | .rdIrlen _ | .rdDesc _ | .rdIndex _ | .rdIrpre _ | .rdIrpost _
  | .rdDrpre _ | .rdDrpost _ | .rdCurir _ | .rdCurirk _ => 0

/-- The capture select a command's word carries. -/
def capField : Instr → Bool
  | .shiftDr _ _ cap => cap
  | .scan | .scanh | .hookDone | .rdCount => false
  | .writeIr _ | .rdIdcode _ | .rdIrlen _ | .rdDesc _ | .rdIndex _ | .rdIrpre _ | .rdIrpost _
  | .rdDrpre _ | .rdDrpost _ | .rdCurir _ | .rdCurirk _ => false

/-- The encoded word of a well-formed command holds its row's opcode and its operands. -/
def Fields.Statement (i : Instr) : Prop :=
  i.wellFormed = true →
    (opcOf (encode i)).toNat = (opcodeOf i).toNat ∧ idxOf (encode i) = idxField i ∧
      nbitsOf (encode i) = nbitsField i ∧ capOf (encode i) = capField i ∧ rsvOf (encode i) = 0#3

theorem Fields.scan : Fields.Statement .scan := fun _ => enc_fields 0x01#32 0 0 false (by decide) (by decide) (by decide)

theorem Fields.scanh : Fields.Statement .scanh :=
  fun _ => enc_fields 0x02#32 0 0 false (by decide) (by decide) (by decide)

theorem Fields.writeIr (idx : Nat) : Fields.Statement (.writeIr idx) :=
  fun h => enc_fields 0x03#32 idx 0 false (by decide) (of_decide_eq_true h) (by decide)

theorem Fields.shiftDr (idx nbits : Nat) (cap : Bool) : Fields.Statement (.shiftDr idx nbits cap) := fun h =>
  have h' := (Bool.and_eq_true _ _).mp h
  enc_fields 0x04#32 idx nbits cap (by decide) (of_decide_eq_true h'.1) (of_decide_eq_true h'.2)

theorem Fields.hookDone : Fields.Statement .hookDone :=
  fun _ => enc_fields 0x05#32 0 0 false (by decide) (by decide) (by decide)

theorem Fields.rdCount : Fields.Statement .rdCount :=
  fun _ => enc_fields 0x10#32 0 0 false (by decide) (by decide) (by decide)

theorem Fields.rdIdcode (idx : Nat) : Fields.Statement (.rdIdcode idx) :=
  fun h => enc_fields 0x20#32 idx 0 false (by decide) (of_decide_eq_true h) (by decide)

theorem Fields.rdIrlen (idx : Nat) : Fields.Statement (.rdIrlen idx) :=
  fun h => enc_fields 0x21#32 idx 0 false (by decide) (of_decide_eq_true h) (by decide)

theorem Fields.rdDesc (idx : Nat) : Fields.Statement (.rdDesc idx) :=
  fun h => enc_fields 0x22#32 idx 0 false (by decide) (of_decide_eq_true h) (by decide)

theorem Fields.rdIndex (idx : Nat) : Fields.Statement (.rdIndex idx) :=
  fun h => enc_fields 0x23#32 idx 0 false (by decide) (of_decide_eq_true h) (by decide)

theorem Fields.rdIrpre (idx : Nat) : Fields.Statement (.rdIrpre idx) :=
  fun h => enc_fields 0x24#32 idx 0 false (by decide) (of_decide_eq_true h) (by decide)

theorem Fields.rdIrpost (idx : Nat) : Fields.Statement (.rdIrpost idx) :=
  fun h => enc_fields 0x25#32 idx 0 false (by decide) (of_decide_eq_true h) (by decide)

theorem Fields.rdDrpre (idx : Nat) : Fields.Statement (.rdDrpre idx) :=
  fun h => enc_fields 0x26#32 idx 0 false (by decide) (of_decide_eq_true h) (by decide)

theorem Fields.rdDrpost (idx : Nat) : Fields.Statement (.rdDrpost idx) :=
  fun h => enc_fields 0x27#32 idx 0 false (by decide) (of_decide_eq_true h) (by decide)

theorem Fields.rdCurir (idx : Nat) : Fields.Statement (.rdCurir idx) :=
  fun h => enc_fields 0x28#32 idx 0 false (by decide) (of_decide_eq_true h) (by decide)

theorem Fields.rdCurirk (idx : Nat) : Fields.Statement (.rdCurirk idx) :=
  fun h => enc_fields 0x29#32 idx 0 false (by decide) (of_decide_eq_true h) (by decide)

end Sys2Proof.Laws
end

