-- ==== Sys2Proof/Laws/Record.lean ====
section
/-! SUPPORT. What the effect of one phase does to each record of the Device Table, to DOUT, and to the parameters and moves. -/
namespace Sys2Proof.Machine

variable {s : State} {resp : TapResp}

/-- What a phase can make of the record in slot `a`, in one line each (10_state.md R25). -/
inductive RecMove (s : State) (a : Nat) : DevRec → Prop where
  | same : RecMove s a (s.slot a)
  | clear (h : s.phase = .scClear ∨ s.phase = .failClear) : RecMove s a DevRec.zero
  | idcode (h : s.phase = .idShift) (v : Word) (hv : v ≠ all1) : RecMove s a { s.slot a with idcode := v }
  | ir (h : s.phase = .irHint ∨ s.phase =
      .irProbe) (l : BitVec 8) (p : BitVec 16) : RecMove s a { s.slot a with irLength := l, irPrescan := p }
  | dr (h : s.phase = .drCount) (x y : BitVec 8) : RecMove s a { s.slot a with drPrescan := x, drPostscan := y }
  | post (h : s.phase = .scPost) (p : BitVec 16) : RecMove s a { s.slot a with irPostscan := p }
  | mark (h : s.phase = .scClassify) (d : Nat) (hd : matchDescriptor s.params.descTable (s.slot a).idcode =
      some d) : RecMove s a { s.slot a with curKnown := false, descValid := true, descIdx := BitVec.ofNat 8 d }

/-- A table that stays leaves each record as it is. -/
theorem recmove_table {t : State} (h : t.table = s.table) (a : Nat) : RecMove s a (t.slot a) := by
  rw [slot_congr h]; exact .same

/-- The effect of a phase on each record. -/
theorem phase_rec {t : State} (h : s.phaseStep resp = .next t) (a : Nat) : RecMove s a (t.slot a) := by
  cases hp : s.phase <;> simp only [State.phaseStep, hp, Host.Outcome.next.injEq] at h <;> (try subst h)
  case scClear => unfold State.phaseScClear; exact (slot_clearTable (s.emit .downstreamRelease) a).symm ▸ .clear (.inl hp)
  case failClear => unfold State.phaseFailClear; exact (slot_clearTable s a).symm ▸ .clear (.inr hp)
  case scInit => unfold State.phaseScInit; split <;> (try split) <;> exact recmove_table rfl a
  case idShift =>
    unfold State.phaseIdShift
    have key : resp.tdo.setWidth 32 ≠ all1 → RecMove s a ((s.recordIdcode (resp.tdo.setWidth 32)).slot a) := by
      intro hv; rw [slot_recordIdcode]; split
      · exact .idcode hp _ hv
      · exact .same
    split
    · exact recmove_table rfl a
    · next hv => split
                 · rw [slot_fail]; exact key hv
                 · exact key hv
  case irEnter => unfold State.phaseIrEnter; split
                  · rw [slot_enterHint]; exact recmove_table rfl a
                  · exact recmove_table rfl a
  case irHint =>
    unfold State.phaseIrHint at h
    split at h <;> simp only [Host.Outcome.next.injEq, reduceCtorEq] at h <;> subst h <;> rw [slot_enterHint]
    · rw [slot_recordHint]; split
      · exact .ir (.inl hp) _ _
      · exact .same
    all_goals exact .same
  case irProbe =>
    have key : RecMove s a (s.recordProbe.slot a) := by
      rw [slot_recordProbe]; split
      · exact .ir (.inr hp) _ _
      · exact .same
    unfold State.phaseIrProbe; split <;> split <;> (try split) <;> first | exact recmove_table rfl a | exact key
  case drCount =>
    unfold State.phaseDrCount; split <;> split <;> first | exact recmove_table rfl a | skip
    rw [slot_recordDr]; split
    · exact .dr hp _ _
    · exact .same
  case scPost =>
    have key : RecMove s a (s.recordPostscan.slot a) := by
      obtain ⟨p, h1, -⟩ := backfill_other s.table (s.cnt.toNat - 1) a
      rw [show s.recordPostscan.slot a = _ from h1]; exact .post hp p
    unfold State.phaseScPost; split <;> exact key
  case scClassify =>
    unfold State.phaseScClassify; split
    · exact recmove_table rfl a
    split
    · next d hd =>
      rw [slot_invokeHook]; split
      · next hh => exact .mark hp d (hh.1 ▸ hd)
      · exact .same
    · split <;> exact recmove_table rfl a
  case sdData =>
    unfold State.phaseSdData at h
    split at h <;> simp only [Host.Outcome.next.injEq, reduceCtorEq] at h
    subst h; exact recmove_table rfl a
  all_goals exact recmove_table rfl a

/-- `RecMove` depends on the record, the phase and the parameters alone. -/
theorem recmove_congr {u : State} {a : Nat} {r : DevRec} (e1 : u.slot a = s.slot a) (e2 : u.phase =
    s.phase) (e3 : u.params = s.params) (h : RecMove u a r) : RecMove s a r := by
  cases h with
  | same => rw [e1]; exact .same
  | clear h => exact .clear (e2 ▸ h)
  | idcode h v hv => rw [e1]; exact .idcode (e2 ▸ h) v hv
  | ir h l p => rw [e1]; exact .ir (e2 ▸ h) l p
  | dr h x y => rw [e1]; exact .dr (e2 ▸ h) x y
  | post h p => rw [e1]; exact .post (e2 ▸ h) p
  | mark h d hd => rw [e1]; rw [e1, e3] at hd; exact .mark (e2 ▸ h) d hd

/-- No phase changes a parameter or a move to come. -/
theorem phase_env {s t : State} {resp : TapResp} (h : s.phaseStep resp = .next t) : t.env = s.env ∧ t.params =
    s.params := by
  have he : ∀ u : State, u.enterHint.env = u.env ∧ u.enterHint.params = u.params := by
    intro u; unfold State.enterHint; cases u.hintEntry <;> exact ⟨rfl, rfl⟩
  cases hp : s.phase <;> simp only [State.phaseStep, hp, Host.Outcome.next.injEq] at h <;> (try subst h)
  case scInit => unfold State.phaseScInit; split <;> (try split) <;> exact ⟨rfl, rfl⟩
  case idShift => unfold State.phaseIdShift; split <;> (try split) <;> exact ⟨rfl, rfl⟩
  case irEnter => unfold State.phaseIrEnter; split; exact he s.startHints; exact ⟨rfl, rfl⟩
  case irHint =>
    unfold State.phaseIrHint at h
    split at h <;> simp only [Host.Outcome.next.injEq, reduceCtorEq] at h <;> subst h
    · next hh _ => exact he (s.recordHint hh resp)
    all_goals exact he s
  case irProbe => unfold State.phaseIrProbe; split <;> split <;> (try split) <;> exact ⟨rfl, rfl⟩
  case drCount => unfold State.phaseDrCount; split <;> split <;> exact ⟨rfl, rfl⟩
  case scPost => unfold State.phaseScPost; split <;> exact ⟨rfl, rfl⟩
  case scClassify => unfold State.phaseScClassify; split <;> (try split) <;> (try split) <;> exact ⟨rfl, rfl⟩
  case sdData =>
    unfold State.phaseSdData at h
    split at h <;> simp only [Host.Outcome.next.injEq, reduceCtorEq] at h
    subst h; exact ⟨rfl, rfl⟩
  all_goals exact ⟨rfl, rfl⟩

/-- No phase changes DOUT but SD_DATA with CAP, which writes the captured bits (41_addressed_access.md R168). -/
theorem phase_dout {s t : State} {resp : TapResp} (h : s.phaseStep resp = .next t) :
    t.dout = s.dout ∨ (s.phase = .sdData ∧ t.dout = s.dout.writeBits resp.tdo s.oplNbits) := by
  have he : ∀ u : State, u.enterHint.dout = u.dout := by
    intro u; unfold State.enterHint; cases u.hintEntry <;> rfl
  cases hp : s.phase <;> simp only [State.phaseStep, hp, Host.Outcome.next.injEq] at h <;> (try subst h)
  case sdData =>
    unfold State.phaseSdData at h
    split at h <;> simp only [Host.Outcome.next.injEq, reduceCtorEq] at h
    subst h
    simp only [goto_dout, captureDout_dout]
    split
    · exact .inr ⟨trivial, rfl⟩
    · exact .inl rfl
  case irHint =>
    unfold State.phaseIrHint at h
    split at h <;> simp only [Host.Outcome.next.injEq, reduceCtorEq] at h <;> subst h
    · next hh _ => exact .inl (he (s.recordHint hh resp))
    all_goals exact .inl (he s)
  all_goals left
  case scInit => unfold State.phaseScInit; split <;> (try split) <;> rfl
  case idShift => unfold State.phaseIdShift; split <;> (try split) <;> rfl
  case irEnter =>
    unfold State.phaseIrEnter
    split
    · exact he s.startHints
    · rfl
  case irProbe => unfold State.phaseIrProbe; split <;> split <;> (try split) <;> rfl
  case drCount => unfold State.phaseDrCount; split <;> split <;> rfl
  case scPost => unfold State.phaseScPost; split <;> rfl
  case scClassify => unfold State.phaseScClassify; split <;> (try split) <;> (try split) <;> rfl
  all_goals rfl

end Sys2Proof.Machine
end

