-- ==== Sys2Proof/Laws/Run.lean ====
section
/-! SUPPORT. One step under each kind of move, and runs of several: the statements about stages and whole commands go through
these. -/
namespace Sys2Proof.Machine

variable {s t : State} {rest : List Move}

@[simp] theorem withEnv_withEnv (a b : List Move) : (s.withEnv a).withEnv b = s.withEnv b := by rfl

@[simp] theorem tapRequest_withEnv (e : List Move) : (s.withEnv e).tapRequest = s.tapRequest := by rfl

theorem withEnv_self : s.withEnv s.env = s := by rfl

/-- A driver's move with request `q` outstanding (60_exceptions.md R202 (b)). -/
theorem step_tap {q : TapReq} (resp : TapResp) (h : s.tapRequest = some q) :
    step (s.withEnv (.tap resp :: rest)) = ((s.withEnv rest).completeRequest q).phaseStep (q.received s.params resp) := by
  show (s.withEnv rest).tapStep resp = _
  unfold State.tapStep
  rw [tapRequest_withEnv, h]
  rfl

/-- The core's turn in an internal phase (60_exceptions.md R202 (c)), by its own move or with no move left. -/
theorem step_core (h : s.tapRequest = none) (ht : s.CoreTurn) :
    step s = (s.withEnv s.env.tail).phaseStep TapResp.silent := by
  unfold step
  rcases ht with he | he
  · rw [he]
    show s.coreStep = _
    unfold State.coreStep
    rw [h]
    have : s.withEnv ([] : List Move).tail = s := by cases s; cases he; rfl
    rw [this]
  · cases hE : s.env with
    | nil => rw [hE] at he; cases he
    | cons m rest =>
      rw [hE] at he
      cases he
      show (s.withEnv rest).coreStep = _
      unfold State.coreStep
      rw [tapRequest_withEnv, h]
      rfl

theorem step_host (a : Access) : step (s.withEnv (.host a :: rest)) = (s.withEnv rest).hostAccess a := by rfl

theorem offsetOf_base {off : Nat} (h : off < 4096) : s.offsetOf (s.params.windowBase + off) = some off := by
  unfold State.offsetOf
  rw [if_pos ⟨by omega, by omega⟩]
  congr 1
  omega

/-- A store of 32 bits at an aligned offset. -/
theorem step_store {off : Nat} {v : Word} (h : off < 4096) (ha : off % 4 = 0) :
    step (s.withEnv (.host (.store .word (s.params.windowBase + off) v) :: rest)) = (s.withEnv rest).storeAt off v := by
  rw [step_host]
  unfold State.hostAccess
  dsimp only
  rw [show (s.withEnv rest).offsetOf (s.params.windowBase + off) = some off from offsetOf_base h]
  simp [ha]

/-- A load of 32 bits at an aligned offset. -/
theorem step_load {off : Nat} (h : off < 4096) (ha : off % 4 = 0) :
    step (s.withEnv (.host (.load .word (s.params.windowBase + off)) :: rest)) = (s.withEnv rest).loadOut off := by
  rw [step_host]
  unfold State.hostAccess
  dsimp only
  rw [show (s.withEnv rest).offsetOf (s.params.windowBase + off) = some off from offsetOf_base h]
  simp [ha]

/-- A store to CMD. -/
theorem step_cmd {w : Word} :
    step (s.withEnv (.host (.store .word s.params.windowBase w) :: rest)) = (s.withEnv rest).storeCmd w := by
  have := step_store (s := s) (rest := rest) (off := 0) (v := w) (by decide) rfl
  rw [Nat.add_zero] at this
  rw [this]
  rfl

theorem runSteps_zero : runSteps 0 s = .next s := by rfl

theorem runSteps_succ {k : Nat} (h : step s = .next t) : runSteps (k + 1) s = runSteps k t := by
  simp only [runSteps, Host.Core.run]
  have h' : Host.Core.step Sys2Proof.core s = .next t := h
  rw [h']

/-- A run of a request, completed by the driver. -/
theorem runSteps_tap {k : Nat} {q : TapReq} {resp : TapResp} (h : s.tapRequest = some q)
    (hs : ((s.withEnv rest).completeRequest q).phaseStep (q.received s.params resp) = .next t) :
    runSteps (k + 1) (s.withEnv (.tap resp :: rest)) = runSteps k t :=
  runSteps_succ ((step_tap resp h).trans hs)

/-- The same, for a state that holds its moves already. -/
theorem runSteps_tap_env {k : Nat} {q : TapReq} {resp : TapResp} (he : s.env = .tap resp :: rest) (h : s.tapRequest = some q)
    (hs : ((s.withEnv rest).completeRequest q).phaseStep (q.received s.params resp) = .next t) :
    runSteps (k + 1) s = runSteps k t := by
  rw [show s = s.withEnv (.tap resp :: rest) by rw [← he]; rfl]
  exact runSteps_tap h hs

/-- A run of an internal phase, by the core's own move. -/
theorem runSteps_core {k : Nat} (h : s.tapRequest = none) (hs : (s.withEnv rest).phaseStep TapResp.silent = .next t) :
    runSteps (k + 1) (s.withEnv (.core :: rest)) = runSteps k t := by
  refine runSteps_succ ?_
  rw [step_core (by rw [tapRequest_withEnv]; exact h) (Or.inr rfl)]
  exact hs

end Sys2Proof.Machine
end

