-- ==== Sys2Proof/Laws/Tap.lean ====
section
/-! SUPPORT. The laws of the TAP request bus: the bits VEC carries, and what the core reads in a response. -/
namespace Sys2Proof.Machine

variable {p : Params} {src : Src} {n : Nat} {exit : Bool} {r : TapResp}

/-- Every capture of the core has a bit on the bus (30_encoding.md R90). -/
theorem busWidth_ge : 32 ≤ p.busWidth := Nat.le_max_left 32 p.maxDrBits

theorem maxDrBits_le_busWidth : p.maxDrBits ≤ p.busWidth := Nat.le_max_right 32 p.maxDrBits

theorem src_bits_get (w k : Nat) (v : Vec) : ((Src.vec v).bits w).getLsbD k = (decide (k < w) && v.getLsbD k) :=
  BitVec.getLsbD_setWidth ..

/-- TDO of a SHIFT_CAPTURE: the captured bits below COUNT, 0 from it on (30_encoding.md R90). -/
theorem captured_tdo_get (w k : Nat) (v : Vec) :
    (TapRespBus.captured w n v).tdo.getLsbD k = (decide (k < w) && (decide (k < n) && v.getLsbD k)) := by
  unfold TapRespBus.captured
  rw [BitVec.getLsbD_setWidth, lowBits_get]

@[simp] theorem captured_last (w : Nat) (v : Vec) :
    (TapRespBus.captured w n v).last = BitVec.ofBool ((TapRespBus.captured w n v).tdo.getLsbD (n - 1)) := rfl

@[simp] theorem received_ok : (TapReq.init.received p r).ok = r.ok := by
  show decide (BitVec.ofBool r.ok = 1#1) = r.ok
  cases r.ok <;> rfl

/-- What the core reads of a capture: the drawn bits below COUNT that the bus has room for, and 0. -/
theorem received_get (k : Nat) : ((TapReq.shiftCapture src n exit).received p r).tdo.getLsbD k =
    (decide (k < n) && (decide (k < p.busWidth) && r.tdo.getLsbD k)) := by
  have h : ((TapReq.shiftCapture src n exit).received p r).tdo.getLsbD k =
      (decide (k < 2048) && (TapRespBus.captured p.busWidth n r.tdo).tdo.getLsbD k) := BitVec.getLsbD_setWidth ..
  rw [h, captured_tdo_get]
  rcases Nat.lt_or_ge k 2048 with hk | hk
  · simp [hk, Bool.and_left_comm]
  · simp [BitVec.getLsbD_of_ge r.tdo k hk]

/-- A capture that fits the bus brings the drawn bits below COUNT, all of them. -/
theorem received_bit {k : Nat} (hk : k < n) (hn : n ≤ p.busWidth) :
    ((TapReq.shiftCapture src n exit).received p r).tdo.getLsbD k = r.tdo.getLsbD k := by
  rw [received_get]
  simp [hk, Nat.lt_of_lt_of_le hk hn]

/-- LAST of a one-bit capture (40_discovery.md R127 to R133). -/
@[simp] theorem received_last : ((TapReq.shiftCapture src 1 exit).received p r).last 1 = r.last 1 :=
  received_bit (by decide) (Nat.le_trans (by decide) busWidth_ge)

/-- The 32 bits of an IDCODE capture (40_discovery.md R118). -/
@[simp] theorem received_word : ((TapReq.shiftCapture src 32 exit).received p r).tdo.setWidth 32 = r.tdo.setWidth 32 := by
  apply BitVec.eq_of_getLsbD_eq
  intro k hk
  rw [BitVec.getLsbD_setWidth, BitVec.getLsbD_setWidth, received_bit hk busWidth_ge]

/-- The bits of a capture that fits the bus reach the buffer as they were drawn (30_encoding.md R90). -/
theorem writeBits_received (hn : n ≤ p.busWidth) (m : Memory Bool) (k : Nat) (hk : k ≤ n) :
    m.writeBits ((TapReq.shiftCapture src n exit).received p r).tdo k = m.writeBits r.tdo k := by
  induction k with
  | zero => rfl
  | succ k ih =>
    unfold Memory.writeBits
    rw [ih (by omega), received_bit (by omega) hn]

/-- What the core reads of a response is all it needs of the draw: each phase goes on from the response as it would from the
draw itself. Of all phases only SD_DATA asks for a bit the bus could lack, and its count is at most MAX_DR_BITS
(41_addressed_access.md R169). -/
theorem phase_received {s : State} {q : TapReq} (h : s.tapRequest = some q)
    (hn : s.phase = .sdData → s.oplNbits ≤ s.params.busWidth) :
    (s.completeRequest q).phaseStep (q.received s.params r) = (s.completeRequest q).phaseStep r := by
  unfold State.tapRequest at h
  unfold State.phaseStep
  cases hp : s.phase <;> rw [hp] at h <;> dsimp only at h
    <;> simp only [completeRequest_phase, hp]
  case scInit =>
    cases ht : s.tapReady <;> rw [ht] at h <;> simp at h
    subst h
    unfold State.phaseScInit
    rw [received_ok]
  case idShift => cases h; unfold State.phaseIdShift; rw [received_word]
  case irHint =>
    unfold State.hintRequest at h
    unfold State.phaseIrHint
    rw [show (s.completeRequest q).hintEntry = s.hintEntry from rfl]
    cases he : s.hintEntry with
    | length b =>
      rw [he] at h
      cases h
      dsimp only
      unfold State.recordHint
      rw [received_get]
      have := (hintEntry_length he).2.2.1
      have := busWidth_ge (p := s.params)
      simp [show 0 < b.toNat by omega, show 0 < s.params.busWidth by omega]
    | _ => rfl
  case irFirst => cases h; unfold State.phaseIrFirst; rw [received_last]
  case irProbe => cases h; unfold State.phaseIrProbe; rw [received_last]
  case drCount => cases h; unfold State.phaseDrCount; rw [received_last]
  case sdData =>
    unfold State.dataRequest at h
    split at h
    · cases h
    cases hd : s.dinVector <;> rw [hd] at h <;> simp at h
    have hc : (s.completeRequest q).captureDout (q.received s.params r) = (s.completeRequest q).captureDout r := by
      unfold State.captureDout
      rw [show (s.completeRequest q).oplCap = s.oplCap from rfl, show (s.completeRequest q).oplNbits = s.oplNbits from rfl]
      cases hc : s.oplCap
      · rfl
      · rw [hc] at h
        obtain rfl := Option.some.inj h
        simp only [if_true, writeBits_received (hn hp) _ _ le_rfl]
    unfold State.phaseSdData
    rw [hc]

/-- A driver's move, in terms of what it drew: see `phase_received`. -/
theorem step_draw {s : State} {rest : List Move} {q : TapReq} (r : TapResp) (h : s.tapRequest = some q)
    (hn : s.phase = .sdData → s.oplNbits ≤ s.params.busWidth) :
    step (s.withEnv (.tap r :: rest)) = ((s.withEnv rest).completeRequest q).phaseStep r :=
  (step_tap r h).trans (phase_received (s := s.withEnv rest) h hn)

/-- A run of a request, in terms of what the driver drew. -/
theorem runSteps_draw {s t : State} {rest : List Move} {k : Nat} {q : TapReq} (h : s.tapRequest = some q)
    (hn : s.phase = .sdData → s.oplNbits ≤ s.params.busWidth)
    (hs : ((s.withEnv rest).completeRequest q).phaseStep r = .next t) :
    runSteps (k + 1) (s.withEnv (.tap r :: rest)) = runSteps k t :=
  runSteps_succ ((step_draw r h hn).trans hs)

end Sys2Proof.Machine
end

