-- ==== Sys2Proof/Laws/Window.lean ====
section
/-! SUPPORT. The laws of the register window: which register an offset reaches, and what a HINT word's load and store do. -/
namespace Sys2Proof.Machine

variable {s : State} {rest : List Move}

/-- A load whose register answers a value puts it out and changes nothing else. -/
theorem load_ok {off : Nat} {v : Word} (h : off < 4096) (ha : off % 4 = 0) (hv : (s.withEnv rest).loadAt off = .ok v) :
    step (s.withEnv (.host (.load .word (s.params.windowBase + off)) :: rest)) =
      .next { s with env := rest, trace := .loadData v :: s.trace } := by
  rw [step_load h ha]; unfold State.loadOut; rw [hv]; rfl

/-- A load whose register faults faults. -/
theorem load_err {off : Nat} {f : Fault} (h : off < 4096) (ha : off % 4 = 0)
    (hv : (s.withEnv rest).loadAt off = .error f) :
    step (s.withEnv (.host (.load .word (s.params.windowBase + off)) :: rest)) = .fault f := by
  rw [step_load h ha]; unfold State.loadOut; rw [hv]

/-! The register map (20_memory.md R61), range by range: the bounds of the range leave one case of the chain. -/

/-- A load in the HINT range. -/
theorem loadAt_hint {off : Nat} (h1 : 0x100 ≤ off) (h2 : off < 0x200) : s.loadAt off =
    s.loadHint ((off - 0x100) / 4) := by
  unfold State.loadAt
  split_ifs <;> first | omega | rfl

/-- A load in the DIN range. -/
theorem loadAt_din {off : Nat} (h1 : 0x200 ≤ off) (h2 : off < 0x300) : s.loadAt off =
    s.loadDin ((off - 0x200) / 4) := by
  unfold State.loadAt
  split_ifs <;> first | omega | rfl

/-- A load in the DOUT range. -/
theorem loadAt_dout {off : Nat} (h1 : 0x300 ≤ off) (h2 : off < 0x400) : s.loadAt off =
    s.loadDout ((off - 0x300) / 4) := by
  unfold State.loadAt
  split_ifs <;> first | omega | rfl

/-- A load of a reserved word (20_memory.md R63). -/
theorem loadAt_rsv {off : Nat} (h : (0x018 ≤ off ∧ off < 0x100) ∨ 0x400 ≤ off) : s.loadAt off = .ok 0#32 := by
  unfold State.loadAt
  split_ifs <;> first | omega | rfl

/-- A store in the HINT range. -/
theorem storeAt_hint {off : Nat} {v : Word} (h1 : 0x100 ≤ off) (h2 : off < 0x200) : s.storeAt off v =
    s.storeHint ((off - 0x100) / 4) v := by
  unfold State.storeAt
  split_ifs <;> first | omega | rfl

/-- A store in the DIN range. -/
theorem storeAt_din {off : Nat} {v : Word} (h1 : 0x200 ≤ off) (h2 : off < 0x300) : s.storeAt off v =
    s.storeDin ((off - 0x200) / 4) v := by
  unfold State.storeAt
  split_ifs <;> first | omega | rfl

/-- A store to a read-only or reserved word is ignored (20_memory.md R63). -/
theorem storeAt_other {off : Nat} {v : Word} (h : (0x008 ≤ off ∧ off < 0x100) ∨ 0x300 ≤ off) : s.storeAt off v =
    .next s := by
  unfold State.storeAt
  split_ifs <;> first | omega | rfl

/-- What a store of one HINT byte does to every entry. -/
theorem read_storeHintByte (k j : Nat) (b : Byte) : (s.storeHintByte k b).hint.read j = if j = k ∧
    k < s.params.maxDevs then some b else s.hint.read j := by
  unfold State.storeHintByte
  split
  · next h => show (s.hint.write k b).read j = _; rw [Memory.read_write]; simp [h]
  · next h => simp [h]

/-- A store of one HINT byte changes HINT alone. -/
theorem storeHintByte_frame (k : Nat) (b : Byte) : (s.storeHintByte k b) =
    { s with hint := (s.storeHintByte k b).hint } := by
  unfold State.storeHintByte; split <;> rfl

/-- It changes no parameter. -/
theorem storeHintByte_params (k : Nat) (b : Byte) : (s.storeHintByte k b).params = s.params := by
  unfold State.storeHintByte; split <;> rfl

/-- A HINT byte past the populated entries reads 0 (20_memory.md R63). -/
theorem hintByte_past {k : Nat} (h : s.params.maxDevs ≤ k) : s.hintByte k = some 0#8 := by
  unfold State.hintByte; rw [if_neg (by omega)]

/-- An unwritten populated HINT byte has no value (70_reset_and_hazards.md R232). -/
theorem hintByte_none {k : Nat} (h : k < s.params.maxDevs) (hr : s.hint.read k = none) : s.hintByte k = none := by
  unfold State.hintByte; rw [if_pos h, hr]

/-- The word of four HINT bytes. -/
theorem loadHint_ok (q : Nat) (b : Nat → Byte) (h : ∀ j, j < 4 → s.hintByte (4 * q + j) =
    some (b j)) : s.loadHint q = .ok (b 3 ++ b 2 ++ b 1 ++ b 0) := by
  unfold State.loadHint
  have h0 := h 0 (by omega)
  rw [Nat.add_zero] at h0
  rw [h0, h 1 (by omega), h 2 (by omega), h 3 (by omega)]

/-- One unwritten byte makes the load fault (70_reset_and_hazards.md R232). -/
theorem loadHint_none (q j : Nat) (hj : j < 4) (h : s.hintByte (4 * q + j) = none) : s.loadHint q =
    .error .hintReadUnwritten := by
  unfold State.loadHint
  split
  · next b0 b1 b2 b3 e0 e1 e2 e3 =>
    have : j = 0 ∨ j = 1 ∨ j = 2 ∨ j = 3 := by omega
    rcases this with rfl | rfl | rfl | rfl
    · rw [Nat.add_zero, e0] at h; cases h
    · rw [e1] at h; cases h
    · rw [e2] at h; cases h
    · rw [e3] at h; cases h
  · rfl

/-- Byte `j` of a word of four bytes (20_memory.md R64). -/
theorem bytes_ext (b : Nat → Byte) (j : Nat) (hj : j < 4) : (b 3 ++ b 2 ++ b 1 ++ b 0 : Word).extractLsb' (8 * j) 8 =
    b j := by
  apply BitVec.eq_of_getLsbD_eq
  intro i hi
  simp only [BitVec.getLsbD_extractLsb', BitVec.getLsbD_append, hi, decide_true, Bool.true_and]
  have : j = 0 ∨ j = 1 ∨ j = 2 ∨ j = 3 := by omega
  rcases this with rfl | rfl | rfl | rfl <;> interval_cases i <;> simp

end Sys2Proof.Machine
end

