-- ==== Sys2Proof/Tests/Slice0.lean ====
section
/-! SUPPORT. The model's own tests: ill-formed terms, words written out from the encodings, single steps with the values of
95_test_vectors.md, and for every statement with hypotheses a state that meets them. -/
open Sys2Proof Sys2Proof.Machine

namespace Slice0

/-! ### Small states -/

/-- A record as a scan leaves it: identity, IR length and offsets; cache unknown, no descriptor. -/
def scanned (idcode : Word) (len : BitVec 8) (pre post : BitVec 16) (dpre dpost : BitVec 8) : DevRec :=
  { DevRec.zero with
    idcode := idcode, irLength := len, irPrescan := pre, irPostscan := post, drPrescan := dpre, drPostscan := dpost }

/-- The three records of the V-S3 table. -/
def threeRecords : List DevRec :=
  [scanned 0x4BA00477#32 4#8 0#16 6#16 0#8 2#8, scanned 0x06413041#32 5#8 4#16 1#16 1#8 1#8,
   scanned 0x0F0F0F0F#32 1#8 9#16 0#16 2#8 0#8]

/-- Small parameters: at most 3 devices, IR lengths to 5, 2 DR words, the V-D8 descriptors. -/
def small : Params :=
  { maxDevs := 3, maxIrLen := 5, maxDrWords := 2,
    descTable := [⟨0x0BA00477#32, 0x0FFFFFFF#32⟩, ⟨0x00000001#32, 0x00000001#32⟩], windowBase := 0x1000 }

/-- The end of V-S3, with small parameters. -/
def s3 : State :=
  { State.resetWith small with
    table := threeRecords ++ [DevRec.zero], deviceCount := 3#8, tapReady := true, tapCtl := .runTestIdle, cnt := 3#9,
    result := 3#32 }

/-- The same, paused at the hook of device 1. -/
def s3h : State :=
  { s3 with phase := .hookWait, hookActive := true, hookDev := 1#8, hookDesc := 1#8, j := 1#9 }

/-- The same, with device 1's cache known to hold `0x0A` (V-A1). -/
def s3k : State :=
  { s3 with
    table := [scanned 0x4BA00477#32 4#8 0#16 6#16 0#8 2#8,
      { scanned 0x06413041#32 5#8 4#16 1#16 1#8 1#8 with currentIr := 0x0A#32, curKnown := true },
      scanned 0x0F0F0F0F#32 1#8 9#16 0#16 2#8 0#8, DevRec.zero] }

/-- The same, with SHIFT_DR 1, 32, CAP running at its data shift, and DIN word 0 written (V-A5). -/
def s3d : State :=
  { s3.started 0x10200104#32 .sdData with din := [(0, 0x12345678#32)], tapCtl := .shiftDr }

/-- A scan at `p` that has recorded nothing yet. -/
def scanAt (p : Phase) (c : TapCtl) : State := { State.resetWith small with phase := p, tapReady := true, tapCtl := c }

/-- RESULT and ERR of a next state. -/
def answer : Outcome → Option (Word × ErrCode)
  | .next t => some (t.result, t.err)
  | .fault _ => none
  | .refused _ => none

/-- STATUS of a next state. -/
def status : Outcome → Option Word
  | .next t => some t.statusWord
  | .fault _ => none
  | .refused _ => none

/-- What a step put out last. -/
def lastOut : Outcome → Option Output
  | .next t => t.trace.head?
  | .fault _ => none
  | .refused _ => none

/-- The fault a step ends in. -/
def faultOf : Outcome → Option Fault
  | .next _ => none
  | .fault f => some f
  | .refused _ => none

/-- One TAP response that captures `x`, lowest bit first. -/
def cap (x : Nat) : TapResp := { ok := true, tdo := BitVec.ofNat 2048 x }

/-! ### Well-formed commands (R80): an operand too wide for its field is refused, for every constructor that has one -/

theorem test_wf_idx : (Instr.writeIr 256).wellFormed = false ∧ (Instr.shiftDr 256 1 false).wellFormed = false ∧
    (Instr.rdIdcode 256).wellFormed = false ∧ (Instr.rdIrlen 256).wellFormed = false ∧
    (Instr.rdDesc 256).wellFormed = false ∧ (Instr.rdIndex 256).wellFormed = false ∧
    (Instr.rdIrpre 256).wellFormed = false ∧ (Instr.rdIrpost 256).wellFormed = false ∧
    (Instr.rdDrpre 256).wellFormed = false ∧ (Instr.rdDrpost 256).wellFormed = false ∧
    (Instr.rdCurir 256).wellFormed = false ∧ (Instr.rdCurirk 256).wellFormed = false := by decide

theorem test_wf_nbits : (Instr.shiftDr 0 4096 true).wellFormed = false ∧
    (Instr.shiftDr 255 4095 true).wellFormed = true := by decide

/-! ### Words written out from R80 and R82: RSV, CAP, NBITS, IDX, OPC, from the top bit down -/

theorem test_decode_scan : decode 0b00000000000000000000000000000001#32 = .ok .scan := by decide
theorem test_decode_scanh : decode 0b00000000000000000000000000000010#32 = .ok .scanh := by decide
/-- IDX 10000000. -/
theorem test_decode_writeIr : decode 0b00000000000000001000000000000011#32 = .ok (.writeIr 128) := by decide
/-- CAP 1, NBITS 000000100000, IDX 00000001 (V-A5). -/
theorem test_decode_shiftDr : decode 0b00010000001000000000000100000100#32 = .ok (.shiftDr 1 32 true) := by decide
/-- NBITS 111111111111, IDX 0 (the table of 95_test_vectors.md). -/
theorem test_decode_shiftDr_widest : decode 0b00001111111111110000000000000100#32 = .ok (.shiftDr 0 4095 false) := by
  decide
theorem test_decode_hookDone : decode 0b00000000000000000000000000000101#32 = .ok .hookDone := by decide
theorem test_decode_rdCount : decode 0b00000000000000000000000000010000#32 = .ok .rdCount := by decide
theorem test_decode_rdIdcode : decode 0b00000000000000000000000100100000#32 = .ok (.rdIdcode 1) := by decide
theorem test_decode_rdIrlen : decode 0b00000000000000000000000100100001#32 = .ok (.rdIrlen 1) := by decide
theorem test_decode_rdDesc : decode 0b00000000000000000000001000100010#32 = .ok (.rdDesc 2) := by decide
theorem test_decode_rdIndex : decode 0b00000000000000000000001100100011#32 = .ok (.rdIndex 3) := by decide
theorem test_decode_rdIrpre : decode 0b00000000000000000000010000100100#32 = .ok (.rdIrpre 4) := by decide
theorem test_decode_rdIrpost : decode 0b00000000000000000001000000100101#32 = .ok (.rdIrpost 16) := by decide
theorem test_decode_rdDrpre : decode 0b00000000000000000010000000100110#32 = .ok (.rdDrpre 32) := by decide
theorem test_decode_rdDrpost : decode 0b00000000000000000100000000100111#32 = .ok (.rdDrpost 64) := by decide
theorem test_decode_rdCurir : decode 0b00000000000000001000000000101000#32 = .ok (.rdCurir 128) := by decide
theorem test_decode_rdCurirk : decode 0b00000000000000001111111100101001#32 = .ok (.rdCurirk 255) := by decide

/-- The illegal words of 95_test_vectors.md, and V-R13. -/
theorem test_decode_illegal : decode 0x00000000#32 = .error .reservedOpcode ∧ decode 0x00000006#32 = .error .reservedOpcode ∧
    decode 0x0000002A#32 = .error .reservedOpcode ∧ decode 0x000000FF#32 = .error .reservedOpcode ∧
    decode 0x00000101#32 = .error .mustBeZero ∧ decode 0x00010003#32 = .error .mustBeZero ∧
    decode 0x10000003#32 = .error .mustBeZero ∧ decode 0x00000110#32 = .error .mustBeZero ∧
    decode 0x20000004#32 = .error .reservedBits := by decide

/-- The assembler's words (R81), from 95_test_vectors.md. -/
theorem test_encode : encode (.shiftDr 2 40 true) = 0x10280204#32 ∧ encode (.shiftDr 0 65 false) = 0x00410004#32 ∧
    encode (.writeIr 3) = 0x00000303#32 ∧ encode (.rdCurirk 1) = 0x00000129#32 ∧ encode .rdCount = 0x00000010#32 := by
  decide

/-- The word is taken as the opcode table numbers its bits; more than one word is no command (R85). -/
theorem test_table_word : decodeTableWord 32 0x10200104 = some (.shiftDr 1 32 true) ∧
    decodeTableWord 8 0x01 = some .scan ∧ decodeTableWord 32 0 = none ∧ decodeTableWord 40 1 = none := by decide

/-! ### One step of each command -/

theorem test_scan : status (exec .scan s3) = some 0x10030011#32 := by decide
theorem test_scan_in_hook : answer (exec .scan s3h) = some (0#32, .badState) := by decide
theorem test_scanh : status (exec .scanh s3) = some 0x10030011#32 := by decide
theorem test_scanh_in_hook : answer (exec .scanh s3h) = some (0#32, .badState) := by decide
/-- V-E1. -/
theorem test_hookDone_in_idle : answer (exec .hookDone State.reset) = some (0#32, .badState) := by decide
theorem test_hookDone : status (exec .hookDone s3h) = some 0x22030011#32 := by decide
/-- V-A8. -/
theorem test_writeIr_index : answer (exec (.writeIr 3) s3) = some (0#32, .badIndex) := by decide
/-- V-A2, the hit, and V-A12, a value that differs above the IR length. -/
theorem test_writeIr_hit : status (exec (.writeIr 1) { s3k with arg := 0x0A#32 }) = some 0x00030010#32 ∧
    status (exec (.writeIr 1) { s3k with arg := 0x2A#32 }) = some 0x30030011#32 := by decide
/-- V-A9, V-A10 and V-A11. -/
theorem test_shiftDr_refused : answer (exec (.shiftDr 0 0 false) s3) = some (0#32, .badNbits) ∧
    answer (exec (.shiftDr 0 65 false) s3) = some (0#32, .badNbits) ∧
    answer (exec (.shiftDr 5 0 false) s3) = some (0#32, .badIndex) := by decide
theorem test_shiftDr : status (exec (.shiftDr 0 64 true) s3) = some 0x38030011#32 := by decide
/-- V-R1 to V-R12 and V-R14; V-R6 is the refusal. -/
theorem test_rdCount : answer (exec .rdCount s3k) = some (3#32, .none) := by decide
theorem test_rdIdcode : answer (exec (.rdIdcode 0) s3k) = some (0x4BA00477#32, .none) := by decide
theorem test_rdIrlen : answer (exec (.rdIrlen 1) s3k) = some (5#32, .none) := by decide
theorem test_rdDesc : answer (exec (.rdDesc 0) s3k) = some (0xFFFFFFFF#32, .none) := by decide
theorem test_rdIndex : answer (exec (.rdIndex 2) s3k) = some (2#32, .none) := by decide
theorem test_rdIndex_refused : answer (exec (.rdIndex 3) s3k) = some (0#32, .badIndex) := by decide
theorem test_rdIrpre : answer (exec (.rdIrpre 2) s3k) = some (9#32, .none) := by decide
theorem test_rdIrpost : answer (exec (.rdIrpost 0) s3k) = some (6#32, .none) := by decide
theorem test_rdDrpre : answer (exec (.rdDrpre 1) s3k) = some (1#32, .none) := by decide
theorem test_rdDrpost : answer (exec (.rdDrpost 0) s3k) = some (2#32, .none) := by decide
theorem test_rdCurir : answer (exec (.rdCurir 1) s3k) = some (0x0A#32, .none) := by decide
theorem test_rdCurirk : answer (exec (.rdCurirk 1) s3k) = some (1#32, .none) ∧
    answer (exec (.rdCurirk 0) s3k) = some (0#32, .none) := by decide

/-! ### The window -/

/-- V-E4: from reset, the word 0 to CMD. -/
theorem test_illegal_word : status (step (State.reset.withFetchWord 32 0)) = some 0x00000700#32 := by decide
/-- V-E5: an illegal word in HOOK mode is ILLEGAL_CMD, not BAD_STATE. -/
theorem test_illegal_in_hook : answer (step (s3h.withFetchWord 32 0x101)) = some (0#32, .illegalCmd) := by decide
/-- V-D9: a command while BUSY sets DROP alone (STATUS before it: `0x14000011`, V-M5). -/
theorem test_drop : status (step ((scanAt .idShift .shiftDr).withEnv [.host (.store .word 0x1000 0x10#32)])) =
    some 0x14000019#32 := by decide
/-- V-M2: PARAMS with the defaults. -/
theorem test_params : lastOut (step (State.reset.withEnv [.host (.load .word 0x014)])) = some (.loadData 0x02001020#32) := by
  decide
/-- V-M1, V-M3 and V-M5: the faults. -/
theorem test_window_faults : faultOf (step (State.reset.withEnv [.host (.load .word 0x002)])) = some .busError ∧
    faultOf (step (State.reset.withEnv [.host (.load ⟨16⟩ 0x004)])) = some .busError ∧
    faultOf (step (State.reset.withEnv [.host (.load .word 0x100)])) = some .hintReadUnwritten ∧
    faultOf (step ((scanAt .idShift .shiftDr).withEnv [.host (.store .word 0x1200 0#32)])) = some .dinWriteBusy ∧
    faultOf (step (State.reset.withEnv [.host (.load .word 0x1000)])) = some .outsideWindow := by decide
/-- V-M6: a HINT store is little-endian. -/
theorem test_hint_store : (match step (State.reset.withEnv [.host (.store .word 0x100 0x00010504#32)]) with
    | .next t => t.hint
    | .fault _ => []
    | .refused _ => []) = [(0, 4#8), (1, 5#8), (2, 1#8), (3, 0#8)] := by decide
/-- V-D8: HOOK at the second pause. -/
theorem test_hook_word : s3h.hookWord = 0x80000101#32 := by decide

/-! ### The scan's arithmetic -/

/-- V-O1: the postscans of the lengths 2, 8, 3, 7. -/
theorem test_backfill : (backfill [scanned 0#32 2#8 0#16 0#16 0#8 0#8, scanned 0#32 8#8 2#16 0#16 0#8 0#8,
    scanned 0#32 3#8 10#16 0#16 0#8 0#8, scanned 0#32 7#8 13#16 0#16 0#8 0#8, DevRec.zero] 3).map (·.irPostscan) =
    [18#16, 10#16, 7#16, 0#16, 0#16] := by decide
/-- V-D8: the descriptor search. -/
theorem test_match : [0x4BA00477#32, 0x06413041#32, 0x0F0F0F0F#32, 0x00000000#32].map (matchDescriptor small.descTable) =
    [some 0, some 1, some 1, none] := by decide
/-- V-S3 row 11 and V-D6: a hinted capture records its length, and a first bit 0 warns. -/
theorem test_hint_capture : (match step { (scanAt .irHint .shiftIr) with
      hint := [(0, 4#8), (1, 5#8)], env := [.tap (cap 2)] } with
    | .next t => some (t.slot 0, t.k, t.pre, t.warnIr0, t.phase)
    | .fault _ => none
    | .refused _ => none) = some (scanned 0#32 4#8 0#16 0#16 0#8 0#8, 1#9, 4#16, true, .irHint) := by decide +kernel
/-- V-S3 row 19: the last DR capture of three. -/
theorem test_dr_capture : (match step { (scanAt .drCount .shiftDr) with cnt := 3#9, i := 2#9, env := [.tap (cap 0)] } with
    | .next t => some ((t.slot 2).drPrescan, (t.slot 2).drPostscan, t.i)
    | .fault _ => none
    | .refused _ => none) = some (2#8, 0#8, 3#9) := by decide +kernel
/-- V-A1: the value shift of WRITE_IR 1 with ARG `0x0A`. -/
theorem test_value_request : { s3k.started 0x103#32 .wiVal with oplArg := 0x0A#32 }.tapRequest =
    some (.shift (.vec 0b01010#2048) 5 false) := by decide +kernel
/-- V-A5: the data shift of SHIFT_DR 1, 32, CAP. -/
theorem test_data_request : s3d.tapRequest = some (.shiftCapture (.vec 0x12345678#2048) 32 false) := by decide +kernel

/-- R90: the request of V-A5 on a bus of max(32, 64) bits, and on the narrowest one. -/
theorem test_bus_width : small.busWidth = 64 ∧ { small with maxDrWords := 1 }.busWidth = 32 ∧
    (TapReq.shiftCapture (.vec 0x12345678#2048) 32 false).bus small = ⟨6#3, 32#16, 0#1, 1#1, 0x12345678#64⟩ := by
  decide +kernel
/-- R90: of a draw of all ones the response to a 5-bit capture carries five, and LAST; INIT's carries OK alone. -/
theorem test_response : (TapReq.shiftCapture .ones 5 false).respBus small { ok := true, tdo := BitVec.allOnes 2048 } =
      ⟨0#1, 0b11111#64, 1#1⟩ ∧
    TapReq.init.respBus small { ok := true, tdo := BitVec.allOnes 2048 } = ⟨1#1, 0#64, 0#1⟩ := by decide +kernel

/-! ### States that meet the hypotheses of each statement, at the ends of their ranges -/

theorem small_legal : small.Legal := ⟨by decide, by decide, by decide, by decide, by decide, by decide, by decide, by decide⟩

/-- Default parameters, and parameters at both ends of every range. -/
theorem test_hyp_ResetMeetsTheInvariants : Params.default.Legal ∧
    (Params.mk 255 32 64 (List.replicate 255 ⟨0#32, 0#32⟩) 0x1000).Legal ∧ (Params.mk 1 1 1 [] 0).Legal :=
  ⟨⟨by decide, by decide, by decide, by decide, by decide, by decide, by decide, by decide⟩,
    ⟨by decide, by decide, by decide, by decide, by decide, by decide, (List.length_replicate ..).le, by decide⟩,
    ⟨by decide, by decide, by decide, by decide, by decide, by decide, by decide, by decide⟩⟩

theorem test_hyp_DecodeAfterEncode : (Instr.shiftDr 255 4095 true).wellFormed = true ∧ (Instr.shiftDr 0 0 false).wellFormed = true ∧
    (Instr.rdCurirk 255).wellFormed = true ∧ Instr.scan.wellFormed = true := by decide

theorem test_hyp_EncodeAfterDecode : decode 0x1FFFFF04#32 = .ok (.shiftDr 255 4095 true) ∧
    decode 0x00000010#32 = .ok .rdCount := by decide

theorem test_hyp_LegalWordsMatchOneRow : (0x00000003#32, 0xFFFF00FF#32) ∈ opcodeRows ∧
    0x00000103#32 &&& 0xFFFF00FF#32 = 0x00000003#32 ∧
    (∀ row ∈ opcodeRows, 0x00000101#32 &&& row.2 ≠ row.1) ∧ (∀ row ∈ opcodeRows, 0x20000004#32 &&& row.2 ≠ row.1) := by
  simp [opcodeRows]

theorem test_hyp_StepRunsTheDecodedCommand : decode 0x10200104#32 = .ok (.shiftDr 1 32 true) := by decide

theorem test_hyp_StepTakesOneMove : ∃ t, step s3 = .next t := ⟨s3, rfl⟩

theorem test_hyp_Accepting : s3.Accepting ∧ s3h.Accepting ∧ 0 < s3.deviceCount.toNat ∧ 2 < s3.deviceCount.toNat :=
  ⟨.inl rfl, .inr rfl, by decide, by decide⟩

theorem test_hyp_ReadbacksAnswerTheirField : s3h.Accepting ∧ 0 < s3h.deviceCount.toNat ∧ 2 < s3h.deviceCount.toNat :=
  ⟨.inr rfl, by decide, by decide⟩

theorem test_hyp_BadOperandsAreRefused : s3.Accepting ∧ 2 < s3.deviceCount.toNat ∧
    ((0 : Nat) = 0 ∨ 32 * s3.params.maxDrWords < 0) ∧ ((65 : Nat) = 0 ∨ 32 * s3.params.maxDrWords < 65) ∧
    s3.deviceCount.toNat ≤ 3 ∧ s3.deviceCount.toNat ≤ 255 ∧ State.reset.Accepting ∧ State.reset.deviceCount.toNat ≤ 0 :=
  ⟨.inl rfl, by decide, by decide, by decide, by decide, by decide, .inl rfl, by decide⟩

theorem test_hyp_ScansStart : State.reset.phase = .idle ∧ s3.phase = .idle := by decide

theorem test_hyp_HookDoneResumes : s3h.phase = .hookWait := by decide

theorem test_hyp_WrongWordOrModeIsRefused : s3.Accepting ∧ s3h.Accepting ∧ decode 0x00000000#32 = .error .reservedOpcode ∧
    decode 0x00000101#32 = .error .mustBeZero ∧ s3h.phase = .hookWait ∧ s3.phase = .idle :=
  ⟨.inl rfl, .inr rfl, by decide, by decide, rfl, rfl⟩

/-- The hit; the unknown cache; and the second command after a miss. -/
theorem test_hyp_CacheHitIsImmediate : { s3k with arg := 0x0A#32 }.Accepting ∧
    1 < { s3k with arg := 0x0A#32 }.deviceCount.toNat ∧ ({ s3k with arg := 0x0A#32 }.slot 1).curKnown = true ∧
    ({ s3k with arg := 0x0A#32 }.slot 1).currentIr = { s3k with arg := 0x0A#32 }.arg ∧ (s3.slot 1).curKnown = false ∧
    1 < s3.table.length ∧
    ∃ t u : State, exec (.writeIr 1) s3 = .next t ∧ u.table = t.table ∧ u.deviceCount = s3.deviceCount ∧ u.arg = s3.arg ∧
      u.Accepting :=
  ⟨.inl rfl, by decide, by decide, by decide, by decide, by decide,
    ((s3.latch (encode (.writeIr 1))).fillCache 1 s3.arg).goto .wiEnter,
    ((s3.latch (encode (.writeIr 1))).fillCache 1 s3.arg).goto .idle, rfl, rfl, rfl, rfl, .inl rfl⟩

theorem test_hyp_CacheMissFillsAndStarts : s3.Accepting ∧ 0 < s3.deviceCount.toNat ∧ (s3.slot 0).curKnown = false ∧
    2 < s3k.deviceCount.toNat ∧ (s3k.slot 1).currentIr ≠ s3k.arg :=
  ⟨.inl rfl, by decide, by decide, by decide, by decide⟩

theorem test_hyp_ShiftDrStarts : s3.Accepting ∧ 2 < s3.deviceCount.toNat ∧ 1 ≤ 64 ∧ 64 ≤ 32 * s3.params.maxDrWords ∧
    1 ≤ 32 * s3.params.maxDrWords := ⟨.inl rfl, by decide, by decide, by decide, by decide⟩

theorem not_accepting (s : State) (h : s.phase ≠ .idle ∧ s.phase ≠ .hookWait) : ¬ s.Accepting :=
  fun ha => ha.elim h.1 h.2

theorem test_hyp_BusyCommandIsDropped : ¬ s3d.Accepting ∧ s3h.Accepting ∧
    ∃ t, step (s3h.withEnv [.host (.store .word s3h.params.windowBase 0x10#32)]) = .next t :=
  ⟨not_accepting _ (by decide), .inr rfl, _, rfl⟩

theorem test_hyp_ReadbackFrame : ∃ t u, exec (.rdIdcode 0) s3 = .next t ∧ exec .rdCount s3d = .next u := ⟨_, _, rfl, rfl⟩

theorem test_hyp_StartingCommandFrame : ∃ t u v w, exec .scan s3 = .next t ∧ exec .hookDone s3h = .next u ∧
    exec (.shiftDr 0 64 true) s3 = .next v ∧ exec .scanh s3d = .next w := ⟨_, _, _, _, rfl, rfl, rfl, rfl⟩

theorem test_hyp_WriteIrFrame : ∃ t u, exec (.writeIr 0) s3k = .next t ∧ exec (.writeIr 255) s3k = .next u :=
  ⟨_, _, rfl, rfl⟩

theorem test_hyp_ClearStageClears : (scanAt .scClear .unknown).phase = .scClear ∧ (scanAt .scClear .unknown).CoreTurn ∧
    { scanAt .scClear .unknown with env := [.core] }.CoreTurn := ⟨rfl, .inl rfl, .inr rfl⟩

theorem test_hyp_InitStage : (∃ t, step (scanAt .scClear .unknown) = .next t) ∧
    { scanAt .scInit .unknown with tapReady := false }.phase = .scInit ∧
    { scanAt .scInit .unknown with tapReady := false }.tapReady = false ∧ (cap 0).ok = true ∧ TapResp.silent.ok = false :=
  ⟨⟨_, rfl⟩, rfl, rfl, rfl, rfl⟩

/-- No device, and the capacity and one more (MAX_DEVS is 3). -/
theorem test_hyp_IdcodeReadOut : (scanAt .idShift .shiftDr).phase = .idShift ∧ (scanAt .idShift .shiftDr).n = 0#9 ∧
    (scanAt .idShift .shiftDr).table.length = (scanAt .idShift .shiftDr).params.maxDevs + 1 ∧
    (∀ r ∈ ([] : List TapResp), r.tdo.setWidth 32 ≠ all1) ∧
    (∀ r ∈ [cap 0x4BA00477, cap 0x06413041, cap 0x0F0F0F0F, cap 0], r.tdo.setWidth 32 ≠ all1) ∧
    (cap 0xFFFFFFFF).tdo.setWidth 32 = all1 ∧
    [cap 0x4BA00477, cap 0x06413041, cap 0x0F0F0F0F, cap 0].length = (scanAt .idShift .shiftDr).params.maxDevs + 1 :=
  by decide +kernel

/-- A SCANH at IR_ENTER with a terminated list, a full list, and an entry out of range. -/
def hinting (h : Memory Byte) : State := { scanAt .irEnter .runTestIdle with oplCmd := 0x2#32, hint := h }

theorem test_hyp_HintedIrStage : (hinting []).phase = .irEnter ∧ (hinting []).hinted = true ∧
    (hinting []).table.length = (hinting []).params.maxDevs + 1 ∧
    (∃ h, (hinting [(0, 5#8), (1, 0#8)]).hint.read 1 = some h ∧ (h = 0#8 ∨ small.maxIrLen < h.toNat)) ∧
    (∃ h, (hinting [(0, 6#8)]).hint.read 0 = some h ∧ (h = 0#8 ∨ small.maxIrLen < h.toNat)) ∧
    ((hinting [(0, 1#8), (1, 5#8), (2, 3#8)]).hint.read 2 = some 3#8 ∧ 1 ≤ (3#8).toNat ∧ (5#8).toNat ≤ small.maxIrLen ∧
      [1#8, 5#8, 3#8].length = small.maxDevs) :=
  ⟨by decide, by decide, by decide, ⟨0#8, by decide, by decide⟩, ⟨6#8, by decide, by decide⟩, by decide⟩

theorem test_hyp_ProbedIrStage : (scanAt .irFirst .shiftIr).phase = .irFirst ∧ [2, 5, 3].length ≤ small.maxDevs ∧
    (∀ l ∈ [2, 5, 3], 2 ≤ l ∧ l ≤ small.maxIrLen) ∧ ([] : List Nat).length ≤ small.maxDevs ∧
    (scanAt .irFirst .shiftIr).table.length = small.maxDevs + 1 := by decide

/-- One device with one bit, and the last device with the longest register. -/
theorem test_hyp_ProbeStep : { scanAt .irProbe .shiftIr with dev := 3#9, len := 5#8 }.phase = .irProbe ∧
    { scanAt .irProbe .shiftIr with dev := 3#9, len := 5#8 }.dev.toNat ≤ small.maxDevs ∧
    { scanAt .irProbe .shiftIr with dev := 3#9, len := 5#8 }.len.toNat ≤ small.maxIrLen ∧
    1 ≤ { scanAt .irProbe .shiftIr with dev := 0#9, len := 1#8 }.len.toNat ∧ (bitResp true).last 1 = true ∧
    (bitResp false).last 1 = false := by decide +kernel

/-- As many zeros as the count, fewer, and one more. -/
theorem test_hyp_DrCountPass : { scanAt .drEnter .runTestIdle with cnt := 3#9 }.phase = .drEnter ∧
    { scanAt .drEnter .runTestIdle with cnt := 3#9 }.cnt.toNat ≤ small.maxDevs ∧
    (∀ r ∈ List.replicate 4 (bitResp false), r.last 1 = false) ∧ (bitResp true).last 1 = true ∧
    (List.replicate 3 (bitResp false)).length = { scanAt .drEnter .runTestIdle with cnt := 3#9 }.cnt.toNat ∧
    (List.replicate 0 (bitResp false)).length < { scanAt .drEnter .runTestIdle with cnt := 3#9 }.cnt.toNat ∧
    (List.replicate 4 (bitResp false)).length = { scanAt .drEnter .runTestIdle with cnt := 3#9 }.cnt.toNat + 1 := by
  decide +kernel

/-- The V-S3 records before their postscans, and no record. -/
def posting (c : BitVec 9) : State := { s3 with
  phase := .scPost, cnt := c, table := threeRecords.map (fun r => { r with irPostscan := 0#16 }) ++ [DevRec.zero] }

theorem zero_past (l : List DevRec) (h : ∀ r ∈ l, r.irPostscan = 0#16) (a : Nat) :
    (l.getD a DevRec.zero).irPostscan = 0#16 := by
  rw [List.getD_eq_getElem?_getD]
  cases hx : l[a]? with
  | none => rfl
  | some r => exact h r (List.mem_of_getElem? hx)

theorem test_hyp_PostscanBackfill : (posting 3#9).phase = .scPost ∧ (posting 3#9).CoreTurn ∧
    (posting 3#9).cnt.toNat ≤ (posting 3#9).table.length ∧ (posting 3#9).irSum (posting 3#9).cnt.toNat < 65536 ∧
    (∀ a, ((posting 3#9).slot a).irPostscan = 0#16) ∧ (posting 0#9).irSum 0 < 65536 :=
  ⟨rfl, .inl rfl, by decide, by decide, zero_past _ (by decide), by decide⟩

/-- Device 0 with a match, device 2 with none; `j = 3` is past the last device. -/
def classifying (j : BitVec 9) : State := { s3 with
  phase := .scClassify, j := j
  table := [scanned 0x4BA00477#32 4#8 0#16 6#16 0#8 2#8, scanned 0x06413041#32 5#8 4#16 1#16 1#8 1#8,
    scanned 0x00000000#32 1#8 9#16 0#16 2#8 0#8, DevRec.zero] }

theorem test_hyp_ClassifyOneDevice : (classifying 0#9).phase = .scClassify ∧ (classifying 0#9).CoreTurn ∧
    (classifying 0#9).j.toNat < (classifying 0#9).cnt.toNat ∧ (classifying 2#9).j.toNat < (classifying 2#9).cnt.toNat ∧
    (classifying 0#9).cnt.toNat ≤ small.maxDevs ∧ (classifying 0#9).table.length = small.maxDevs + 1 ∧
    ((classifying 0#9).slot 0).idcode &&& 0x0FFFFFFF#32 = 0x0BA00477#32 ∧
    ((classifying 1#9).slot 1).idcode &&& 0x0FFFFFFF#32 ≠ 0x0BA00477#32 ∧
    ((classifying 1#9).slot 1).idcode &&& 0x00000001#32 = 0x00000001#32 ∧
    (∀ e ∈ small.descTable, ((classifying 2#9).slot 2).idcode &&& e.mask ≠ e.expected) ∧
    (classifying 3#9).cnt.toNat ≤ (classifying 3#9).j.toNat :=
  ⟨rfl, .inl rfl, by decide, by decide, by decide, by decide, by decide, by decide, by decide, by decide, by decide⟩

/-- The hook of the last device is followed by the completion, though HOOK_DONE was accepted in HOOK mode (R142, R205). -/
theorem test_last_hook_completes : answer (step { classifying 3#9 with fromHook := true, err := .badIndex, result := 7#32 }) =
    some (3#32, .none) := by decide
/-- RST after a scan: nothing is known of the TAP's state any more (R39). -/
theorem test_rst_forgets_the_tap : (match step (s3.withEnv [.rst]) with
    | .next t => t.tapCtl
    | .fault _ => .runTestIdle
    | .refused _ => .runTestIdle) = .unknown := by decide

/-! ### The invariant in some states -/

theorem small_zero (a : Nat) : (State.resetWith small).slot a = DevRec.zero := by
  simp only [State.slot, State.resetWith, List.getD_eq_getElem?_getD, List.getElem?_replicate]
  split <;> rfl

theorem s3_shape : s3.Shape :=
  ⟨small_legal, by decide, by decide, by decide, by decide, fun _ _ => rfl, fun _ _ => rfl⟩

theorem s3_final : s3.TableFinal := by
  refine ⟨by decide, ?_, ?_, ?_, by unfold State.SentinelZero; decide⟩
  · unfold State.IrDone; decide
  · unfold State.DrDone; decide
  · unfold State.PostDone; decide

theorem s3_inv : s3.Inv := ⟨s3_shape, ⟨s3_final, rfl⟩, fun _ => rfl, fun _ _ => rfl⟩

theorem s3h_inv : s3h.Inv :=
  ⟨⟨small_legal, by decide, by decide, by decide, by decide, fun _ _ => rfl, fun _ _ => rfl⟩,
    ⟨⟨s3_final.1, s3_final.2, s3_final.3, s3_final.4, s3_final.5⟩, rfl, by decide, by decide, by decide⟩, rfl, fun _ _ => rfl⟩

theorem s3d_inv : s3d.Inv := by
  refine ⟨⟨small_legal, by decide, by decide, by decide, by decide, fun _ _ => rfl, fun w hw => ?_⟩,
    ⟨⟨⟨s3_final.1, s3_final.2, s3_final.3, s3_final.4, s3_final.5⟩, by decide, rfl⟩, by decide, by decide⟩, rfl, fun _ _ => rfl⟩
  have h2 : 2 ≤ w := hw
  show Memory.read [(0, 0x12345678#32)] w = none
  rw [Memory.read_cons, if_neg (by omega)]
  rfl

theorem building_inv {p : Phase} {c : TapCtl} (h : p = .idEnter ∧ c = .runTestIdle) : (scanAt p c).Inv := by
  obtain ⟨rfl, rfl⟩ := h
  exact ⟨⟨small_legal, by decide, by decide, by decide, by decide, fun _ _ => rfl, fun _ _ => rfl⟩,
    ⟨⟨rfl, rfl, small_zero 3⟩, small_zero, rfl⟩, rfl, fun _ _ => rfl⟩

theorem failing_inv : { scanAt .failExit .shiftDr with failCode := .chainOverrun }.Inv :=
  ⟨⟨small_legal, by decide, by decide, by decide, by decide, fun _ _ => rfl, fun _ _ => rfl⟩,
    ⟨rfl, rfl, rfl, by decide⟩, .inr rfl, fun _ _ => rfl⟩

theorem test_hyp_FailedScanClears : { scanAt .failExit .shiftDr with failCode := .chainOverrun }.phase = .failExit ∧
    { scanAt .failExit .shiftDr with failCode := .chainOverrun }.tapCtl = .shiftDr ∧
    { scanAt .failExit .shiftDr with failCode := .chainOverrun }.Inv := ⟨rfl, rfl, failing_inv⟩

theorem test_hyp_EmptyChainSucceeds : s3.phase = .idle ∧ s3.params.Legal ∧ s3.tapReady = true ∧
    State.reset.phase = .idle ∧ State.reset.params.Legal ∧ State.reset.tapReady = false :=
  ⟨rfl, small_legal, rfl, rfl, test_hyp_ResetMeetsTheInvariants.1, rfl⟩

/-- Device 0 (no leading padding), 1 (both), 2 (no trailing padding); 5, 4 and 4 requests (V-A1, V-A3, V-A4b). -/
theorem test_hyp_WriteIrToCompletion : s3.Accepting ∧ s3h.Accepting ∧ 0 < s3.deviceCount.toNat ∧ 2 < s3.deviceCount.toNat ∧
    s3.deviceCount.toNat ≤ s3.table.length ∧ s3.tapCtl = .runTestIdle ∧ (s3.slot 2).irLength ≠ 0#8 ∧
    (s3.slot 0).curKnown = false ∧
    (List.replicate 4 (cap 0)).length = 3 + (if (s3.slot 0).irPrescan = 0#16 then 0 else 1) +
      (if (s3.slot 0).irPostscan = 0#16 then 0 else 1) ∧
    (List.replicate 5 (cap 0)).length = 3 + (if (s3.slot 1).irPrescan = 0#16 then 0 else 1) +
      (if (s3.slot 1).irPostscan = 0#16 then 0 else 1) ∧
    (List.replicate 4 (cap 0)).length = 3 + (if (s3.slot 2).irPrescan = 0#16 then 0 else 1) +
      (if (s3.slot 2).irPostscan = 0#16 then 0 else 1) :=
  ⟨.inl rfl, .inr rfl, by decide, by decide, by decide, rfl, by decide, by decide, by decide, by decide, by decide⟩

/-- One bit and all 64 bits, on device 0 and on device 1. -/
theorem test_hyp_ShiftDrToCompletion : { s3 with din := [(0, 0#32), (1, 0#32)] }.Accepting ∧ 1 ≤ 64 ∧ 64 < 4096 ∧
    64 ≤ 32 * s3.params.maxDrWords ∧ s3.tapCtl = .runTestIdle ∧
    (∃ v, ({ s3 with din := [(0, 0#32), (1, 0#32)] }.started (encode (.shiftDr 1 64 true)) .sdData).dinVector = some v) ∧
    (∃ v, ({ s3 with din := [(0, 0#32), (1, 0#32)] }.started (encode (.shiftDr 0 1 false)) .sdData).dinVector = some v) ∧
    [cap 0].length = 1 + (if (s3.slot 0).drPrescan = 0#8 then 0 else 1) ∧
    [cap 0, cap 0].length = 1 + (if (s3.slot 1).drPrescan = 0#8 then 0 else 1) ∧
    [cap 0, cap 0].length = 1 + (if (s3.slot 1).drPostscan = 0#8 then 0 else 1) :=
  ⟨.inl rfl, by decide, by decide, by decide, rfl, ⟨_, rfl⟩, ⟨_, rfl⟩, by decide, by decide, by decide⟩

/-- Bits 0 and 31 of the one word taken, and bit 32, above the count. -/
theorem test_hyp_ShiftedVectors : s3d.dinVector = some 0x12345678#2048 ∧ s3d.oplNbits = 32 ∧ 31 < s3d.oplNbits ∧
    s3d.din.read (31 / 32) = some 0x12345678#32 ∧ s3d.oplNbits ≤ 32 := by decide +kernel

theorem test_hyp_StepKeepsShape : s3.Shape ∧ ∃ t, step s3 = .next t := ⟨s3_shape, _, rfl⟩

/-- In IDLE, in HOOK_WAIT, in a running command and in a failing scan. -/
theorem test_hyp_StepKeepsInv : s3.Inv ∧ s3h.Inv ∧ s3d.Inv ∧ State.Inv { scanAt .failExit .shiftDr with failCode := .chainOverrun } ∧
    ∃ t, step s3h = .next t := ⟨s3_inv, s3h_inv, s3d_inv, failing_inv, _, rfl⟩

theorem one_known (s : State) (c : Nat) (h : ∀ a, (s.slot a).curKnown = true → a = c) : s.OneKnown :=
  fun _ _ ha hb => (h _ ha).trans (h _ hb).symm

theorem past_end {s : State} {a : Nat} (h : s.table.length ≤ a) : s.slot a = DevRec.zero := by
  simp only [State.slot, List.getD_eq_getElem?_getD, List.getElem?_eq_none h]
  rfl

theorem s3k_known : ∀ a, (s3k.slot a).curKnown = true → a = 1 := by
  intro a ha
  rcases Nat.lt_or_ge a 4 with h | h
  · have : ∀ a, a < 4 → (s3k.slot a).curKnown = true → a = 1 := by decide
    exact this a h ha
  · rw [past_end h] at ha
    cases ha

theorem test_hyp_StepKeepsOneKnownCache : s3k.OneKnown ∧ (s3k.slot 1).curKnown = true ∧ ∃ t, step s3k = .next t :=
  ⟨one_known _ 1 s3k_known, by decide, _, rfl⟩

theorem test_hyp_StepKeepsRecordsReal : s3.Inv ∧ s3.IdcodesReal ∧ s3.DescriptorsReal ∧ ∃ t, step s3 = .next t := by
  refine ⟨s3_inv, fun a => ?_, fun a ha => ?_, _, rfl⟩
  · rcases Nat.lt_or_ge a 4 with h | h
    · have : ∀ a, a < 4 → (s3.slot a).idcode ≠ all1 := by decide
      exact this a h
    · rw [past_end h]
      decide
  · rcases Nat.lt_or_ge a 4 with h | h
    · have : ∀ a, a < 4 → (s3.slot a).descValid = false := by decide
      rw [this a h] at ha
      cases ha
    · rw [past_end h] at ha
      cases ha

theorem test_hyp_LiveOffsets : s3.Inv ∧ 0 < s3.deviceCount.toNat ∧ 2 < s3.deviceCount.toNat ∧ s3d.Inv ∧
    2 < s3d.deviceCount.toNat := ⟨s3_inv, by decide, by decide, s3d_inv, by decide⟩

theorem test_hyp_OffsetIdentity : s3.Inv ∧ s3.phase ≠ .scPost ∧ s3.phase ≠ .failExit ∧ s3.phase ≠ .failIdle ∧
    s3.phase ≠ .failClear ∧ 2 < s3.deviceCount.toNat := ⟨s3_inv, by decide, by decide, by decide, by decide, by decide⟩

theorem test_hyp_ShiftCountsFit : s3d.Inv ∧ ∃ q, s3d.tapRequest = some q ∧ q.shiftCount = some 32 :=
  ⟨s3d_inv, .shiftCapture (.vec 0x12345678#2048) 32 false, test_data_request, rfl⟩

theorem test_hyp_VectorsOnTheBus : s3d.Inv ∧ s3d.tapRequest = some (.shiftCapture (.vec 0x12345678#2048) 32 false) ∧
    (TapReq.shiftCapture (.vec 0x12345678#2048) 32 false).shiftCount = some 32 ∧ 31 < 32 := ⟨s3d_inv, test_data_request, rfl, by decide⟩

theorem test_hyp_RequestsKeepTheContract : s3d.Inv ∧ (∃ q, s3d.tapRequest = some q) ∧ s3.Inv ∧ s3.Accepting ∧
    s3.tapReady = true ∧ s3h.Inv ∧ s3h.Accepting :=
  ⟨s3d_inv, ⟨_, test_data_request⟩, s3_inv, .inl rfl, rfl, s3h_inv, .inr rfl⟩

theorem test_hyp_ScanFieldsHaveOneWriter : (∃ t, step s3 = .next t) ∧ s3.env.head? ≠ some .rst ∧
    s3.phase ∈ [Phase.idle, .hookWait, .scClassify, .wiEnter, .wiPre, .wiVal, .wiPost, .wiIdle, .sdEnter, .sdPre, .sdData,
      .sdPost, .sdIdle] ∧ (∃ t, step (classifying 0#9) = .next t) ∧ (classifying 0#9).env.head? ≠ some .rst :=
  ⟨⟨_, rfl⟩, by decide, by decide, ⟨_, rfl⟩, by decide⟩

/-- The three places that write the count, and a warning kept. -/
theorem test_hyp_CountAndFlagWriters : (∃ t, step { s3 with phase := .scClear } = .next t ∧ t.deviceCount ≠ s3.deviceCount) ∧
    (∃ t, step { scanAt .drIdle .exit1Dr with cnt := 3#9, env := [.tap (cap 0)] } = .next t ∧ t.deviceCount = 3#8) ∧
    (∃ t, step { s3 with phase := .failClear } = .next t ∧ t.deviceCount ≠ s3.deviceCount) ∧
    { s3 with warnIr0 := true }.warnIr0 = true ∧ s3.phase ≠ .scClear ∧ s3.tapReady = true ∧ s3.env.head? ≠ some .rst :=
  ⟨⟨_, rfl, by decide⟩, ⟨_, rfl, rfl⟩, ⟨_, rfl, by decide⟩, rfl, by decide, rfl, by decide⟩

theorem test_hyp_OnlyWriteIrFillsACache :
    ∃ t, step (s3.withEnv [.host (.store .word s3.params.windowBase (encode (.writeIr 1)))]) = .next t ∧
      (t.slot 1).curKnown = true ∧ (s3.slot 1).curKnown = false := ⟨_, rfl, by decide, by decide⟩

theorem test_hyp_BuffersHaveOneWriter : (∃ t, step s3 = .next t) ∧ s3.env.head? ≠ some .rst ∧ s3.phase ≠ .sdData ∧
    (∀ wd addr v, s3.env.head? = some (.host (.store wd addr v)) → addr = s3.params.windowBase) ∧
    { s3d with oplCmd := 0x00200104#32 }.oplCap = false :=
  ⟨⟨_, rfl⟩, by decide, by decide, fun _ _ _ h => (nomatch h), by decide⟩

/-- INIT, and a capture of one bit, with responses that differ where R90 reads nothing. -/
theorem test_hyp_ResponsesAreReadAsR90Says : { scanAt .scInit .unknown with tapReady := false }.tapRequest = some .init ∧
    (cap 0).ok = (cap 1).ok ∧ (scanAt .drCount .shiftDr).tapRequest = some (.shiftCapture .ones 1 false) ∧
    (cap 1).tdo.getLsbD 0 = (cap 3).tdo.getLsbD 0 ∧ cap 1 ≠ cap 3 := by decide +kernel

/-- A request completed, and an internal phase. -/
theorem test_hyp_RunningCommandsAreBounded : s3d.Inv ∧ ¬ s3d.Accepting ∧ s3d.tapRequest ≠ none ∧
    (∃ t, step (s3d.withEnv [.tap (cap 0)]) = .next t) ∧ State.Inv { s3 with phase := .scClear } ∧
    { s3 with phase := .scClear }.tapRequest = none ∧ { s3 with phase := .scClear }.CoreTurn :=
  ⟨s3d_inv, not_accepting _ (by decide), by rw [test_data_request]; exact Option.some_ne_none _, ⟨_, rfl⟩,
    ⟨⟨small_legal, by decide, by decide, by decide, by decide, fun _ _ => rfl, fun _ _ => rfl⟩,
      ⟨⟨s3_final.1, s3_final.2, s3_final.3, s3_final.4, s3_final.5⟩, rfl⟩, trivial, fun _ _ => rfl⟩, rfl, .inl rfl⟩

theorem test_hyp_WaitsAreKept : s3d.tapRequest ≠ none ∧ s3d.CoreTurn ∧ s3.Accepting ∧ s3h.Accepting ∧ s3.CoreTurn :=
  ⟨by rw [test_data_request]; exact Option.some_ne_none _, .inl rfl, .inl rfl, .inr rfl, .inl rfl⟩

/-! ### The window's ranges at their ends: MAX_DEVS is 3 and MAX_DR_WORDS 2 -/

theorem test_hyp_RegistersRead : s3.params.Legal := small_legal

theorem test_hyp_ReservedReadsZeroIgnoresStores : (∀ off ∈ [0x018, 0x0FC, 0x400, 0xFFC, 0x104, 0x1FC, 0x208, 0x2FC, 0x308,
      0x3FC], off % 4 = 0 ∧ ((0x018 ≤ off ∧ off < 0x100) ∨ (0x400 ≤ off ∧ off < 0x1000) ∨
        (0x100 + s3.params.maxDevs ≤ off ∧ off < 0x200) ∨ (0x200 + 4 * s3.params.maxDrWords ≤ off ∧ off < 0x300) ∨
        (0x300 + 4 * s3.params.maxDrWords ≤ off ∧ off < 0x400))) ∧
    (∀ off ∈ [0x008, 0x0FC, 0x300, 0xFFC, 0x104, 0x1FC, 0x208, 0x2FC], off % 4 = 0 ∧
      ((0x008 ≤ off ∧ off < 0x100) ∨ (0x300 ≤ off ∧ off < 0x1000) ∨ (0x100 + s3.params.maxDevs ≤ off ∧ off < 0x200) ∨
        (0x200 + 4 * s3.params.maxDrWords ≤ off ∧ off < 0x300))) ∧
    s3.params.maxDevs ≤ 4 * 0 + 3 ∧ s3.params.maxDevs ≤ 4 * 63 + 0 ∧
    (∃ t, step (s3.withEnv [.host (.store .word (s3.params.windowBase + 0x100) 0x00010504#32)]) = .next t) ∧
    lastOut (step ({ s3 with hint := [(0, 4#8), (1, 5#8), (2, 1#8)] }.withEnv
        [.host (.load .word (s3.params.windowBase + 0x100 + 4 * 0))])) = some (.loadData 0x00010504#32) :=
  ⟨by decide, by decide, by decide, by decide,
    ⟨_, (step_store (by decide) (by decide)).trans rfl⟩, by decide⟩

theorem test_hyp_BadAccessIsABusError : ((0xFFF : Nat) < 4096 ∧ (Width.word ≠ .word ∨ 0xFFF % 4 ≠ 0)) ∧
    ((0 : Nat) < 4096 ∧ ((⟨8⟩ : Width) ≠ .word ∨ 0 % 4 ≠ 0)) ∧ ((0 : Nat) < 4096 ∧ ((⟨64⟩ : Width) ≠ .word ∨ 0 % 4 ≠ 0)) := by
  decide

theorem test_hyp_HintStoreIsLittleEndian : s3.Accepting ∧ s3h.Accepting ∧ (0 : Nat) < 64 ∧ (63 : Nat) < 64 :=
  ⟨.inl rfl, .inr rfl, by decide, by decide⟩

/-- The DIN words 0 and 1, and the HINT word 0, of a block that accepts and of one that is busy. -/
theorem test_hyp_StoresByMode : s3.Accepting ∧ (1 : Nat) < 64 ∧ 1 < s3.params.maxDrWords ∧ ¬ s3d.Accepting ∧
    4 * 0 < s3d.params.maxDevs ∧ 1 < s3d.params.maxDrWords :=
  ⟨.inl rfl, by decide, by decide, not_accepting _ (by decide), by decide, by decide⟩

theorem test_hyp_UnwrittenEntriesFault : s3.hint.read 2 = none ∧ 2 < s3.params.maxDevs ∧ s3.din.read 1 = none ∧
    1 < s3.params.maxDrWords ∧ s3.dout.read 63 = none ∧ 63 < 32 * s3.params.maxDrWords ∧
    { scanAt .irHint .shiftIr with k := 2#9 }.k.toNat < small.maxDevs ∧
    { scanAt .irHint .shiftIr with k := 2#9 }.hint.read 2 = none ∧ { scanAt .irHint .shiftIr with k := 2#9 }.CoreTurn ∧
    { s3d with oplCmd := 0x00400104#32 }.phase = .sdData ∧ 63 < { s3d with oplCmd := 0x00400104#32 }.oplNbits ∧
    { s3d with oplCmd := 0x00400104#32 }.din.read (63 / 32) = none ∧ { s3d with oplCmd := 0x00400104#32 }.CoreTurn :=
  ⟨rfl, by decide, rfl, by decide, rfl, by decide, by decide, rfl, .inl rfl, rfl, by decide, by decide, .inl rfl⟩

/-- A HINT word of which three entries exist, a DIN word, and the last DOUT word. -/
theorem test_hyp_WrittenEntriesRead :
    (4 * 0 < s3.params.maxDevs ∧ ¬ 4 * 0 + 3 < s3.params.maxDevs ∧
      ∀ b, b < 4 → 4 * 0 + b < s3.params.maxDevs → ∃ e, Memory.read [(0, 4#8), (1, 5#8), (2, 1#8)] (4 * 0 + b) = some e) ∧
    (0 < s3d.params.maxDrWords ∧ s3d.din.read 0 = some 0x12345678#32) ∧
    (1 < s3.params.maxDrWords ∧
      ∀ b, b < 32 → ∃ c, Memory.read ((List.range 64).map fun x => (x, false)) (32 * 1 + b) = some c) := by
  refine ⟨⟨by decide, by decide, fun b _ hb => ?_⟩, ⟨by decide, by decide⟩, by decide, fun b hb => ?_⟩
  · have : ∀ b, b < 3 → (Memory.read [(0, 4#8), (1, 5#8), (2, 1#8)] (4 * 0 + b)).isSome = true := by decide
    exact Option.isSome_iff_exists.1 (this b ((Nat.zero_add b).symm ▸ hb))
  · have : ∀ b, b < 32 → (Memory.read ((List.range 64).map fun x => (x, false)) (32 * 1 + b)).isSome = true := by decide
    exact Option.isSome_iff_exists.1 (this b hb)

end Slice0
end

section
/-! SUPPORT. What every step of the machine keeps: the parameters and the moves behind the first one (00_scope.md R8,
20_memory.md R69), and the form of the data (10_state.md R22, 20_memory.md R63). -/
namespace Sys2Proof.Machine

variable {s t : State}

/-! ### The moves and the parameters -/

@[simp] theorem storeHintByte_env (k : Nat) (b : Byte) : (s.storeHintByte k b).env = s.env := by
  rw [storeHintByte_frame]

/-- An acceptance step takes no move and changes no parameter (60_exceptions.md R201). -/
theorem Accepted.env_params {i : Instr} (h : Accepted s i t) : t.env = s.env ∧ t.params = s.params := by
  cases h <;> exact ⟨rfl, rfl⟩

theorem acceptIllegal_env_params (w : Word) :
    (s.acceptIllegal w).env = s.env ∧ (s.acceptIllegal w).params = s.params := by
  unfold State.acceptIllegal
  split <;> exact ⟨rfl, rfl⟩

/-- No move but RST changes a parameter or a move to come. -/
theorem Moved.env_params (h : Moved s t) : t.env = s.env ∧ t.params = s.params := by
  cases h with
  | still => exact ⟨rfl, rfl⟩
  | internal _ h => exact phase_env h
  | tap q _ _ h => exact phase_env (s := s.completeRequest q) h
  | command _ _ h => exact h.env_params
  | illegal w => exact acceptIllegal_env_params w
  | arg _ => exact ⟨rfl, rfl⟩
  | hint _ q v => simp [storeHintByte_params]
  | din _ _ _ _ => exact ⟨rfl, rfl⟩
  | load _ => exact ⟨rfl, rfl⟩

/-! ### The form of the data -/

/-- `t` came from `s` without a store to HINT or DIN and keeps all else that `State.Shape` asks for. The slots are as many
as before, or as many as the parameters ask for, which a cleared table has. -/
structure FormKept (s t : State) : Prop where
  params : t.params = s.params
  slots : t.table.length = s.table.length ∨ t.table.length = s.params.maxDevs + 1
  hint : t.hint = s.hint
  din : t.din = s.din
  dout : s.dout.wf → t.dout.wf

theorem FormKept.shape (h : FormKept s t) (hS : s.Shape) : t.Shape where
  legal := h.params ▸ hS.legal
  slots := by rw [h.params]; exact h.slots.elim (·.trans hS.slots) id
  hint_wf := h.hint ▸ hS.hint_wf
  din_wf := h.din ▸ hS.din_wf
  dout_wf := h.dout hS.dout_wf
  hint_only := by rw [h.params, h.hint]; exact hS.hint_only
  din_only := by rw [h.params, h.din]; exact hS.din_only

/-- Finding the next turn of the hinted loop writes no slot and neither of the buffers the host fills (40_discovery.md R124). -/
theorem enterHint_data (u : State) :
    u.enterHint.table = u.table ∧ u.enterHint.hint = u.hint ∧ u.enterHint.din = u.din := by
  unfold State.enterHint
  cases u.hintEntry <;> exact ⟨rfl, rfl, rfl⟩

/-- No phase writes HINT or DIN, and none but SC_CLEAR and FAIL_CLEAR, which lay the table out anew, changes the number of
slots (40_discovery.md R114, R140). -/
theorem phase_data {resp : TapResp} (h : s.phaseStep resp = .next t) :
    (t.table.length = s.table.length ∨ t.table.length = s.params.maxDevs + 1) ∧ t.hint = s.hint ∧ t.din = s.din := by
  cases hp : s.phase <;> simp only [State.phaseStep, hp, Host.Outcome.next.injEq] at h <;> (try subst h)
  case scClear => exact ⟨.inr List.length_replicate, rfl, rfl⟩
  case failClear => exact ⟨.inr List.length_replicate, rfl, rfl⟩
  case scInit => unfold State.phaseScInit; split <;> (try split) <;> exact ⟨.inl rfl, rfl, rfl⟩
  case idShift =>
    unfold State.phaseIdShift
    split
    · exact ⟨.inl rfl, rfl, rfl⟩
    · split <;> exact ⟨.inl (List.length_modify ..), rfl, rfl⟩
  case irEnter =>
    obtain ⟨htab, hhint, hdin⟩ := enterHint_data s.startHints
    unfold State.phaseIrEnter
    split
    · exact ⟨.inl (congrArg List.length htab), hhint, hdin⟩
    · exact ⟨.inl rfl, rfl, rfl⟩
  case irHint =>
    unfold State.phaseIrHint at h
    split at h <;> simp only [Host.Outcome.next.injEq, reduceCtorEq] at h <;> subst h
    case h_2 len _ =>
      obtain ⟨htab, hhint, hdin⟩ := enterHint_data (s.recordHint len resp)
      exact ⟨.inl ((congrArg List.length htab).trans (List.length_modify ..)), hhint, hdin⟩
    all_goals
      obtain ⟨htab, hhint, hdin⟩ := enterHint_data s
      exact ⟨.inl (congrArg List.length htab), hhint, hdin⟩
  case irProbe =>
    have hrec : s.recordProbe.table.length = s.table.length := List.length_modify ..
    unfold State.phaseIrProbe
    split
    · split
      · exact ⟨.inl rfl, rfl, rfl⟩
      · split <;> exact ⟨.inl hrec, rfl, rfl⟩
    · split <;> exact ⟨.inl rfl, rfl, rfl⟩
  case drCount =>
    unfold State.phaseDrCount
    split <;> split
    case isFalse.isFalse => exact ⟨.inl (List.length_modify ..), rfl, rfl⟩
    all_goals exact ⟨.inl rfl, rfl, rfl⟩
  case scPost => unfold State.phaseScPost; split <;> exact ⟨.inl (backfill_length ..), rfl, rfl⟩
  case scClassify =>
    unfold State.phaseScClassify
    split
    · exact ⟨.inl rfl, rfl, rfl⟩
    split
    · exact ⟨.inl (List.length_modify ..), rfl, rfl⟩
    · split <;> exact ⟨.inl rfl, rfl, rfl⟩
  case sdData =>
    unfold State.phaseSdData at h
    split at h <;> simp only [Host.Outcome.next.injEq, reduceCtorEq] at h
    subst h
    exact ⟨.inl rfl, rfl, rfl⟩
  all_goals exact ⟨.inl rfl, rfl, rfl⟩

theorem phase_formKept {resp : TapResp} (h : s.phaseStep resp = .next t) : FormKept s t := by
  obtain ⟨-, hparams⟩ := phase_env h
  obtain ⟨hslots, hhint, hdin⟩ := phase_data h
  refine ⟨hparams, hslots, hhint, hdin, fun hwf => ?_⟩
  obtain hdout | ⟨-, hdout⟩ := phase_dout h
  · exact hdout ▸ hwf
  · exact hdout ▸ Memory.wf_writeBits _ _ _ hwf

/-- An acceptance step leaves the buffers as they are, and a filled cache is a change within the slots
(41_addressed_access.md R163). -/
theorem Accepted.formKept {i : Instr} (h : Accepted s i t) : FormKept s t := by
  cases h with
  | writeIr _ idx _ _ => exact ⟨rfl, .inl (by simp), rfl, rfl, id⟩
  | _ => exact ⟨rfl, .inl rfl, rfl, rfl, id⟩

theorem acceptIllegal_formKept (w : Word) : FormKept s (s.acceptIllegal w) := by
  unfold State.acceptIllegal
  split <;> exact ⟨rfl, .inl rfl, rfl, rfl, id⟩

/-- A store of one HINT byte writes a populated entry or none (20_memory.md R63). -/
theorem State.Shape.storeHintByte (hS : s.Shape) (k : Nat) (b : Byte) : (s.storeHintByte k b).Shape := by
  unfold State.storeHintByte
  split
  · next hk =>
    exact { hS with
      hint_wf := Memory.wf_write _ _ _ hS.hint_wf
      hint_only := fun j (hj : s.params.maxDevs ≤ j) =>
        (Memory.read_write_ne _ _ (by omega)).trans (hS.hint_only j hj) }
  · exact hS

/-- A store of a populated DIN word (20_memory.md R63). -/
theorem State.Shape.storeDin (hS : s.Shape) {w : Nat} (hw : w < s.params.maxDrWords) (v : Word) :
    State.Shape { s with din := s.din.write w v } :=
  { hS with
    din_wf := Memory.wf_write _ _ _ hS.din_wf
    din_only := fun j (hj : s.params.maxDrWords ≤ j) =>
      (Memory.read_write_ne _ _ (by omega)).trans (hS.din_only j hj) }

theorem State.Shape.withEnv (hS : s.Shape) (rest : List Move) : (s.withEnv rest).Shape := { hS with }

/-- A block right after reset has the form, for every legal choice of the parameters (10_state.md R40). -/
theorem shape_resetWith {p : Params} (hp : p.Legal) : (State.resetWith p).Shape where
  legal := hp
  slots := List.length_replicate
  hint_wf := Memory.wf_nil
  din_wf := Memory.wf_nil
  dout_wf := Memory.wf_nil
  hint_only := fun _ _ => rfl
  din_only := fun _ _ => rfl

theorem State.Shape.blockReset (hS : s.Shape) : s.blockReset.Shape := { shape_resetWith hS.legal with }

/-- No move but RST breaks the form: the two stores to HINT and DIN write populated entries, the rest writes neither. -/
theorem Moved.shape (h : Moved s t) (hS : s.Shape) : t.Shape := by
  cases h with
  | still => exact hS
  | internal _ h => exact (phase_formKept h).shape hS
  | tap q _ _ h => exact (phase_formKept h).shape { hS with }
  | command _ _ h => exact h.formKept.shape hS
  | illegal w => exact (acceptIllegal_formKept w).shape hS
  | arg _ => exact { hS with }
  | hint _ _ _ =>
    exact (((hS.storeHintByte _ _).storeHintByte _ _).storeHintByte _ _).storeHintByte _ _
  | din _ _ hw v => exact hS.storeDin hw v
  | load _ => exact { hS with }

end Sys2Proof.Machine

/-! ### The statements of the scope -/

open Sys2Proof Sys2Proof.Machine

/-- Settles O36: RST lays the data out anew, any other move keeps its form (`Moved.shape`). -/
theorem stepKeepsShape : Obligations.StepKeepsShape := by
  intro s t hS h
  obtain ⟨-, rfl⟩ | ⟨-, hm⟩ := step_cases h
  · exact (hS.withEnv _).blockReset
  · exact hm.shape (hS.withEnv _)

/-- Settles O6: RST and every other move go on from the state whose first move is taken (`Moved.env_params`). -/
theorem stepTakesOneMove : Obligations.StepTakesOneMove := by
  intro s t h
  obtain ⟨-, rfl⟩ | ⟨-, hm⟩ := step_cases h
  · exact ⟨rfl, rfl⟩
  · exact hm.env_params

end


section
/-! SUPPORT. Where the TAP controllers are (`State.TapInv`, 20_memory.md R75): a request takes them from where its phase begins
to where the phase's effect finds them, and the effect leaves them where the next phase begins. -/
namespace Sys2Proof.Machine

variable {s t : State}

/-- Where the TAP controllers are when the effect of a phase runs: its request, if it makes one, is completed. -/
def State.TapReached (s : State) : Prop :=
  match s.phase with
  | .idle => (s.tapReady = true ∨ s.deviceCount ≠ 0#8) → s.tapCtl = .runTestIdle
  | .hookWait => s.tapCtl = .runTestIdle
  | .scClear => True
  | .scInit => True
  | .scReset => s.tapCtl = .runTestIdle
  | .idEnter => s.tapCtl = .shiftDr
  | .idShift => s.tapCtl = .shiftDr
  | .idExit => s.tapCtl = .exit1Dr
  | .idIdle => s.tapCtl = .runTestIdle
  | .irEnter => s.tapCtl = .shiftIr
  | .irHint => s.tapCtl = .shiftIr
  | .irFirst => s.tapCtl = .shiftIr
  | .irProbe => s.tapCtl = .shiftIr
  | .irExit => s.tapCtl = .exit1Ir
  | .irIdle => s.tapCtl = .runTestIdle
  | .drEnter => s.tapCtl = .shiftDr
  | .drCount => s.tapCtl = .shiftDr
  | .drExit => s.tapCtl = .exit1Dr
  | .drIdle => s.tapCtl = .runTestIdle
  | .scPost => s.tapCtl = .runTestIdle
  | .scClassify => s.tapCtl = .runTestIdle
  | .failExit => s.tapCtl = .exit1Ir ∨ s.tapCtl = .exit1Dr
  | .failIdle => s.tapCtl = .runTestIdle
  | .failClear => s.tapReady = true → s.tapCtl = .runTestIdle
  | .wiEnter => s.tapCtl = .shiftIr
  | .wiPre => s.tapCtl = .shiftIr
  | .wiVal => s.tapCtl = shiftCtl (decide (s.target.irPostscan = 0#16)) .shiftIr
  | .wiPost => s.tapCtl = .exit1Ir
  | .wiIdle => s.tapCtl = .runTestIdle
  | .sdEnter => s.tapCtl = .shiftDr
  | .sdPre => s.tapCtl = .shiftDr
  | .sdData => s.tapCtl = shiftCtl (decide (s.target.drPostscan = 0#8)) .shiftDr
  | .sdPost => s.tapCtl = .exit1Dr
  | .sdIdle => s.tapCtl = .runTestIdle

/-! ### What a request that depends on the record or on the operands is -/

theorem shiftOnes_some {n : Nat} {exit : Bool} {q : TapReq} (h : shiftOnes n exit = some q) : q = .shift .ones n exit := by
  unfold shiftOnes at h
  split at h <;> cases h
  rfl

theorem hintRequest_some {q : TapReq} (h : s.hintRequest = some q) : ∃ n, q = .shiftCapture .ones n false := by
  unfold State.hintRequest at h
  split at h <;> cases h
  exact ⟨_, rfl⟩

theorem valueRequest_some {q : TapReq} (h : s.valueRequest = some q) :
    ∃ src n, q = .shift src n (decide (s.target.irPostscan = 0#16)) := by
  unfold State.valueRequest at h
  split at h <;> cases h
  exact ⟨_, _, rfl⟩

theorem dataRequest_some {q : TapReq} (h : s.dataRequest = some q) : ∃ src n,
    q = .shiftCapture src n (decide (s.target.drPostscan = 0#8)) ∨
      q = .shift src n (decide (s.target.drPostscan = 0#8)) := by
  unfold State.dataRequest at h
  split at h
  · cases h
  split at h
  · cases h
  split at h <;> cases h
  · exact ⟨_, _, .inl rfl⟩
  · exact ⟨_, _, .inr rfl⟩

theorem shiftOnes_ne_none {n : Nat} {exit : Bool} (h : n ≠ 0) : shiftOnes n exit ≠ none := by
  unfold shiftOnes
  rw [if_neg h]
  exact Option.some_ne_none _

/-- A running addressed command has a value to shift: its device is live, and a live device has an IR
(40_discovery.md R137). -/
theorem State.Addressing.irLength_ne (h : s.Addressing) : s.target.irLength ≠ 0#8 := by
  intro h0
  have hpos := (h.table.ir _ h.live).1
  rw [show s.slot s.oplIdx = s.target from rfl, h0] at hpos
  exact absurd hpos (by decide)

theorem valueRequest_ne_none (h : s.Addressing) : s.valueRequest ≠ none := by
  unfold State.valueRequest
  rw [if_neg h.irLength_ne]
  exact Option.some_ne_none _

/-- SD_DATA goes on only after a shift: a missing DIN word stops it (70_reset_and_hazards.md R232). -/
theorem dataRequest_ne_none {resp : TapResp} (h : s.Shifting) (hs : s.phaseSdData resp = .next t) :
    s.dataRequest ≠ none := by
  have hbits := h.bits_pos
  unfold State.phaseSdData at hs
  unfold State.dataRequest
  rw [if_neg (by omega)]
  cases hd : s.dinVector with
  | none => rw [hd] at hs; cases hs
  | some v => dsimp only; split <;> exact Option.some_ne_none _

/-! ### From where a phase begins to where its effect runs -/

/-- Every request starts from a state its contract allows (20_memory.md R75). -/
theorem request_startsFrom {q : TapReq} (hT : s.TapInv) (hq : s.tapRequest = some q) : q.startsFrom s.tapCtl := by
  unfold State.TapInv at hT
  unfold State.tapRequest at hq
  cases hp : s.phase <;> simp only [hp, reduceCtorEq, Option.some.injEq] at hT hq
  case scInit =>
    split at hq <;> cases hq
    trivial
  case irHint => obtain ⟨n, rfl⟩ := hintRequest_some hq; exact .inl hT
  case wiPre => cases shiftOnes_some hq; exact .inl hT
  case wiVal => obtain ⟨src, n, rfl⟩ := valueRequest_some hq; exact .inl hT
  case wiPost => cases shiftOnes_some hq; exact .inl hT
  case sdPre => cases shiftOnes_some hq; exact .inr hT
  case sdData => obtain ⟨src, n, rfl | rfl⟩ := dataRequest_some hq <;> exact .inr hT
  case sdPost => cases shiftOnes_some hq; exact .inr hT
  all_goals subst hq; simp [TapReq.startsFrom, hT]

/-- A completed request takes the TAP controllers to where the effect of its phase finds them. -/
theorem request_reaches {q : TapReq} (hT : s.TapInv) (hq : s.tapRequest = some q) : (s.completeRequest q).TapReached := by
  unfold State.TapInv at hT
  unfold State.tapRequest at hq
  unfold State.TapReached
  simp only [completeRequest_phase, completeRequest_tapCtl]
  cases hp : s.phase <;> simp only [hp, reduceCtorEq, Option.some.injEq] at hT hq ⊢
  case irHint => obtain ⟨n, rfl⟩ := hintRequest_some hq; simp [contract, shiftCtl, hT]
  case wiPre => cases shiftOnes_some hq; simp [contract, shiftCtl, hT]
  case wiVal =>
    obtain ⟨src, n, rfl⟩ := valueRequest_some hq
    exact congrArg (shiftCtl _) hT
  case wiPost => cases shiftOnes_some hq; simp [contract, shiftCtl, hT]
  case sdPre => cases shiftOnes_some hq; simp [contract, shiftCtl, hT]
  case sdData =>
    obtain ⟨src, n, rfl | rfl⟩ := dataRequest_some hq <;> exact congrArg (shiftCtl _) hT
  case sdPost => cases shiftOnes_some hq; simp [contract, shiftCtl, hT]
  case failExit => subst hq; rcases hT with hT | hT <;> simp [contract, shiftCtl, hT]
  all_goals subst hq; simp [contract, shiftCtl, hT]

/-- An internal phase begins where its effect finds the TAP controllers. Where a shift of a running command would be empty,
either its padding is (the controllers stay) or the invariant rules it out. -/
theorem internal_reaches {resp : TapResp} (hI : s.PhaseInv) (hT : s.TapInv) (hq : s.tapRequest = none)
    (h : s.phaseStep resp = .next t) : s.TapReached := by
  unfold State.TapInv at hT
  unfold State.tapRequest at hq
  unfold State.TapReached
  unfold State.PhaseInv at hI
  unfold State.phaseStep at h
  cases hp : s.phase <;> simp only [hp, reduceCtorEq] at hT hq hI h ⊢
  case wiVal => exact absurd hq (valueRequest_ne_none hI)
  case wiPost => exact absurd hq (shiftOnes_ne_none fun h0 => hI.2 (BitVec.eq_of_toNat_eq h0))
  case sdData => exact absurd hq (dataRequest_ne_none hI h)
  case sdPost => exact absurd hq (shiftOnes_ne_none fun h0 => hI.2 (BitVec.eq_of_toNat_eq h0))
  all_goals exact hT

/-! ### From where the effect of a phase runs to where the next phase begins -/

/-- `State.TapInv` at the phase the state is in. -/
theorem tapInv_at {p : Phase} (hp : t.phase = p) (h : (t.goto p).TapInv) : t.TapInv := by
  subst hp
  exact h

theorem home_eq (s : State) : s.home = .idle ∨ s.home = .hookWait := by
  unfold State.home
  split
  · exact .inr rfl
  · exact .inl rfl

/-- A block that rests has its TAP controllers in Run-Test/Idle. -/
theorem tapInv_complete {r : Word} (h : s.tapCtl = .runTestIdle) : (s.complete r).TapInv := by
  obtain hp | hp := home_eq s
  · exact tapInv_at hp fun _ => h
  · exact tapInv_at hp h

theorem tapInv_enterHint (h : s.tapCtl = .shiftIr) : s.enterHint.TapInv := by
  unfold State.enterHint
  cases s.hintEntry with
  | range => exact .inl h
  | _ => exact h

theorem tapInv_afterWiVal (h : s.tapCtl = shiftCtl (decide (s.target.irPostscan = 0#16)) .shiftIr) :
    (s.goto s.afterWiVal).TapInv := by
  unfold State.afterWiVal
  split
  · next h0 => exact h.trans (by simp [h0, shiftCtl])
  · next h0 => exact h.trans (by simp [h0, shiftCtl])

theorem tapInv_afterWiPre (hl : s.target.irLength ≠ 0#8) (h : s.tapCtl = .shiftIr) : (s.goto s.afterWiPre).TapInv := by
  unfold State.afterWiPre
  rw [if_neg hl]
  exact h

theorem tapInv_afterWiEnter (hl : s.target.irLength ≠ 0#8) (h : s.tapCtl = .shiftIr) :
    (s.goto s.afterWiEnter).TapInv := by
  unfold State.afterWiEnter
  split
  · exact tapInv_afterWiPre hl h
  · exact h

theorem tapInv_afterSdData (h : s.tapCtl = shiftCtl (decide (s.target.drPostscan = 0#8)) .shiftDr) :
    (s.goto s.afterSdData).TapInv := by
  unfold State.afterSdData
  split
  · next h0 => exact h.trans (by simp [h0, shiftCtl])
  · next h0 => exact h.trans (by simp [h0, shiftCtl])

theorem tapInv_afterSdPre (hn : 1 ≤ s.oplNbits) (h : s.tapCtl = .shiftDr) : (s.goto s.afterSdPre).TapInv := by
  unfold State.afterSdPre
  rw [if_neg (by omega)]
  exact h

theorem tapInv_afterSdEnter (hn : 1 ≤ s.oplNbits) (h : s.tapCtl = .shiftDr) : (s.goto s.afterSdEnter).TapInv := by
  unfold State.afterSdEnter
  split
  · exact tapInv_afterSdPre hn h
  · exact h

/-- The effect of a phase leaves the TAP controllers where the next phase begins. -/
theorem effect_keeps_tap {resp : TapResp} (hI : s.PhaseInv) (hT : s.TapReached) (h : s.phaseStep resp = .next t) :
    t.TapInv := by
  unfold State.TapReached at hT
  unfold State.PhaseInv at hI
  cases hp : s.phase <;> simp only [State.phaseStep, hp, Host.Outcome.next.injEq] at hT hI h <;> (try subst h)
  case idle => exact tapInv_at hp hT
  case hookWait => exact tapInv_at hp hT
  case scClear => unfold State.phaseScClear; split <;> exact trivial
  case scInit =>
    obtain ⟨-, -, hready⟩ := hI
    unfold State.phaseScInit
    rw [hready, if_neg Bool.false_ne_true]
    split
    · exact trivial
    · exact fun h => absurd (hready.symm.trans h) Bool.false_ne_true
  case idShift =>
    unfold State.phaseIdShift
    split
    · exact hT
    split
    · exact .inr hT
    · exact tapInv_at hp hT
  case irEnter =>
    unfold State.phaseIrEnter
    split
    · exact tapInv_enterHint (s := s.startHints) hT
    · exact hT
  case irHint =>
    unfold State.phaseIrHint at h
    split at h <;> cases h
    · next len _ => exact tapInv_enterHint (s := s.recordHint len resp) hT
    · exact tapInv_enterHint hT
    · exact tapInv_enterHint hT
  case irProbe =>
    unfold State.phaseIrProbe
    split
    · split
      · exact hT
      split
      · exact .inl hT
      · exact tapInv_at hp hT
    · split
      · exact .inl hT
      · exact tapInv_at hp hT
  case drCount =>
    unfold State.phaseDrCount
    split
    · split
      · exact hT
      · exact .inr hT
    · split
      · exact .inr hT
      · exact tapInv_at hp hT
  case scPost =>
    unfold State.phaseScPost
    split
    · exact fun _ => hT
    · exact hT
  case scClassify =>
    unfold State.phaseScClassify
    split
    · exact fun _ => hT
    split
    · exact hT
    split
    · exact fun _ => hT
    · exact tapInv_at hp hT
  case failIdle => exact fun _ => hT
  case failClear => exact fun hr => hT (hr.resolve_right (fun hc => hc rfl))
  case wiEnter => exact tapInv_afterWiEnter hI.irLength_ne hT
  case wiPre => exact tapInv_afterWiPre hI.irLength_ne hT
  case wiVal => exact tapInv_afterWiVal hT
  case wiIdle => exact tapInv_complete hT
  case sdEnter => exact tapInv_afterSdEnter hI.bits_pos hT
  case sdPre => exact tapInv_afterSdPre hI.bits_pos hT
  case sdData =>
    unfold State.phaseSdData at h
    split at h <;> cases h
    exact tapInv_afterSdData (s := s.captureDout resp) hT
  case sdIdle => exact tapInv_complete hT
  all_goals exact hT

end Sys2Proof.Machine
end

section
/-! SUPPORT. The invariant of the machine (`State.Inv`) under every move. -/
namespace Sys2Proof.Machine

variable {s t : State}

/-! ### Moves that touch only what the invariant of the phases does not read -/

/-- The phase invariant reads no register of the host's, no buffer, and nothing outside the block. -/
theorem sameCore_frame (arg : Word) (drop : Bool) (hint : Memory Byte) (din : Memory Word) (dout : Memory Bool)
    (tapCtl : TapCtl) (env : List Move) (trace : List Output) :
    SameCore s { s with arg := arg, drop := drop, hint := hint, din := din, dout := dout, tapCtl := tapCtl, env := env,
                        trace := trace } := by
  constructor <;> rfl

/-- Where the TAP controllers are is a matter of four fields. -/
theorem tapInv_congr (hp : t.phase = s.phase) (hr : t.tapReady = s.tapReady) (hc : t.deviceCount = s.deviceCount)
    (ht : t.tapCtl = s.tapCtl) (h : s.TapInv) : t.TapInv := by
  unfold State.TapInv at h ⊢
  rw [hp, hr, hc, ht]
  exact h

/-- A store of a HINT word changes HINT alone. -/
theorem storeHintBytes_frame (s : State) (k1 k2 k3 k4 : Nat) (b1 b2 b3 b4 : Byte) : ∃ hint,
    (((s.storeHintByte k1 b1).storeHintByte k2 b2).storeHintByte k3 b3).storeHintByte k4 b4 =
      { s with hint := hint } := by
  have one : ∀ (u : State) (k : Nat) (b : Byte), ∃ hint, u.storeHintByte k b = { u with hint := hint } :=
    fun u k b => ⟨_, storeHintByte_frame k b⟩
  obtain ⟨_, e1⟩ := one s k1 b1
  obtain ⟨_, e2⟩ := one (s.storeHintByte k1 b1) k2 b2
  obtain ⟨_, e3⟩ := one ((s.storeHintByte k1 b1).storeHintByte k2 b2) k3 b3
  rw [storeHintByte_frame, e3, e2, e1]
  exact ⟨_, rfl⟩

/-! ### Acceptance -/

/-- What the block rests on where it accepts a command (60_exceptions.md R200). -/
theorem phaseInv_accepting (h : s.Accepting) :
    s.PhaseInv ↔ s.TableFinal ∧ if s.phase = .hookWait then s.Hooked else s.hookActive = false := by
  unfold State.PhaseInv
  rcases h with hp | hp <;> simp [hp]

/-- The TAP controllers rest in Run-Test/Idle where a command finds a live device (10_state.md R39). -/
theorem tapCtl_live (h : s.Accepting) (hT : s.TapInv) (hc : s.deviceCount ≠ 0#8) : s.tapCtl = .runTestIdle := by
  unfold State.TapInv at hT
  rcases h with hp | hp <;> simp only [hp] at hT
  · exact hT (.inr hc)
  · exact hT

theorem deviceCount_ne {idx : Nat} (h : idx < s.deviceCount.toNat) : s.deviceCount ≠ 0#8 := by
  intro h0
  rw [h0] at h
  exact absurd h (Nat.not_lt_zero _)

theorem answered_phaseInv (h : s.Accepting) (hI : s.PhaseInv) (w r : Word) (e : ErrCode) :
    (s.answered w r e).PhaseInv := by
  obtain ⟨hT, hh⟩ := (phaseInv_accepting h).1 hI
  refine (phaseInv_accepting (s := s.answered w r e) h).2 ⟨{ hT with }, ?_⟩
  show if s.phase = .hookWait then (s.answered w r e).Hooked else s.hookActive = false
  split at hh
  · next hp => rw [if_pos hp]; exact { hh with }
  · next hp => rw [if_neg hp]; exact hh

theorem answered_tapInv (hT : s.TapInv) (w r : Word) (e : ErrCode) : (s.answered w r e).TapInv :=
  tapInv_congr rfl rfl rfl rfl hT

theorem latch_addressing {w : Word} (h : s.Accepting) (hI : s.PhaseInv) (hi : idxOf w < s.deviceCount.toNat) :
    (s.latch w).Addressing := by
  obtain ⟨hT, hh⟩ := (phaseInv_accepting h).1 hI
  refine ⟨{ hT with }, hi, ?_⟩
  rw [latch_hook, latch_hookActive]
  by_cases hp : s.phase = .hookWait
  · rw [if_pos hp] at hh
    rw [if_pos (decide_eq_true hp)]
    exact { hh with }
  · rw [if_neg hp] at hh
    rw [if_neg (by simpa using hp)]
    exact hh

/-- Changing caches leaves every offset, and the sentinel's cache is unknown as it was (41_addressed_access.md R163). -/
theorem fillCache_addressing {idx : Nat} (v : Word) (h : s.Addressing) (hi : idx < s.deviceCount.toNat) :
    (s.fillCache idx v).Addressing := by
  have hcount := h.table.count_le
  refine ⟨TableFinal.congr (s := s) rfl rfl (fun a _ => ?_) ?_ h.table, h.live, ?_⟩
  · rw [slot_fillCache]
    split <;> exact ⟨rfl, rfl, rfl, rfl, rfl⟩
  · rw [slot_fillCache, if_neg (by omega), h.table.sentinel]
    rfl
  · have hh := h.hook
    rw [fillCache_fromHook, fillCache_hookActive]
    split at hh
    · next hp => rw [if_pos hp]; exact { hh with }
    · next hp => rw [if_neg hp]; exact hh

/-- A command accepted leaves the block in a phase whose part of the invariant holds. -/
theorem Accepted.phaseInv {i : Instr} (h : Accepted s i t) (hw : i.wellFormed = true) (hI : s.PhaseInv) :
    t.PhaseInv := by
  cases h with
  | drop _ => exact (sameCore_frame ..).phaseInv hI
  | reject hb e => rw [reject_eq (mode_ne_busy.1 hb)]; exact answered_phaseInv (mode_ne_busy.1 hb) hI ..
  | complete hb r => rw [complete_eq (mode_ne_busy.1 hb)]; exact answered_phaseInv (mode_ne_busy.1 hb) hI ..
  | scan hp _ =>
    obtain ⟨hT, hh⟩ := (phaseInv_accepting (.inl hp)).1 hI
    rw [if_neg (by simp [hp])] at hh
    exact ⟨{ hT with }, hh⟩
  | hookDone hp _ =>
    obtain ⟨hT, hh⟩ := (phaseInv_accepting (.inr hp)).1 hI
    rw [if_pos hp] at hh
    have hcount := hh.count
    have hcursor := hh.cursor
    have hj : (s.j + 1#9).toNat = s.j.toNat + 1 := toNat_succ9 (by have := s.deviceCount.isLt; omega)
    exact ⟨{ hT with }, rfl, hcount.symm, show (s.j + 1#9).toNat ≤ s.cnt.toNat by omega⟩
  | writeIr hb idx hi hx =>
    subst hi
    obtain ⟨-, hidx, -⟩ := Laws.Fields.writeIr idx hw
    have hA := latch_addressing (w := encode (.writeIr idx)) (mode_ne_busy.1 hb) hI (hidx.symm ▸ hx)
    exact Addressing.goto (fillCache_addressing s.arg hA hx) .wiEnter
  | shiftDr hb idx nbits cap hi hx h1 h2 =>
    subst hi
    obtain ⟨-, hidx, hn, -⟩ := Laws.Fields.shiftDr idx nbits cap hw
    have hA := latch_addressing (w := encode (.shiftDr idx nbits cap)) (mode_ne_busy.1 hb) hI (hidx.symm ▸ hx)
    exact Shifting.goto ⟨hA, h1.trans_eq hn.symm, hn.trans_le h2⟩ .sdEnter

theorem Accepted.tapInv {i : Instr} (h : Accepted s i t) (hT : s.TapInv) : t.TapInv := by
  cases h with
  | drop _ => exact tapInv_congr rfl rfl rfl rfl hT
  | reject hb e => rw [reject_eq (mode_ne_busy.1 hb)]; exact answered_tapInv hT ..
  | complete hb r => rw [complete_eq (mode_ne_busy.1 hb)]; exact answered_tapInv hT ..
  | scan _ _ => exact trivial
  | hookDone hp _ => unfold State.TapInv at hT; rw [hp] at hT; exact hT
  | writeIr hb _ _ hx => exact tapCtl_live (s := s) (mode_ne_busy.1 hb) hT (deviceCount_ne hx)
  | shiftDr hb _ _ _ _ hx _ _ => exact tapCtl_live (s := s) (mode_ne_busy.1 hb) hT (deviceCount_ne hx)

/-- An illegal word is dropped or answered (60_exceptions.md R213). -/
theorem acceptIllegal_cases (s : State) (w : Word) :
    s.acceptIllegal w = s.dropCommand ∨ s.Accepting ∧ s.acceptIllegal w = s.answered w 0#32 .illegalCmd := by
  unfold State.acceptIllegal
  split
  · exact .inl rfl
  · next hb => exact .inr ⟨mode_ne_busy.1 hb, reject_eq (mode_ne_busy.1 hb) ..⟩

/-! ### Every move -/

theorem completeRequest_phaseInv (q : TapReq) (hI : s.PhaseInv) : (s.completeRequest q).PhaseInv :=
  (sameCore_frame (s := s) ..).phaseInv hI

theorem Moved.phaseInv (h : Moved s t) (hS : s.Shape) (hI : s.PhaseInv) : t.PhaseInv := by
  cases h with
  | still => exact hI
  | internal _ h => exact phase_keeps_inv hS hI h
  | tap q _ _ h => exact phase_keeps_inv (s := s.completeRequest q) { hS with } (completeRequest_phaseInv q hI) h
  | command _ hw h => exact h.phaseInv hw hI
  | illegal w =>
    obtain he | ⟨hA, he⟩ := acceptIllegal_cases s w <;> rw [he]
    · exact (sameCore_frame ..).phaseInv hI
    · exact answered_phaseInv hA hI ..
  | arg _ => exact (sameCore_frame ..).phaseInv hI
  | hint _ q v =>
    obtain ⟨_, he⟩ := storeHintBytes_frame s ..
    rw [he]
    exact (sameCore_frame ..).phaseInv hI
  | din _ _ _ _ => exact (sameCore_frame ..).phaseInv hI
  | load _ => exact (sameCore_frame ..).phaseInv hI

theorem Moved.tapInv (h : Moved s t) (hI : s.PhaseInv) (hT : s.TapInv) : t.TapInv := by
  cases h with
  | still => exact hT
  | internal hq h => exact effect_keeps_tap hI (internal_reaches hI hT hq h) h
  | tap q _ hq h => exact effect_keeps_tap (completeRequest_phaseInv q hI) (request_reaches hT hq) h
  | command _ _ h => exact h.tapInv hT
  | illegal w =>
    obtain he | ⟨-, he⟩ := acceptIllegal_cases s w <;> rw [he] <;> exact tapInv_congr rfl rfl rfl rfl hT
  | arg _ => exact tapInv_congr rfl rfl rfl rfl hT
  | hint _ q v =>
    obtain ⟨_, he⟩ := storeHintBytes_frame s ..
    rw [he]
    exact tapInv_congr rfl rfl rfl rfl hT
  | din _ _ _ _ => exact tapInv_congr rfl rfl rfl rfl hT
  | load _ => exact tapInv_congr rfl rfl rfl rfl hT

/-- DOUT holds nothing from bit `MAX_DR_BITS` on (20_memory.md R63). -/
def State.DoutOnly (s : State) : Prop := ∀ b, s.params.maxDrBits ≤ b → s.dout.read b = none

theorem State.DoutOnly.congr (hp : t.params = s.params) (hd : t.dout = s.dout) (h : s.DoutOnly) : t.DoutOnly := by
  unfold State.DoutOnly at h ⊢
  rw [hp, hd]
  exact h

/-- The one phase that writes DOUT writes as many bits as the command asks for, and the command asks for no more than DOUT
holds (41_addressed_access.md R169). -/
theorem phase_keeps_doutOnly {resp : TapResp} (hI : s.PhaseInv) (hD : s.DoutOnly) (h : s.phaseStep resp = .next t) :
    t.DoutOnly := by
  obtain ⟨-, hparams⟩ := phase_env h
  obtain hd | ⟨hp, hd⟩ := phase_dout h
  · exact hD.congr hparams hd
  · have hSh : s.Shifting := by unfold State.PhaseInv at hI; rw [hp] at hI; exact hI
    have hbits := hSh.bits_le
    intro b hb
    rw [hparams] at hb
    rw [hd, Memory.read_writeBits, if_neg (by omega)]
    exact hD b hb

theorem Moved.doutOnly (h : Moved s t) (hI : s.PhaseInv) (hD : s.DoutOnly) : t.DoutOnly := by
  cases h with
  | still => exact hD
  | internal _ h => exact phase_keeps_doutOnly hI hD h
  | tap q _ _ h => exact phase_keeps_doutOnly (s := s.completeRequest q) (completeRequest_phaseInv q hI) hD h
  | command _ _ h => cases h <;> exact hD
  | illegal w => obtain he | ⟨-, he⟩ := acceptIllegal_cases s w <;> rw [he] <;> exact hD
  | arg _ => exact hD
  | hint _ q v =>
    obtain ⟨_, he⟩ := storeHintBytes_frame s ..
    rw [he]
    exact hD
  | din _ _ _ _ => exact hD
  | load _ => exact hD

/-- No move but RST breaks the invariant. -/
theorem Moved.inv (h : Moved s t) (hI : s.Inv) : t.Inv where
  shape := h.shape hI.shape
  phase := h.phaseInv hI.shape hI.phase
  tap := h.tapInv hI.phase hI.tap
  dout_only := h.doutOnly hI.phase hI.dout_only

theorem State.Inv.withEnv (h : s.Inv) (rest : List Move) : (s.withEnv rest).Inv where
  shape := h.shape.withEnv rest
  phase := (sameCore_frame ..).phaseInv h.phase
  tap := tapInv_congr rfl rfl rfl rfl h.tap
  dout_only := h.dout_only

/-- A block right after reset, whatever moves are to come and whatever it has put out, meets the invariant
(70_reset_and_hazards.md R230). -/
theorem inv_resetWith {p : Params} (hp : p.Legal) (env : List Move) (trace : List Output) :
    State.Inv { State.resetWith p with env := env, trace := trace } where
  shape := { shape_resetWith hp with }
  phase := ⟨tableFinal_clear rfl (slot_clearTable (State.resetWith p) _), rfl⟩
  tap := fun h => h.elim (absurd · Bool.false_ne_true) (absurd rfl)
  dout_only := fun _ _ => rfl

end Sys2Proof.Machine

open Sys2Proof Sys2Proof.Machine

/-- Settles O37: RST leads to the reset state, any other move keeps the invariant (`Moved.inv`). -/
theorem stepKeepsInv : Obligations.StepKeepsInv := by
  intro s t hI h
  obtain ⟨-, rfl⟩ | ⟨-, hm⟩ := step_cases h
  · exact inv_resetWith hI.shape.legal _ _
  · exact hm.inv (hI.withEnv _)

/-- Settles O43: `TapInv` gives each phase's request its start (`request_startsFrom`), and where the block rests its part of
the invariant is the claim. -/
theorem requestsKeepTheContract : Obligations.RequestsKeepTheContract := by
  intro s hI
  refine ⟨fun q hq => request_startsFrom hI.tap hq, fun hA hr => ?_⟩
  have hT := hI.tap
  unfold State.TapInv at hT
  rcases hA with hp | hp <;> simp only [hp] at hT
  · exact hT (.inl hr)
  · exact hT

end

section
/-! SUPPORT. Who writes what: the records, `device_count`, the flags and the buffers (10_state.md R24, R25, R28, R35, R36). -/
namespace Sys2Proof.Machine

variable {s t : State}

/-! ### What a phase keeps of the registers few phases write -/

/-- Going to the next turn of the hinted loop changes the phase, and the counter or the error code of the phase it leads to. -/
theorem enterHint_frame (u : State) :
    u.enterHint = { u with phase := u.enterHint.phase, cnt := u.enterHint.cnt, failCode := u.enterHint.failCode } := by
  unfold State.enterHint
  cases u.hintEntry <;> rfl

/-- `device_count` has three writers (10_state.md R24), `tap_ready` stays set (R28), `warn_ir0` is cleared by SC_CLEAR alone
(60_exceptions.md R221), and only SC_CLEAR and FAIL_CLEAR lay the table out anew. -/
structure MoveKept (s t : State) : Prop where
  count : t.deviceCount ≠ s.deviceCount → (s.phase = .scClear ∧ t.deviceCount = 0#8) ∨
    (s.phase = .drIdle ∧ t.deviceCount = s.cnt.setWidth 8) ∨ (s.phase = .failClear ∧ t.deviceCount = 0#8)
  ready : s.tapReady = true → t.tapReady = true
  warn : s.warnIr0 = true → s.phase ≠ .scClear → t.warnIr0 = true
  slots : t.table.length = s.table.length ∨ s.phase = .scClear ∨ s.phase = .failClear

/-- The same of a phase, which does not write ARG either (10_state.md R32). -/
structure PhaseKept (s t : State) : Prop extends MoveKept s t where
  arg : t.arg = s.arg

theorem MoveKept.of_eq (hc : t.deviceCount = s.deviceCount) (hr : t.tapReady = s.tapReady) (hw : t.warnIr0 = s.warnIr0)
    (ht : t.table.length = s.table.length) : MoveKept s t :=
  ⟨absurd hc, hr.trans, fun h _ => hw.trans h, .inl ht⟩

/-- A phase that writes none of the five, but may set `warn_ir0`. -/
theorem PhaseKept.of_eq (ha : t.arg = s.arg) (hc : t.deviceCount = s.deviceCount) (hr : t.tapReady = s.tapReady)
    (hw : s.warnIr0 = true → t.warnIr0 = true) (ht : t.table.length = s.table.length) : PhaseKept s t :=
  ⟨⟨absurd hc, hr.trans, fun h _ => hw h, .inl ht⟩, ha⟩

/-- The next turn of the hinted loop writes none of them either. -/
theorem PhaseKept.enterHint {u : State} (h : PhaseKept s u) : PhaseKept s u.enterHint := by
  rw [enterHint_frame]
  exact { h with }

theorem warn_kept {c b : Bool} (h : b = true) : (if c = true then b else true) = true := by
  rw [h, ite_self]

theorem recordHint_kept (len : Byte) (resp : TapResp) : PhaseKept s (s.recordHint len resp) :=
  .of_eq rfl rfl rfl warn_kept (List.length_modify ..)

theorem phase_kept {resp : TapResp} (h : s.phaseStep resp = .next t) : PhaseKept s t := by
  cases hp : s.phase <;> simp only [State.phaseStep, hp, Host.Outcome.next.injEq] at h <;> (try subst h)
  case scClear =>
    exact ⟨⟨fun _ => .inl ⟨hp, rfl⟩, id, fun _ hne => absurd hp hne, .inr (.inl hp)⟩, rfl⟩
  case drIdle => exact ⟨⟨fun _ => .inr (.inl ⟨hp, rfl⟩), id, fun h _ => h, .inl rfl⟩, rfl⟩
  case failClear => exact ⟨⟨fun _ => .inr (.inr ⟨hp, rfl⟩), id, fun h _ => h, .inr (.inr hp)⟩, rfl⟩
  case scInit =>
    unfold State.phaseScInit
    split
    · exact .of_eq rfl rfl rfl id rfl
    split
    · exact ⟨⟨absurd rfl, fun _ => rfl, fun h _ => h, .inl rfl⟩, rfl⟩
    · exact .of_eq rfl rfl rfl id rfl
  case idShift =>
    unfold State.phaseIdShift
    split
    · exact .of_eq rfl rfl rfl id rfl
    split <;> exact .of_eq rfl rfl rfl id (List.length_modify ..)
  case irEnter =>
    unfold State.phaseIrEnter
    split
    · exact PhaseKept.enterHint (u := s.startHints) (.of_eq rfl rfl rfl id rfl)
    · exact .of_eq rfl rfl rfl id rfl
  case irHint =>
    unfold State.phaseIrHint at h
    split at h <;> cases h
    · exact (recordHint_kept ..).enterHint
    · exact PhaseKept.enterHint (.of_eq rfl rfl rfl id rfl)
    · exact PhaseKept.enterHint (.of_eq rfl rfl rfl id rfl)
  case irFirst => exact .of_eq rfl rfl rfl warn_kept rfl
  case irProbe =>
    have hrec : s.recordProbe.table.length = s.table.length := List.length_modify ..
    unfold State.phaseIrProbe
    split
    · split
      · exact .of_eq rfl rfl rfl id rfl
      split <;> exact .of_eq rfl rfl rfl id hrec
    · split <;> exact .of_eq rfl rfl rfl id rfl
  case drCount =>
    unfold State.phaseDrCount
    split
    · split <;> exact .of_eq rfl rfl rfl id rfl
    · split
      · exact .of_eq rfl rfl rfl id rfl
      · exact .of_eq rfl rfl rfl id (List.length_modify ..)
  case scPost => unfold State.phaseScPost; split <;> exact .of_eq rfl rfl rfl id (backfill_length ..)
  case scClassify =>
    unfold State.phaseScClassify
    split
    · exact .of_eq rfl rfl rfl id rfl
    split
    · exact .of_eq rfl rfl rfl id (List.length_modify ..)
    split <;> exact .of_eq rfl rfl rfl id rfl
  case sdData =>
    unfold State.phaseSdData at h
    split at h <;> cases h
    exact .of_eq rfl rfl rfl id rfl
  all_goals exact .of_eq rfl rfl rfl id rfl

theorem Accepted.kept {i : Instr} (h : Accepted s i t) : MoveKept s t := by
  cases h with
  | writeIr _ idx _ _ => exact .of_eq rfl rfl rfl (by simp)
  | _ => exact .of_eq rfl rfl rfl rfl

theorem Moved.kept (h : Moved s t) : MoveKept s t := by
  cases h with
  | still => exact .of_eq rfl rfl rfl rfl
  | internal _ h => exact (phase_kept h).toMoveKept
  | tap q _ _ h => exact { (phase_kept (s := s.completeRequest q) h).toMoveKept with }
  | command _ _ h => exact h.kept
  | illegal w => obtain he | ⟨-, he⟩ := acceptIllegal_cases s w <;> rw [he] <;> exact .of_eq rfl rfl rfl rfl
  | arg _ => exact .of_eq rfl rfl rfl rfl
  | hint _ q v =>
    obtain ⟨_, he⟩ := storeHintBytes_frame s ..
    rw [he]
    exact .of_eq rfl rfl rfl rfl
  | din _ _ _ _ => exact .of_eq rfl rfl rfl rfl
  | load _ => exact .of_eq rfl rfl rfl rfl

/-! ### The records -/

/-- An acceptance step changes a record only where a WRITE_IR fills the caches (41_addressed_access.md R163). -/
theorem Accepted.slot {i : Instr} (h : Accepted s i t) (a : Nat) :
    t.slot a = s.slot a ∨ ∃ idx, i = .writeIr idx ∧ t.slot a = (s.fillCache idx s.arg).slot a := by
  cases h with
  | writeIr _ idx hi _ => exact .inr ⟨idx, hi, rfl⟩
  | _ => exact .inl rfl

/-- What a move can make of a record: what a phase makes of it, or a fill of the caches. -/
theorem Moved.slot (h : Moved s t) (a : Nat) :
    RecMove s a (t.slot a) ∨ ∃ idx, t.slot a = (s.fillCache idx s.arg).slot a := by
  cases h with
  | still => exact .inl .same
  | internal _ h => exact .inl (phase_rec h a)
  | tap q _ _ h => exact .inl (recmove_congr (u := s.completeRequest q) rfl rfl rfl (phase_rec h a))
  | command _ _ h =>
    obtain he | ⟨idx, -, he⟩ := h.slot a
    · exact .inl (he ▸ .same)
    · exact .inr ⟨idx, he⟩
  | illegal w => obtain he | ⟨-, he⟩ := acceptIllegal_cases s w <;> rw [he] <;> exact .inl (recmove_table rfl a)
  | arg _ => exact .inl (recmove_table rfl a)
  | hint _ q v =>
    obtain ⟨_, he⟩ := storeHintBytes_frame s ..
    rw [he]
    exact .inl (recmove_table rfl a)
  | din _ _ _ _ => exact .inl (recmove_table rfl a)
  | load _ => exact .inl (recmove_table rfl a)

/-- A record keeps its descriptor marks (40_discovery.md R139). -/
def DevRec.SameMarks (r q : DevRec) : Prop := q.descValid = r.descValid ∧ q.descIdx = r.descIdx

/-- Filling the caches writes nothing but caches. -/
theorem fillCache_sameScan (idx a : Nat) (v : Word) :
    (s.slot a).SameScan ((s.fillCache idx v).slot a) ∧ (s.slot a).SameMarks ((s.fillCache idx v).slot a) := by
  rw [slot_fillCache]
  split <;> exact ⟨⟨rfl, rfl, rfl, rfl, rfl, rfl⟩, rfl, rfl⟩

/-- The phases outside a scan's building stages (10_state.md R25). -/
def Phase.outsideScan : List Phase :=
  [.idle, .hookWait, .scClassify, .wiEnter, .wiPre, .wiVal, .wiPost, .wiIdle, .sdEnter, .sdPre, .sdData, .sdPost, .sdIdle]

/-- Outside the building stages a phase writes at most descriptor marks, and those in SC_CLASSIFY. -/
theorem RecMove.sameScan {a : Nat} {r : DevRec} (h : RecMove s a r) (hp : s.phase ∈ Phase.outsideScan) :
    (s.slot a).SameScan r ∧ (s.phase ≠ .scClassify → (s.slot a).SameMarks r) := by
  cases h with
  | same => exact ⟨⟨rfl, rfl, rfl, rfl, rfl, rfl⟩, fun _ => ⟨rfl, rfl⟩⟩
  | mark hc d _ => exact ⟨⟨rfl, rfl, rfl, rfl, rfl, rfl⟩, absurd hc⟩
  | clear h => rcases h with h | h <;> rw [h] at hp <;> exact absurd hp (by decide)
  | idcode h v _ => rw [h] at hp; exact absurd hp (by decide)
  | ir h l p => rcases h with h | h <;> rw [h] at hp <;> exact absurd hp (by decide)
  | dr h x y => rw [h] at hp; exact absurd hp (by decide)
  | post h p => rw [h] at hp; exact absurd hp (by decide)

theorem Moved.sameScan (h : Moved s t) (hp : s.phase ∈ Phase.outsideScan) (a : Nat) :
    (s.slot a).SameScan (t.slot a) ∧ (s.phase ≠ .scClassify → (s.slot a).SameMarks (t.slot a)) := by
  obtain hr | ⟨idx, he⟩ := h.slot a
  · exact hr.sameScan hp
  · obtain ⟨hscan, hmarks⟩ := fillCache_sameScan (s := s) idx a s.arg
    exact he ▸ ⟨hscan, fun _ => hmarks⟩

/-- Outside the building stages the table stays as long as it is, and `device_count` as it is. -/
theorem MoveKept.outsideScan (h : MoveKept s t) (hp : s.phase ∈ Phase.outsideScan) :
    t.deviceCount = s.deviceCount ∧ t.table.length = s.table.length := by
  have hclear : s.phase ≠ .scClear := fun he => absurd (he ▸ hp) (by decide)
  have hdr : s.phase ≠ .drIdle := fun he => absurd (he ▸ hp) (by decide)
  have hfail : s.phase ≠ .failClear := fun he => absurd (he ▸ hp) (by decide)
  constructor
  · by_contra hne
    rcases h.count hne with ⟨he, -⟩ | ⟨he, -⟩ | ⟨he, -⟩
    · exact hclear he
    · exact hdr he
    · exact hfail he
  · exact h.slots.resolve_right (not_or.2 ⟨hclear, hfail⟩)

/-- A record is real: its IDCODE is not all ones, and a descriptor it names exists and matches (10_state.md R23,
40_discovery.md R118, R138). -/
def DevRec.Real (p : Params) (r : DevRec) : Prop :=
  r.idcode ≠ all1 ∧ (r.descValid = true →
    ∃ d, p.descTable[r.descIdx.toNat]? = some d ∧ r.idcode &&& d.mask = d.expected)

theorem real_iff : s.IdcodesReal ∧ s.DescriptorsReal ↔ ∀ a, (s.slot a).Real s.params :=
  forall_and.symm

theorem zero_real (p : Params) : DevRec.zero.Real p := ⟨by decide, (absurd · Bool.false_ne_true)⟩

/-- A record that differs in its caches alone is as real. -/
theorem DevRec.Real.congr {p : Params} {r q : DevRec} (hs : r.SameScan q) (hm : r.SameMarks q) (h : r.Real p) :
    q.Real p := by
  obtain ⟨hid, -⟩ := hs
  obtain ⟨hv, hd⟩ := hm
  unfold DevRec.Real
  rw [hid, hv, hd]
  exact h

/-- The IDCODE read-out finds no descriptor marked (40_discovery.md R114). -/
theorem idShift_unmarked (hI : s.PhaseInv) (hp : s.phase = .idShift) (a : Nat) : (s.slot a).descValid = false := by
  unfold State.PhaseInv at hI
  rw [hp] at hI
  obtain ⟨-, honly, -⟩ := hI
  exact congrArg DevRec.descValid (honly a)

/-- The lowest match has an index that a record's 8 bits hold (00_scope.md R8). -/
theorem match_idx {p : Params} (hL : p.Legal) {x : Word} {d : Nat} (h : matchDescriptor p.descTable x = some d) :
    ∃ e, p.descTable[(BitVec.ofNat 8 d).toNat]? = some e ∧ x &&& e.mask = e.expected := by
  obtain ⟨e, he, hm⟩ := match_spec _ _ _ h
  obtain ⟨hd, -⟩ := List.getElem?_eq_some_iff.1 he
  have hn : p.descTable.length ≤ 255 := hL.ndesc_le
  have hw : (BitVec.ofNat 8 d).toNat = d := by rw [BitVec.toNat_ofNat]; omega
  exact ⟨e, hw.symm ▸ he, hm⟩

/-- What a phase makes of a real record is real. -/
theorem RecMove.real {a : Nat} {r : DevRec} (h : RecMove s a r) (hL : s.params.Legal) (hI : s.PhaseInv)
    (hr : (s.slot a).Real s.params) : r.Real s.params := by
  cases h with
  | same => exact hr
  | clear _ => exact zero_real _
  | idcode hp v hv => exact ⟨hv, fun hd => absurd ((idShift_unmarked hI hp a).symm.trans hd) Bool.false_ne_true⟩
  | ir _ l p => exact hr
  | dr _ x y => exact hr
  | post _ p => exact hr
  | mark _ d hd => exact ⟨hr.1, fun _ => match_idx hL hd⟩

theorem Moved.real (h : Moved s t) (hL : s.params.Legal) (hI : s.PhaseInv) (hr : ∀ a, (s.slot a).Real s.params) (a : Nat) :
    (t.slot a).Real t.params := by
  obtain ⟨-, hparams⟩ := h.env_params
  rw [hparams]
  obtain hm | ⟨idx, he⟩ := h.slot a
  · exact hm.real hL hI (hr a)
  · obtain ⟨hscan, hmarks⟩ := fillCache_sameScan (s := s) idx a s.arg
    exact he ▸ (hr a).congr hscan hmarks

theorem blockReset_slot (a : Nat) : s.blockReset.slot a = DevRec.zero := slot_clearTable s a

end Sys2Proof.Machine

open Sys2Proof Sys2Proof.Machine

/-- Settles O39: a cleared record is real, and any move but RST keeps every record so (`Moved.real`). -/
theorem stepKeepsRecordsReal : Obligations.StepKeepsRecordsReal := by
  intro s t hI hid hdesc h
  have hr := real_iff.1 ⟨hid, hdesc⟩
  refine real_iff.2 fun a => ?_
  obtain ⟨-, rfl⟩ | ⟨-, hm⟩ := step_cases h
  · rw [blockReset_slot]
    exact zero_real _
  · exact hm.real hI.shape.legal (hI.withEnv _).phase hr a

/-- Settles O44: `MoveKept` for `device_count` and the table's length, `Moved.sameScan` for the records. -/
theorem scanFieldsHaveOneWriter : Obligations.ScanFieldsHaveOneWriter := by
  intro s t h hrst hp
  obtain ⟨he, -⟩ | ⟨-, hm⟩ := step_cases h
  · exact absurd he hrst
  obtain ⟨hcount, hslots⟩ := hm.kept.outsideScan hp
  exact ⟨hcount, hslots, hm.sameScan hp⟩

/-- Settles O45: it is what every move but RST keeps (`Moved.kept`). -/
theorem countAndFlagWriters : Obligations.CountAndFlagWriters := by
  intro s t h hrst
  obtain ⟨he, -⟩ | ⟨-, hm⟩ := step_cases h
  · exact absurd he hrst
  obtain ⟨hcount, hready, hwarn, -⟩ := hm.kept
  exact ⟨hcount, hready, hwarn⟩

end

section
/-! SUPPORT. Which move a change comes from: `Moved` with the move named, for the statements about who fills a cache and who
writes a buffer (10_state.md R23, R35, R36). -/
namespace Sys2Proof.Machine

variable {s t : State}

/-- What each move but RST can make of a state: a store to CMD runs its word, a store elsewhere writes ARG, HINT or DIN at
most, and every other change is a phase's. -/
inductive MovedBy (s : State) : Move → State → Prop where
  | still (m : Move) : MovedBy s m s
  | phase (m : Move) (u : State) (hu : u = s ∨ ∃ q, u = s.completeRequest q) (resp : TapResp) {t : State}
      (h : u.phaseStep resp = .next t) : MovedBy s m t
  | command (w : Word) {t : State} (h : s.storeCmd w = .next t) :
      MovedBy s (.host (.store .word s.params.windowBase w)) t
  | store (width : Width) (addr : Nat) (v : Word) (ha : addr ≠ s.params.windowBase) (arg : Word) (hint : Memory Byte)
      (din : Memory Word) : MovedBy s (.host (.store width addr v)) { s with arg := arg, hint := hint, din := din }
  | load (m : Move) (v : Word) : MovedBy s m (s.emit (.loadData v))

/-- A store past CMD writes ARG, HINT or DIN at most (20_memory.md R63). -/
theorem storeAt_frame {off : Nat} {v : Word} (h0 : off ≠ 0) (h : s.storeAt off v = .next t) :
    ∃ arg hint din, t = { s with arg := arg, hint := hint, din := din } := by
  unfold State.storeAt at h
  rw [if_neg h0] at h
  split at h
  · cases h; exact ⟨_, _, _, rfl⟩
  split at h
  · cases h; exact ⟨_, _, _, rfl⟩
  split at h
  · unfold State.storeHint at h
    split at h
    · cases h; exact ⟨_, _, _, rfl⟩
    split at h <;> cases h
    obtain ⟨_, he⟩ := storeHintBytes_frame s ..
    rw [he]
    exact ⟨_, _, _, rfl⟩
  split at h
  · unfold State.storeDin at h
    split at h
    · cases h; exact ⟨_, _, _, rfl⟩
    split at h <;> cases h
    exact ⟨_, _, _, rfl⟩
  · cases h; exact ⟨_, _, _, rfl⟩

theorem offsetOf_some {addr off : Nat} (h : s.offsetOf addr = some off) : addr = s.params.windowBase + off := by
  unfold State.offsetOf at h
  split at h <;> cases h
  omega

theorem hostAccess_movedBy {a : Access} (h : s.hostAccess a = .next t) : MovedBy s (.host a) t := by
  unfold State.hostAccess at h
  split at h
  · split at h
    · cases h
    split at h
    · unfold State.loadOut at h
      split at h <;> cases h
      exact .load _ _
    · cases h
  · next width addr v =>
    split at h
    · cases h
    next off hoff =>
    have haddr := offsetOf_some hoff
    split at h
    · next hwidth =>
      obtain ⟨rfl, -⟩ := hwidth
      by_cases h0 : off = 0
      · subst h0
        rw [haddr]
        exact .command v h
      · obtain ⟨_, _, _, rfl⟩ := storeAt_frame h0 h
        exact .store _ _ _ (by omega) _ _ _
    · cases h

theorem coreStep_movedBy (h : s.coreStep = .next t) : MovedBy s .core t := by
  unfold State.coreStep at h
  split at h
  · exact .phase _ s (.inl rfl) _ h
  · cases h; exact .still _

theorem tapStep_movedBy {resp : TapResp} (h : s.tapStep resp = .next t) : MovedBy s (.tap resp) t := by
  unfold State.tapStep at h
  split at h
  · cases h; exact .still _
  · next q _ => exact .phase _ _ (.inr ⟨q, rfl⟩) _ h

theorem move_movedBy {m : Move} (hm : m ≠ .rst) (h : s.move m = .next t) : MovedBy s m t := by
  cases m with
  | host a => exact hostAccess_movedBy h
  | tap resp => exact tapStep_movedBy h
  | core => exact coreStep_movedBy h
  | rst => exact absurd rfl hm

/-- A step but RST is one move, the next one: a host access if that is at the head of the moves to come. -/
theorem step_movedBy (h : step s = .next t) (hr : s.env.head? ≠ some .rst) :
    ∃ m, (∀ a, m = .host a → s.env.head? = some (.host a)) ∧ MovedBy (s.withEnv s.env.tail) m t := by
  unfold step at h
  split at h
  · next he =>
    have hs : s.withEnv s.env.tail = s := by rw [he, List.tail_nil, ← he, withEnv_self]
    exact ⟨.core, fun _ => Move.noConfusion, hs.symm ▸ coreStep_movedBy h⟩
  · next m rest he =>
    rw [he] at hr ⊢
    exact ⟨m, fun a ha => congrArg some ha, move_movedBy (fun hm => hr (congrArg some hm)) h⟩

/-! ### A store to CMD -/

/-- A word is determined by its fields (30_encoding.md R80). -/
theorem word_eq_of_fields {v w : Word} (ho : (opcOf v).toNat = (opcOf w).toNat) (hi : idxOf v = idxOf w)
    (hn : nbitsOf v = nbitsOf w) (hc : capOf v = capOf w) (hr : rsvOf v = rsvOf w) : v = w := by
  apply BitVec.eq_of_toNat_eq
  have hr' := congrArg BitVec.toNat hr
  have hv := v.isLt
  have hw := w.isLt
  rw [opcOf_toNat, opcOf_toNat] at ho
  rw [idxOf_eq, idxOf_eq] at hi
  rw [nbitsOf_eq, nbitsOf_eq] at hn
  rw [capOf_eq, capOf_eq, decide_eq_decide] at hc
  rw [rsvOf_toNat, rsvOf_toNat] at hr'
  omega

/-- The one row that decodes to a WRITE_IR is its own (30_encoding.md R82). -/
theorem decoded_writeIr {w : Word} {i : Instr} {idx : Nat} (h : Decoded w i) (hi : i = .writeIr idx) :
    (opcOf w).toNat = 3 ∧ idxOf w = idx ∧ nbitsOf w = 0 ∧ capOf w = false := by
  cases h with
  | plain i hrow => subst hi; simp at hrow
  | shiftDr _ => cases hi
  | indexed mk hrow ho hn hc =>
    simp only [List.mem_cons, List.not_mem_nil, or_false] at hrow
    rcases hrow with rfl | rfl | rfl | rfl | rfl | rfl | rfl | rfl | rfl | rfl | rfl <;> cases hi
    have hopc := congrArg BitVec.toNat ho
    rw [BitVec.toNat_setWidth_of_le (by decide)] at hopc
    exact ⟨hopc, rfl, hn, hc⟩

/-- A word that decodes to a WRITE_IR is that command's encoding (30_encoding.md R85). -/
theorem eq_encode_writeIr {w : Word} {idx : Nat} (h : decode w = .ok (.writeIr idx)) : w = encode (.writeIr idx) := by
  obtain ⟨hr, hd⟩ := decode_decoded h
  obtain ⟨ho, hi, hn, hc⟩ := decoded_writeIr hd rfl
  obtain ⟨ho', hi', hn', hc', hr'⟩ := Laws.Fields.writeIr idx (decode_wellFormed h)
  exact word_eq_of_fields (ho.trans ho'.symm) (hi.trans hi'.symm) (hn.trans hn'.symm) (hc.trans hc'.symm)
    (hr.trans hr'.symm)

/-- A store to CMD changes a record only where its word is a WRITE_IR that fills the caches (41_addressed_access.md R161). -/
theorem storeCmd_slot {w : Word} (h : s.storeCmd w = .next t) (a : Nat) :
    t.slot a = s.slot a ∨ ∃ idx, w = encode (.writeIr idx) ∧ t.slot a = (s.fillCache idx s.arg).slot a := by
  unfold State.storeCmd at h
  split at h
  · next i hd =>
    obtain ⟨u, hu, ha⟩ := exec_cases i s
    cases hu.symm.trans h
    obtain he | ⟨idx, rfl, he⟩ := ha.slot a
    · exact .inl he
    · exact .inr ⟨idx, eq_encode_writeIr hd, he⟩
  · cases h
    left
    obtain he | ⟨-, he⟩ := acceptIllegal_cases s w <;> rw [he] <;> rfl

/-- `t` holds ARG and the buffers of `s` (10_state.md R32, R35, R36). -/
structure BuffersKept (s t : State) : Prop where
  arg : t.arg = s.arg
  hint : t.hint = s.hint
  din : t.din = s.din
  dout : t.dout = s.dout

/-- A store to CMD writes neither ARG nor a buffer (20_memory.md R72). -/
theorem storeCmd_buffers {w : Word} (h : s.storeCmd w = .next t) : BuffersKept s t := by
  unfold State.storeCmd at h
  split at h
  · next i _ =>
    obtain ⟨u, hu, ha⟩ := exec_cases i s
    cases hu.symm.trans h
    cases ha <;> exact ⟨rfl, rfl, rfl, rfl⟩
  · cases h
    obtain he | ⟨-, he⟩ := acceptIllegal_cases s w <;> rw [he] <;> exact ⟨rfl, rfl, rfl, rfl⟩

/-! ### The caches -/

/-- A phase makes no cache known and gives no known cache another value (41_addressed_access.md R163). -/
theorem RecMove.known {a : Nat} {r : DevRec} (h : RecMove s a r) (hk : r.curKnown = true) :
    (s.slot a).curKnown = true ∧ r.currentIr = (s.slot a).currentIr := by
  cases h with
  | clear _ => exact absurd hk Bool.false_ne_true
  | mark _ _ _ => exact absurd hk Bool.false_ne_true
  | _ => exact ⟨hk, rfl⟩

/-- Where the caches are filled, the one known cache is the target's, with the value. -/
theorem fillCache_known {idx a : Nat} {v : Word} (h : ((s.fillCache idx v).slot a).curKnown = true) :
    idx = a ∧ ((s.fillCache idx v).slot a).currentIr = v := by
  rw [slot_fillCache] at h ⊢
  split at h
  · next hc => rw [if_pos hc]; exact ⟨hc.1, rfl⟩
  · exact absurd h Bool.false_ne_true

/-- A cache known after a move was known with the same value before, or a store to CMD of its WRITE_IR has filled it. -/
theorem MovedBy.known {m : Move} (h : MovedBy s m t) (a : Nat) (hk : (t.slot a).curKnown = true) :
    ((s.slot a).curKnown = true ∧ (t.slot a).currentIr = (s.slot a).currentIr) ∨
    ((t.slot a).currentIr = s.arg ∧ m = .host (.store .word s.params.windowBase (encode (.writeIr a)))) := by
  cases h with
  | still _ => exact .inl ⟨hk, rfl⟩
  | phase _ u hu _ h =>
    have hrec := (phase_rec h a).known hk
    obtain rfl | ⟨q, rfl⟩ := hu <;> exact .inl hrec
  | command w h =>
    obtain he | ⟨idx, rfl, he⟩ := storeCmd_slot h a
    · exact .inl ⟨he ▸ hk, by rw [he]⟩
    · rw [he] at hk ⊢
      obtain ⟨rfl, hv⟩ := fillCache_known hk
      exact .inr ⟨hv, rfl⟩
  | store _ _ _ _ _ _ _ => exact .inl ⟨hk, rfl⟩
  | load _ _ => exact .inl ⟨hk, rfl⟩

/-! ### The buffers -/

/-- SD_DATA without CAP leaves DOUT as it is (41_addressed_access.md R168). -/
theorem phase_dout_kept {resp : TapResp} (h : s.phaseStep resp = .next t) (hn : s.phase ≠ .sdData ∨ s.oplCap = false) :
    t.dout = s.dout := by
  obtain hd | ⟨hp, -⟩ := phase_dout h
  · exact hd
  · have hc := hn.resolve_left (absurd hp)
    unfold State.phaseStep State.phaseSdData at h
    simp only [hp] at h
    split at h <;> cases h
    rw [goto_dout, captureDout_dout, if_neg (by rw [hc]; exact Bool.false_ne_true)]

theorem MovedBy.dout {m : Move} (h : MovedBy s m t) (hn : s.phase ≠ .sdData ∨ s.oplCap = false) : t.dout = s.dout := by
  cases h with
  | phase _ u hu _ h =>
    obtain rfl | ⟨q, rfl⟩ := hu
    · exact phase_dout_kept h hn
    · exact phase_dout_kept (s := s.completeRequest q) h hn
  | command w h => exact (storeCmd_buffers h).dout
  | _ => rfl

/-- ARG, HINT and DIN change by a store past CMD alone. -/
theorem MovedBy.hostBuffers {m : Move} (h : MovedBy s m t)
    (hm : ∀ width addr v, m = .host (.store width addr v) → addr = s.params.windowBase) :
    t.arg = s.arg ∧ t.hint = s.hint ∧ t.din = s.din := by
  cases h with
  | phase _ u hu _ h =>
    obtain ⟨-, hhint, hdin⟩ := phase_data h
    have harg := (phase_kept h).arg
    obtain rfl | ⟨q, rfl⟩ := hu <;> exact ⟨harg, hhint, hdin⟩
  | command w h =>
    obtain ⟨harg, hhint, hdin, -⟩ := storeCmd_buffers h
    exact ⟨harg, hhint, hdin⟩
  | store width addr v ha _ _ _ => exact absurd (hm _ _ _ rfl) ha
  | _ => exact ⟨rfl, rfl, rfl⟩

end Sys2Proof.Machine

open Sys2Proof Sys2Proof.Machine

/-- Settles O46 (`MovedBy.known`); RST forgets every cache. -/
theorem onlyWriteIrFillsACache : Obligations.OnlyWriteIrFillsACache := by
  intro s t a h hk hchanged
  obtain ⟨-, rfl⟩ | ⟨hr, -⟩ := step_cases h
  · rw [blockReset_slot] at hk
    exact absurd hk Bool.false_ne_true
  obtain ⟨m, hhead, hm⟩ := step_movedBy h hr
  obtain ⟨hknown, hsame⟩ | ⟨harg, rfl⟩ := hm.known a hk
  · rcases hchanged with hunknown | hne
    · exact absurd (hunknown.symm.trans hknown) Bool.false_ne_true
    · exact absurd hsame hne
  · exact ⟨harg, hhead _ rfl⟩

/-- Settles O47: `MovedBy.dout` for DOUT, `MovedBy.hostBuffers` for what the host stores. -/
theorem buffersHaveOneWriter : Obligations.BuffersHaveOneWriter := by
  intro s t h hr
  obtain ⟨m, hhead, hm⟩ := step_movedBy h hr
  exact ⟨hm.dout, fun hstore => hm.hostBuffers fun width addr v hv => hstore width addr v (hhead _ hv)⟩

end

section
/-! SUPPORT. The state after reset (10_state.md R40), the computed registers as arithmetic (R29 to R31), and the register
window's loads and stores word by word (20_memory.md R61 to R66). -/
namespace Sys2Proof.Machine

variable {s : State} {rest : List Move}

/-! ### The computed registers -/

/-- Two fields side by side, as arithmetic. -/
theorem toNat_append_add {m n : Nat} (x : BitVec m) (y : BitVec n) : (x ++ y).toNat = x.toNat * 2 ^ n + y.toNat := by
  rw [BitVec.toNat_append, ← Nat.shiftLeft_add_eq_or_of_lt y.isLt, Nat.shiftLeft_eq]

/-- STATUS as the sum of its fields at their places (10_state.md R29). -/
theorem statusWord_toNat (s : State) : s.statusWord.toNat =
    (decide (s.mode = .busy)).toNat + 2 * s.hookActive.toNat + 2 ^ 2 * s.warnIr0.toNat + 2 ^ 3 * s.drop.toNat +
      2 ^ 4 * s.tapReady.toNat + 2 ^ 8 * s.err.code.toNat + 2 ^ 16 * s.deviceCount.toNat +
      2 ^ 24 * s.phase.code.toNat := by
  simp only [State.statusWord, toNat_append_add, BitVec.toNat_ofNat, BitVec.toNat_ofBool]
  omega

theorem status_bit {k : Nat} {b : Bool} (h : s.statusWord.toNat / 2 ^ k % 2 = b.toNat) :
    s.statusWord.getLsbD k = b := by
  rw [BitVec.getLsbD, Nat.testBit_eq_decide_div_mod_eq, h]
  cases b <;> rfl

theorem status_field {k n : Nat} {x : BitVec n} (h : s.statusWord.toNat / 2 ^ k % 2 ^ n = x.toNat) :
    s.statusWord.extractLsb' k n = x := by
  apply BitVec.eq_of_toNat_eq
  rw [BitVec.extractLsb'_toNat, Nat.shiftRight_eq_div_pow]
  exact h

theorem status_zero {k n : Nat} (h : s.statusWord.toNat / 2 ^ k % 2 ^ n = 0) : s.statusWord.extractLsb' k n = 0#n :=
  status_field (h.trans BitVec.toNat_zero.symm)

theorem mode_eq_busy : s.mode = .busy ↔ ¬ s.Accepting := by
  rw [← not_iff_not, not_not]
  exact mode_ne_busy

theorem busy_eq : decide (s.mode = .busy) = decide (s.phase ≠ .idle ∧ s.phase ≠ .hookWait) :=
  decide_eq_decide.2 (mode_eq_busy.trans not_or)

/-- HOOK of a pending hook, bit by bit (10_state.md R30). -/
theorem hookWord_active (h : s.hookActive = true) :
    s.hookWord = 0x80000000#32 ||| (s.hookDesc.setWidth 32 <<< 8) ||| s.hookDev.setWidth 32 := by
  unfold State.hookWord
  rw [if_pos h]
  apply BitVec.eq_of_getLsbD_eq
  intro i hi
  simp only [BitVec.getLsbD_append, BitVec.getLsbD_or, BitVec.getLsbD_shiftLeft, BitVec.getLsbD_setWidth, hi]
  interval_cases i <;> simp

theorem hookWord_eq : s.hookWord =
    if s.hookActive then 0x80000000#32 ||| (s.hookDesc.setWidth 32 <<< 8) ||| s.hookDev.setWidth 32 else 0#32 := by
  split
  · next h => exact hookWord_active h
  · next h => exact if_neg h

/-- PARAMS as a sum: every legal parameter fits its 8 bits (10_state.md R31, 00_scope.md R8). -/
theorem paramsWord_eq (h : s.params.Legal) : s.paramsWord =
    BitVec.ofNat 32 (s.params.maxDrWords * 2 ^ 24 + s.params.descTable.length * 2 ^ 16 +
      s.params.maxIrLen * 2 ^ 8 + s.params.maxDevs) := by
  have hdevs := h.devs_le
  have hir := h.irLen_le
  have hdr := h.drWords_le
  have hdesc : s.params.descTable.length ≤ 255 := h.ndesc_le
  apply BitVec.eq_of_toNat_eq
  simp only [State.paramsWord, toNat_append_add, BitVec.toNat_ofNat, Params.ndesc]
  omega

/-! ### Reset -/

theorem resetWith_slot (p : Params) (a : Nat) : (State.resetWith p).slot a = DevRec.zero :=
  slot_clearTable (State.resetWith p) a

theorem statusWord_resetWith (p : Params) : (State.resetWith p).statusWord = 0#32 := by
  apply BitVec.eq_of_toNat_eq
  rw [statusWord_toNat]
  rfl

/-! ### The window, word by word -/

/-- A load of HINT word `q` (20_memory.md R64). -/
theorem load_hint {q : Nat} {v : Word} (hq : q < 64) (h : s.loadHint q = .ok v) :
    step (s.withEnv (.host (.load .word (s.params.windowBase + 0x100 + 4 * q)) :: rest)) =
      .next { s with env := rest, trace := .loadData v :: s.trace } := by
  rw [Nat.add_assoc]
  refine load_ok (by omega) (by omega) ?_
  rw [loadAt_hint (by omega) (by omega), show (0x100 + 4 * q - 0x100) / 4 = q by omega]
  exact h

/-- A load of DIN word `w` (10_state.md R36). -/
theorem load_din {w : Nat} {v : Word} (hw : w < 64) (h : s.loadDin w = .ok v) :
    step (s.withEnv (.host (.load .word (s.params.windowBase + 0x200 + 4 * w)) :: rest)) =
      .next { s with env := rest, trace := .loadData v :: s.trace } := by
  rw [Nat.add_assoc]
  refine load_ok (by omega) (by omega) ?_
  rw [loadAt_din (by omega) (by omega), show (0x200 + 4 * w - 0x200) / 4 = w by omega]
  exact h

/-- A load of DOUT word `w` (10_state.md R36). -/
theorem load_dout {w : Nat} {v : Word} (hw : w < 64) (h : s.loadDout w = .ok v) :
    step (s.withEnv (.host (.load .word (s.params.windowBase + 0x300 + 4 * w)) :: rest)) =
      .next { s with env := rest, trace := .loadData v :: s.trace } := by
  rw [Nat.add_assoc]
  refine load_ok (by omega) (by omega) ?_
  rw [loadAt_dout (by omega) (by omega), show (0x300 + 4 * w - 0x300) / 4 = w by omega]
  exact h

/-- A store of HINT word `q` (20_memory.md R64). -/
theorem store_hint {q : Nat} {v : Word} (hq : q < 64) :
    step (s.withEnv (.host (.store .word (s.params.windowBase + 0x100 + 4 * q) v) :: rest)) =
      (s.withEnv rest).storeHint q v := by
  rw [Nat.add_assoc, step_store (by omega) (by omega), storeAt_hint (by omega) (by omega),
    show (0x100 + 4 * q - 0x100) / 4 = q by omega]

/-- A store of DIN word `w` (10_state.md R36). -/
theorem store_din {w : Nat} {v : Word} (hw : w < 64) :
    step (s.withEnv (.host (.store .word (s.params.windowBase + 0x200 + 4 * w) v) :: rest)) =
      (s.withEnv rest).storeDin w v := by
  rw [Nat.add_assoc, step_store (by omega) (by omega), storeAt_din (by omega) (by omega),
    show (0x200 + 4 * w - 0x200) / 4 = w by omega]

/-- While BUSY a HINT word that holds an entry cannot be stored (70_reset_and_hazards.md R236). -/
theorem storeHint_busy {q : Nat} {v : Word} (hq : 4 * q < s.params.maxDevs) (hb : s.mode = .busy) :
    s.storeHint q v = .fault .hintWriteBusy := by
  unfold State.storeHint
  rw [if_neg (by omega), if_pos hb]

/-- While BUSY a populated DIN word cannot be stored (70_reset_and_hazards.md R236). -/
theorem storeDin_busy {w : Nat} {v : Word} (hw : w < s.params.maxDrWords) (hb : s.mode = .busy) :
    s.storeDin w v = .fault .dinWriteBusy := by
  unfold State.storeDin
  rw [if_neg (by omega), if_pos hb]

/-- Outside BUSY a populated DIN word is stored. -/
theorem storeDin_accepting {w : Nat} {v : Word} (hw : w < s.params.maxDrWords) (hA : s.Accepting) :
    s.storeDin w v = .next { s with din := s.din.write w v } := by
  unfold State.storeDin
  rw [if_neg (by omega), if_neg (mode_ne_busy.2 hA)]

/-- A populated HINT byte reads as its entry. -/
theorem hintByte_populated {k : Nat} (h : k < s.params.maxDevs) : s.hintByte k = s.hint.read k := if_pos h

/-- A HINT byte whose entry, if there is one, is written has a value. -/
theorem hintByte_some {k : Nat} (h : k < s.params.maxDevs → ∃ e, s.hint.read k = some e) :
    ∃ e, s.hintByte k = some e := by
  by_cases hk : k < s.params.maxDevs
  · exact hintByte_populated hk ▸ h hk
  · exact ⟨_, hintByte_past (by omega)⟩

/-- A written DIN word loads as it is. -/
theorem loadDin_some {w : Nat} {v : Word} (hw : w < s.params.maxDrWords) (h : s.din.read w = some v) :
    s.loadDin w = .ok v := by
  unfold State.loadDin
  rw [if_neg (by omega), h]

/-- A DOUT word whose bits are written loads as those bits. -/
theorem loadDout_some {w : Nat} (hw : w < s.params.maxDrWords) (h : ∀ b, b < 32 → ∃ c, s.dout.read (32 * w + b) = some c) :
    ∃ v, s.loadDout w = .ok v ∧ ∀ b, b < 32 → s.dout.read (32 * w + b) = some (v.getLsbD b) := by
  obtain ⟨x, hx, -, hbits⟩ := doutNumber_some s.dout (32 * w) 32 h
  refine ⟨BitVec.ofNat 32 x, ?_, fun b hb => ?_⟩
  · unfold State.loadDout
    rw [if_neg (by omega), hx]
  · rw [hbits b hb, BitVec.getLsbD_ofNat, decide_eq_true hb, Bool.true_and]

end Sys2Proof.Machine

open Sys2Proof Sys2Proof.Machine

/-- Settles O7: every field is `State.resetWith`'s own, and STATUS is the sum of fields that are 0. -/
theorem resetValues : Obligations.ResetValues := fun p =>
  ⟨rfl, rfl, rfl, rfl, rfl, rfl, rfl, rfl, rfl, rfl, rfl, rfl, rfl, statusWord_resetWith p, rfl,
    fun _ => ⟨rfl, rfl, rfl⟩, rfl, rfl⟩

/-- Settles O9: every slot is the zero record, whose cache is unknown and which is real. -/
theorem resetMeetsTheInvariants : Obligations.ResetMeetsTheInvariants := by
  intro p hp
  refine ⟨inv_resetWith hp [] [], fun a _ ha => ?_, real_iff.2 fun a => ?_⟩
  · rw [resetWith_slot] at ha
    exact absurd ha Bool.false_ne_true
  · rw [resetWith_slot]
    exact zero_real p

/-- Settles O52: each field is read off `statusWord_toNat`. -/
theorem statusFields : Obligations.StatusFields := by
  intro s
  have hword := statusWord_toNat s
  have hbusy := (decide (s.mode = .busy)).toNat_lt
  have hhook := s.hookActive.toNat_lt
  have hwarn := s.warnIr0.toNat_lt
  have hdrop := s.drop.toNat_lt
  have hready := s.tapReady.toNat_lt
  have herr := s.err.code.isLt
  have hcount := s.deviceCount.isLt
  have hphase := s.phase.code.isLt
  refine ⟨busy_eq ▸ status_bit ?_, status_bit ?_, status_bit ?_, status_bit ?_, status_bit ?_, status_zero ?_,
    fun row hrow he => ?_, status_zero ?_, status_field ?_, fun row hrow he => ?_, status_zero ?_⟩
  case refine_7 =>
    have hcode : row.1.code = BitVec.ofNat 4 row.2 := by clear he; revert row; decide
    rw [← hcode, ← he]
    exact status_field (by omega)
  case refine_10 =>
    have hcode : row.1.code = BitVec.ofNat 6 row.2 := by clear he; revert row; decide
    rw [← hcode, ← he]
    exact status_field (by omega)
  all_goals omega

/-- Settles O51: each load answers its register (`load_ok`); HOOK and PARAMS are the words of `hookWord_eq` and
`paramsWord_eq`. -/
theorem registersRead : Obligations.RegistersRead := by
  intro s rest hL
  rw [← hookWord_eq, ← paramsWord_eq hL]
  simp only [List.forall_mem_cons]
  exact ⟨load_ok (by decide) rfl rfl, load_ok (by decide) rfl rfl, load_ok (by decide) rfl rfl,
    load_ok (by decide) rfl rfl, load_ok (by decide) rfl rfl, load_ok (by decide) rfl rfl, List.forall_mem_nil _⟩

/-- Settles O56: one clause for each of ARG, DIN outside BUSY, HINT while BUSY and DIN while BUSY. -/
theorem storesByMode : Obligations.StoresByMode := by
  refine ⟨fun s rest v => ?_, fun s rest w v hA hw hpop => ?_, fun s rest q v hA hq hpop => ?_,
    fun s rest w v hA hw hpop => ?_⟩
  · exact step_store (by decide) rfl
  · exact ⟨_, (store_din hw).trans (storeDin_accepting hpop hA), rfl, fun x => Memory.read_write ..⟩
  · exact (store_hint hq).trans (storeHint_busy hpop (mode_eq_busy.2 hA))
  · exact (store_din hw).trans (storeDin_busy hpop (mode_eq_busy.2 hA))

/-- Settles O58: HINT byte by byte (`loadHint_ok`, `bytes_ext`), DIN as stored, DOUT bit by bit (`loadDout_some`). -/
theorem writtenEntriesRead : Obligations.WrittenEntriesRead := by
  refine ⟨fun s rest q hq _ hwritten => ?_, fun s rest w v hw hpop hv => load_din hw (loadDin_some hpop hv),
    fun s rest w hw hpop hwritten => ?_⟩
  · have hbytes : ∀ j, j < 4 → ∃ e, s.hintByte (4 * q + j) = some e := fun j hj => hintByte_some (hwritten j hj)
    choose! bytes hsome using hbytes
    refine ⟨_, load_hint hq (loadHint_ok q bytes hsome), fun j hj => ?_⟩
    have hj' := hsome j hj
    rw [bytes_ext bytes j hj]
    split
    · next hk => exact hintByte_populated hk ▸ hj'
    · next hk => exact Option.some.inj (hj'.symm.trans (hintByte_past (by omega)))
  · obtain ⟨v, hload, hbits⟩ := loadDout_some hpop hwritten
    exact ⟨v, load_dout hw hload, hbits⟩

end

section
/-! SUPPORT. What a HINT store does to every entry and a HINT load to every byte (20_memory.md R63, R64), the words that hold
nothing (R63), the vectors of WI_VAL and SD_DATA bit by bit (R65), what the core reads of a response (30_encoding.md R90),
and the core's turn in a wait (R76, 70_reset_and_hazards.md R239). -/
namespace Sys2Proof.Machine

variable {s t : State} {rest : List Move}

/-! ### Stores to HINT -/

/-- A store of a HINT word sets the populated entries of the word, each to its byte (20_memory.md R64). -/
theorem read_storeHintBytes (q k : Nat) (v : Word) :
    ((((s.storeHintByte (4 * q) (v.extractLsb' 0 8)).storeHintByte (4 * q + 1) (v.extractLsb' 8 8)).storeHintByte
      (4 * q + 2) (v.extractLsb' 16 8)).storeHintByte (4 * q + 3) (v.extractLsb' 24 8)).hint.read k =
    if k / 4 = q ∧ k < s.params.maxDevs then some (v.extractLsb' (8 * (k % 4)) 8) else s.hint.read k := by
  simp only [read_storeHintByte, storeHintByte_params]
  by_cases hq : k / 4 = q
  · obtain ⟨j, hj, rfl⟩ : ∃ j, j < 4 ∧ k = 4 * q + j := ⟨k % 4, by omega, by omega⟩
    rw [show (4 * q + j) % 4 = j by omega]
    interval_cases j <;> simp [hq]
  · rw [if_neg (by omega), if_neg (by omega), if_neg (by omega), if_neg (by omega), if_neg (by omega)]

theorem read_storeHint {q : Nat} {v : Word} (h : s.storeHint q v = .next t) (k : Nat) :
    t.hint.read k =
      if k / 4 = q ∧ k < s.params.maxDevs then some (v.extractLsb' (8 * (k % 4)) 8) else s.hint.read k := by
  unfold State.storeHint at h
  split at h
  · cases h
    rw [if_neg (by omega)]
  split at h <;> cases h
  exact read_storeHintBytes q k v

theorem storeHint_accepting (q : Nat) (v : Word) (hA : s.Accepting) :
    ∃ t, s.storeHint q v = .next t ∧ t = { s with hint := t.hint } := by
  unfold State.storeHint
  split
  · exact ⟨s, rfl, rfl⟩
  · rw [if_neg (mode_ne_busy.2 hA)]
    obtain ⟨_, he⟩ := storeHintBytes_frame s ..
    rw [he]
    exact ⟨_, rfl, rfl⟩

/-! ### Words that hold nothing -/

/-- Byte `j` of a HINT word that loads is its entry, or 0 past the last one. -/
theorem hintByte_of_loadHint {q j : Nat} {v : Word} (h : s.loadHint q = .ok v) (hj : j < 4) :
    s.hintByte (4 * q + j) = some (v.extractLsb' (8 * j) 8) := by
  have hbytes : ∀ j, j < 4 → ∃ e, s.hintByte (4 * q + j) = some e := fun j hj =>
    Option.ne_none_iff_exists'.1 fun hnone => nomatch h.symm.trans (loadHint_none q j hj hnone)
  choose! bytes hsome using hbytes
  obtain rfl := Except.ok.inj (h.symm.trans (loadHint_ok q bytes hsome))
  rw [hsome j hj, bytes_ext bytes j hj]

theorem loadHint_unpopulated {q : Nat} (h : s.params.maxDevs ≤ 4 * q) : s.loadHint q = .ok 0#32 :=
  loadHint_ok q (fun _ => 0#8) fun _ _ => hintByte_past (by omega)

theorem loadDin_unpopulated {w : Nat} (h : s.params.maxDrWords ≤ w) : s.loadDin w = .ok 0#32 := if_pos h

theorem loadDout_unpopulated {w : Nat} (h : s.params.maxDrWords ≤ w) : s.loadDout w = .ok 0#32 := if_pos h

theorem storeHint_unpopulated {q : Nat} {v : Word} (h : s.params.maxDevs ≤ 4 * q) : s.storeHint q v = .next s := if_pos h

theorem storeDin_unpopulated {w : Nat} {v : Word} (h : s.params.maxDrWords ≤ w) : s.storeDin w v = .next s := if_pos h

/-- Reserved and unpopulated locations read as zero (20_memory.md R63). -/
theorem loadAt_nothing {off : Nat} (ha : off % 4 = 0)
    (h : (0x018 ≤ off ∧ off < 0x100) ∨ (0x400 ≤ off ∧ off < 0x1000) ∨ (0x100 + s.params.maxDevs ≤ off ∧ off < 0x200) ∨
      (0x200 + 4 * s.params.maxDrWords ≤ off ∧ off < 0x300) ∨ (0x300 + 4 * s.params.maxDrWords ≤ off ∧ off < 0x400)) :
    s.loadAt off = .ok 0#32 := by
  obtain h | h | h | h | h := h
  · exact loadAt_rsv (.inl h)
  · exact loadAt_rsv (.inr h.1)
  · rw [loadAt_hint (by omega) h.2]
    exact loadHint_unpopulated (by omega)
  · rw [loadAt_din (by omega) h.2]
    exact loadDin_unpopulated (by omega)
  · rw [loadAt_dout (by omega) h.2]
    exact loadDout_unpopulated (by omega)

/-- Read-only, reserved and unpopulated locations ignore stores (20_memory.md R63). -/
theorem storeAt_nothing {off : Nat} {v : Word} (ha : off % 4 = 0)
    (h : (0x008 ≤ off ∧ off < 0x100) ∨ (0x300 ≤ off ∧ off < 0x1000) ∨ (0x100 + s.params.maxDevs ≤ off ∧ off < 0x200) ∨
      (0x200 + 4 * s.params.maxDrWords ≤ off ∧ off < 0x300)) :
    s.storeAt off v = .next s := by
  obtain h | h | h | h := h
  · exact storeAt_other (.inl h)
  · exact storeAt_other (.inr h.1)
  · rw [storeAt_hint (by omega) h.2]
    exact storeHint_unpopulated (by omega)
  · rw [storeAt_din (by omega) h.2]
    exact storeDin_unpopulated (by omega)

/-- A load of a HINT word that answers puts out the word it loads. -/
theorem loadHint_of_step {q : Nat} {v : Word} (hq : q < 64)
    (h : step (s.withEnv (.host (.load .word (s.params.windowBase + 0x100 + 4 * q)) :: rest)) =
      .next { s with env := rest, trace := .loadData v :: s.trace }) :
    s.loadHint q = .ok v := by
  cases hl : s.loadHint q with
  | ok w =>
    rw [load_hint hq hl] at h
    have htrace := congrArg State.trace (Host.Outcome.next.inj h)
    obtain rfl := Output.loadData.inj (List.cons.inj htrace).1
    rfl
  | error f =>
    rw [Nat.add_assoc, load_err (f := f) (by omega) (by omega)] at h
    · cases h
    · rw [loadAt_hint (by omega) (by omega), show (0x100 + 4 * q - 0x100) / 4 = q by omega]
      exact hl

/-! ### Accesses the window answers with a bus error or runs as a command -/

/-- A host access that is not 32 bits wide at a multiple of 4 (20_memory.md R62). -/
theorem hostAccess_busError {width : Width} {off : Nat} (v : Word) (h : off < 4096) (hbad : width ≠ .word ∨ off % 4 ≠ 0) :
    s.hostAccess (.load width (s.params.windowBase + off)) = .fault .busError ∧
    s.hostAccess (.store width (s.params.windowBase + off) v) = .fault .busError := by
  have hguard : ¬ (width = .word ∧ off % 4 = 0) := by rwa [not_and_or]
  unfold State.hostAccess
  simp only [offsetOf_base h, if_neg hguard, and_self]

/-- A store of a legal word to CMD runs its command (20_memory.md R72). -/
theorem storeCmd_legal {w : Word} {i : Instr} (h : decode w = .ok i) : s.storeCmd w = exec i s := by
  unfold State.storeCmd
  rw [h]

/-! ### The vectors of WI_VAL and SD_DATA -/

theorem irVector_get (k : Nat) :
    s.irVector.getLsbD k = (decide (k < s.target.irLength.toNat) && s.oplArg.getLsbD k) := by
  unfold State.irVector
  rw [lowBits_get, BitVec.getLsbD_setWidth]
  rcases Nat.lt_or_ge k 2048 with hk | hk
  · simp [hk]
  · rw [BitVec.getLsbD_of_ge s.oplArg k (by omega), Bool.and_false]

/-- SHIFT_DR takes no bit from an unwritten word (70_reset_and_hazards.md R232). -/
theorem dinVector_written {v : Vec} {b : Nat} (h : s.dinVector = some v) (hb : b < s.oplNbits) :
    ∃ w, s.din.read (b / 32) = some w :=
  Option.ne_none_iff_exists'.1 fun hnone => nomatch h.symm.trans (dinVector_none hb hnone)

/-- Where every word it takes a bit from is written, SHIFT_DR shifts the low `nbits` bits of DIN, bit `b` being bit
`b mod 32` of word `b div 32` (20_memory.md R65, 41_addressed_access.md R167). -/
theorem dinVector_some (h : ∀ b, b < s.oplNbits → ∃ w, s.din.read (b / 32) = some w) :
    ∃ x : Nat, s.dinVector = some (lowBits (BitVec.ofNat 2048 x) s.oplNbits) ∧
      ∀ b w, b < s.oplNbits → s.din.read (b / 32) = some w → w.getLsbD (b % 32) = x.testBit b := by
  have hwords : ∀ j, j < (s.oplNbits + 31) / 32 → ∃ w, s.din.read j = some w := fun j hj => by
    have hj' := h (32 * j) (by omega)
    rwa [Nat.mul_div_cancel_left j (by decide)] at hj'
  obtain ⟨x, hx, -, hbits⟩ := dinNumber_some s.din _ hwords
  refine ⟨x, ?_, fun b w hb => hbits b w (by omega)⟩
  unfold State.dinVector
  rw [hx]

/-- Every vector SHIFT_DR shifts is the one of `dinVector_some`. -/
theorem dinVector_bits {v : Vec} (h : s.dinVector = some v) :
    ∃ x : Nat, v = lowBits (BitVec.ofNat 2048 x) s.oplNbits ∧
      ∀ b w, b < s.oplNbits → s.din.read (b / 32) = some w → w.getLsbD (b % 32) = x.testBit b := by
  obtain ⟨x, hx, hbits⟩ := dinVector_some fun b hb => dinVector_written h hb
  exact ⟨x, Option.some.inj (h.symm.trans hx), hbits⟩

/-! ### What the core reads of a response -/

/-- The bus carries the same of two draws that agree on OK for INIT and below COUNT for SHIFT_CAPTURE
(30_encoding.md R90). -/
theorem respBus_congr {p : Params} {q : TapReq} {r1 r2 : TapResp} (hok : q = .init → r1.ok = r2.ok)
    (htdo : ∀ src n exit, q = .shiftCapture src n exit → ∀ k, k < n → r1.tdo.getLsbD k = r2.tdo.getLsbD k) :
    q.respBus p r1 = q.respBus p r2 := by
  cases q with
  | init => simp only [TapReq.respBus, hok rfl]
  | shiftCapture src n exit =>
    have hlow : lowBits r1.tdo n = lowBits r2.tdo n := by
      apply BitVec.eq_of_getLsbD_eq
      intro k _
      rw [lowBits_get, lowBits_get]
      by_cases hk : k < n
      · rw [htdo src n exit rfl k hk]
      · rw [decide_eq_false hk, Bool.false_and, Bool.false_and]
    simp only [TapReq.respBus, TapRespBus.captured, hlow]
  | _ => rfl

/-- The core reads nothing but the bus. -/
theorem tapStep_congr {q : TapReq} {r1 r2 : TapResp} (hq : s.tapRequest = some q)
    (hbus : q.respBus s.params r1 = q.respBus s.params r2) : s.tapStep r1 = s.tapStep r2 := by
  unfold State.tapStep TapReq.received
  rw [hq]
  dsimp only
  rw [hbus]

/-! ### The core's turn -/

/-- On its turn the core moves on the state whose next move, if there is one, is taken (60_exceptions.md R202). -/
theorem step_coreTurn (h : s.CoreTurn) : step s = (s.withEnv s.env.tail).coreStep := by
  unfold step
  split
  · next he => rw [he, List.tail_nil, ← he, withEnv_self]
  · next m rest he =>
    obtain hnil | hcore := h
    · exact absurd (he.symm.trans hnil) (List.cons_ne_nil m rest)
    · rw [he] at hcore ⊢
      obtain rfl := Option.some.inj hcore
      rfl

theorem coreStep_outstanding (h : s.tapRequest ≠ none) : s.coreStep = .next s := by
  obtain ⟨q, hq⟩ := Option.ne_none_iff_exists'.1 h
  unfold State.coreStep
  rw [hq]

theorem coreStep_accepting (h : s.Accepting) : s.coreStep = .next s := by
  unfold State.coreStep State.tapRequest State.phaseStep
  obtain hp | hp := h <;> simp only [hp]

end Sys2Proof.Machine

open Sys2Proof Sys2Proof.Machine

/-- Settles O35: the bits of `irVector_get` and `dinVector_bits`; a vector exists by `dinVector_some`. -/
theorem shiftedVectors : Obligations.ShiftedVectors := by
  refine ⟨fun s k => irVector_get k, fun s v b w hv hn hb hw => ?_, fun s v b hv hb => ?_,
    fun s => ⟨fun ⟨_, hv⟩ b hb => dinVector_written hv hb, fun h => ?_⟩⟩
  · obtain ⟨x, rfl, hbits⟩ := dinVector_bits hv
    rw [lowBits_get, BitVec.getLsbD_ofNat, hbits b w hb hw]
    simp [hb, Nat.lt_of_lt_of_le hb hn]
  · obtain ⟨x, rfl, -⟩ := dinVector_bits hv
    rw [lowBits_get, decide_eq_false (by omega), Bool.false_and]
  · obtain ⟨x, hx, -⟩ := dinVector_some h
    exact ⟨_, hx⟩

/-- Settles O48: the bus carries the same of both draws (`respBus_congr`), and the core reads nothing else. -/
theorem responsesAreReadAsR90Says : Obligations.ResponsesAreReadAsR90Says := by
  intro s q r1 r2 hq hok htdo
  exact tapStep_congr hq (respBus_congr hok htdo)

/-- Settles O53: `loadAt_nothing` and `storeAt_nothing` for whole words, `hintByte_of_loadHint` and `read_storeHint` for a
byte past MAX_DEVS. -/
theorem reservedReadsZeroIgnoresStores : Obligations.ReservedReadsZeroIgnoresStores := by
  refine ⟨fun s rest off ha h => load_ok (by omega) ha (loadAt_nothing ha h),
    fun s rest off v ha h => (step_store (by omega) ha).trans (storeAt_nothing ha h),
    fun s t rest q b v hq hb hpast => ⟨fun h => ?_, fun h => ?_⟩⟩
  · have hbyte := hintByte_of_loadHint (loadHint_of_step hq h) hb
    exact Option.some.inj (hbyte.symm.trans (hintByte_past hpast))
  · rw [store_hint hq] at h
    exact (read_storeHint h _).trans (if_neg fun ⟨_, hlt⟩ => Nat.not_lt.2 hpast hlt)

/-- Settles O55: the store is taken and changes HINT alone (`storeHint_accepting`), entry by entry as `read_storeHint`
says. -/
theorem hintStoreIsLittleEndian : Obligations.HintStoreIsLittleEndian := by
  intro s rest q v hA hq
  obtain ⟨t, ht, hframe⟩ := storeHint_accepting (s := s.withEnv rest) q v hA
  exact ⟨t, (store_hint hq).trans ht, hframe, read_storeHint (s := s.withEnv rest) ht⟩

/-- Settles O5: a store at the window's base is a store to CMD (`step_cmd`). -/
theorem stepRunsTheDecodedCommand : Obligations.StepRunsTheDecodedCommand := by
  intro s w i rest hd
  exact step_cmd.trans (storeCmd_legal hd)

/-- Settles O50: on its turn the core waits for a request outstanding, and takes no step in IDLE and HOOK_WAIT. -/
theorem waitsAreKept : Obligations.WaitsAreKept := by
  intro s h hturn
  rw [step_coreTurn hturn]
  obtain hq | hA := h
  · exact coreStep_outstanding hq
  · exact coreStep_accepting hA

/-- Settles O54: width and alignment are checked before the access (`hostAccess_busError`). -/
theorem badAccessIsABusError : Obligations.BadAccessIsABusError := by
  intro s rest width off v h hbad
  rw [step_host, step_host]
  exact hostAccess_busError (s := s.withEnv rest) v h hbad

end

section
/-! SUPPORT. The decoder both ways (30_encoding.md R81 to R83): it answers exactly where `Decoded` holds of the word and RSV is
zero, which is where the word's fields are the command's. -/
namespace Sys2Proof

open Machine

variable {w : Word} {i : Instr}

/-! ### Decoding, row by row -/

/-- The commands with IDX as their only operand (30_encoding.md R82), as `Decoded.indexed` lists them. -/
abbrev indexedCommands : List (Nat → Instr) :=
  [Instr.writeIr, .rdIdcode, .rdIrlen, .rdDesc, .rdIndex, .rdIrpre, .rdIrpost, .rdDrpre, .rdDrpost, .rdCurir, .rdCurirk]

/-- The two ways to say which opcode a word holds. -/
theorem opcode_eq_iff {opc : Word} : (opcOf w).setWidth 32 = opc ↔ (opcOf w).toNat = opc.toNat := by
  rw [← BitVec.toNat_inj, BitVec.toNat_setWidth_of_le (by decide)]

theorem opcOf_of_setWidth {opc : Word} (h : (opcOf w).setWidth 32 = opc) : opcOf w = opc.setWidth 8 := by
  rw [← h, BitVec.setWidth_setWidth_of_le _ (by decide), BitVec.setWidth_eq]

theorem decodePlain_ok (hi : idxOf w = 0) (hn : nbitsOf w = 0) (hc : capOf w = false) : decodePlain i w = .ok i :=
  if_pos ⟨hi, hn, hc⟩

theorem decodeIndexed_ok (mk : Nat → Instr) (hn : nbitsOf w = 0) (hc : capOf w = false) :
    decodeIndexed mk w = .ok (mk (idxOf w)) :=
  if_pos ⟨hn, hc⟩

/-- The decoder answers wherever a row says so: the converse of `decode_decoded`. -/
theorem decode_of_decoded (hr : rsvOf w = 0#3) (h : Decoded w i) : decode w = .ok i := by
  unfold decode
  rw [if_neg (not_not.2 hr)]
  cases h with
  | plain i hrow ho hi hn hc =>
    rw [opcOf_of_setWidth ho]
    rcases hrow with rfl | rfl | rfl | rfl <;> exact decodePlain_ok hi hn hc
  | indexed mk hrow ho hn hc =>
    rw [opcOf_of_setWidth ho]
    simp only [List.mem_cons, List.not_mem_nil, or_false] at hrow
    rcases hrow with rfl | rfl | rfl | rfl | rfl | rfl | rfl | rfl | rfl | rfl | rfl <;> exact decodeIndexed_ok _ hn hc
  | shiftDr ho => rw [opcOf_of_setWidth ho]; rfl

/-! ### The fields of a decoded and of an encoded word -/

/-- The word's fields are the command's: its row's opcode, its operands, and 0 in every other field (30_encoding.md R80). -/
structure Carries (w : Word) (i : Instr) : Prop where
  opc : (opcOf w).toNat = (opcodeOf i).toNat
  idx : idxOf w = Laws.idxField i
  nbits : nbitsOf w = Laws.nbitsField i
  cap : capOf w = Laws.capField i
  rsv : rsvOf w = 0#3

/-- `Fields.Statement`, the law of every command, as one statement about all of them. -/
theorem fields_encode (i : Instr) : Laws.Fields.Statement i :=
  match i with
  | .scan => Laws.Fields.scan
  | .scanh => Laws.Fields.scanh
  | .writeIr idx => Laws.Fields.writeIr idx
  | .shiftDr idx nbits cap => Laws.Fields.shiftDr idx nbits cap
  | .hookDone => Laws.Fields.hookDone
  | .rdCount => Laws.Fields.rdCount
  | .rdIdcode idx => Laws.Fields.rdIdcode idx
  | .rdIrlen idx => Laws.Fields.rdIrlen idx
  | .rdDesc idx => Laws.Fields.rdDesc idx
  | .rdIndex idx => Laws.Fields.rdIndex idx
  | .rdIrpre idx => Laws.Fields.rdIrpre idx
  | .rdIrpost idx => Laws.Fields.rdIrpost idx
  | .rdDrpre idx => Laws.Fields.rdDrpre idx
  | .rdDrpost idx => Laws.Fields.rdDrpost idx
  | .rdCurir idx => Laws.Fields.rdCurir idx
  | .rdCurirk idx => Laws.Fields.rdCurirk idx

theorem carries_encode (h : i.wellFormed = true) : Carries (encode i) i :=
  have ⟨ho, hi, hn, hc, hr⟩ := fields_encode i h
  ⟨ho, hi, hn, hc, hr⟩

/-- No two words carry the same command. -/
theorem Carries.unique {v : Word} (hv : Carries v i) (hw : Carries w i) : v = w :=
  word_eq_of_fields (hv.opc.trans hw.opc.symm) (hv.idx.trans hw.idx.symm) (hv.nbits.trans hw.nbits.symm)
    (hv.cap.trans hw.cap.symm) (hv.rsv.trans hw.rsv.symm)

/-- A row with IDX alone carries the index it decodes to. -/
theorem Carries.decoded_indexed {mk : Nat → Instr} {idx : Nat} (hm : mk ∈ indexedCommands)
    (ho : (opcOf w).toNat = (opcodeOf (mk 0)).toNat) (hi : idxOf w = idx) (hn : nbitsOf w = 0) (hc : capOf w = false) :
    Decoded w (mk idx) :=
  hi ▸ .indexed mk hm (opcode_eq_iff.2 ho) hn hc

theorem Carries.decoded (h : Carries w i) : Decoded w i := by
  obtain ⟨ho, hi, hn, hc, -⟩ := h
  cases i with
  | scan | scanh | hookDone | rdCount => exact .plain _ (by simp) (opcode_eq_iff.2 ho) hi hn hc
  | shiftDr idx nbits cap =>
    obtain rfl : idxOf w = idx := hi
    obtain rfl : nbitsOf w = nbits := hn
    obtain rfl : capOf w = cap := hc
    exact .shiftDr (opcode_eq_iff.2 ho)
  | writeIr | rdIdcode | rdIrlen | rdDesc | rdIndex | rdIrpre | rdIrpost | rdDrpre | rdDrpost | rdCurir | rdCurirk =>
    exact decoded_indexed (by simp) ho hi hn hc

theorem Decoded.carries (hr : rsvOf w = 0#3) (h : Decoded w i) : Carries w i := by
  cases h with
  | plain i hrow ho hi hn hc =>
    have hopc := opcode_eq_iff.1 ho
    rcases hrow with rfl | rfl | rfl | rfl <;> exact ⟨hopc, hi, hn, hc, hr⟩
  | indexed mk hrow ho hn hc =>
    have hopc := opcode_eq_iff.1 ho
    simp only [List.mem_cons, List.not_mem_nil, or_false] at hrow
    rcases hrow with rfl | rfl | rfl | rfl | rfl | rfl | rfl | rfl | rfl | rfl | rfl <;> exact ⟨hopc, rfl, hn, hc, hr⟩
  | shiftDr ho => exact ⟨opcode_eq_iff.1 ho, rfl, rfl, rfl, hr⟩

/-- The decoder reads a command exactly off the word that carries it. -/
theorem decode_eq_ok_iff : decode w = .ok i ↔ Carries w i :=
  ⟨fun h => (decode_decoded h).elim Decoded.carries, fun h => decode_of_decoded h.rsv h.decoded⟩

/-- A legal word is the encoding of its command (30_encoding.md R85). -/
theorem encode_of_decode (h : decode w = .ok i) : encode i = w :=
  (carries_encode (decode_wellFormed h)).unique (decode_eq_ok_iff.1 h)

theorem idxOf_eq_and (w : Word) : idxOf w = (w >>> 8 &&& 0xFF#32).toNat := by
  rw [idxOf_eq, BitVec.toNat_and, BitVec.toNat_ushiftRight, Nat.shiftRight_eq_div_pow]
  exact (Nat.and_two_pow_sub_one_eq_mod _ 8).symm

theorem nbitsOf_eq_and (w : Word) : nbitsOf w = (w >>> 16 &&& 0xFFF#32).toNat := by
  rw [nbitsOf_eq, BitVec.toNat_and, BitVec.toNat_ushiftRight, Nat.shiftRight_eq_div_pow]
  exact (Nat.and_two_pow_sub_one_eq_mod _ 12).symm

theorem operandsOf_eq (i : Instr) : operandsOf i = (Laws.idxField i, Laws.nbitsField i, Laws.capField i) := by
  cases i <;> rfl

end Sys2Proof

open Sys2Proof Sys2Proof.Machine

/-- Settles O1: the encoding of a well-formed command carries it (`carries_encode`), and the decoder reads what a word
carries. -/
theorem decodeAfterEncode : Obligations.DecodeAfterEncode := by
  intro i h
  exact decode_eq_ok_iff.2 (carries_encode h)

/-- Settles O2: the word carries the command it decodes to, and only its encoding does (`encode_of_decode`). -/
theorem encodeAfterDecode : Obligations.EncodeAfterDecode := by
  intro w i h
  obtain ⟨-, hi, hn, hc, -⟩ := decode_eq_ok_iff.1 h
  refine ⟨decode_wellFormed h, encode_of_decode h, ?_⟩
  rw [operandsOf_eq, ← hi, ← hn, ← hc, idxOf_eq_and, nbitsOf_eq_and]
  rfl
end

section
/-! SUPPORT. The opcode map's rows (30_encoding.md R83): what a word that meets a row's mask and match holds in its fields. -/
namespace Sys2Proof

open Machine

variable {w m : Word} {i : Instr}

/-! ### A masked word, field by field -/

@[simp] theorem opcOf_and (v w : Word) : opcOf (v &&& w) = opcOf v &&& opcOf w := BitVec.extractLsb'_and ..

@[simp] theorem idxOf_and (v w : Word) : idxOf (v &&& w) = idxOf v &&& idxOf w := by
  simp only [idxOf, BitVec.extractLsb'_and, BitVec.toNat_and]

@[simp] theorem nbitsOf_and (v w : Word) : nbitsOf (v &&& w) = nbitsOf v &&& nbitsOf w := by
  simp only [nbitsOf, BitVec.extractLsb'_and, BitVec.toNat_and]

@[simp] theorem capOf_and (v w : Word) : capOf (v &&& w) = (capOf v && capOf w) := BitVec.getLsbD_and

@[simp] theorem rsvOf_and (v w : Word) : rsvOf (v &&& w) = rsvOf v &&& rsvOf w := BitVec.extractLsb'_and ..

/-- A word that holds nothing but an opcode, as every row's match does. -/
theorem eq_opcode_iff (hm : m.toNat < 256) : w = m ↔
    (opcOf w).setWidth 32 = m ∧ idxOf w = 0 ∧ nbitsOf w = 0 ∧ capOf w = false ∧ rsvOf w = 0#3 := by
  have hrsv : rsvOf w = 0#3 ↔ w.toNat / 2 ^ 29 % 2 ^ 3 = 0 := by rw [← BitVec.toNat_inj, rsvOf_toNat]; rfl
  have hw := w.isLt
  rw [opcode_eq_iff, opcOf_toNat, idxOf_eq, nbitsOf_eq, capOf_eq, hrsv, decide_eq_false_iff_not, ← BitVec.toNat_inj]
  omega

/-- The mask of a row without operands. -/
theorem meets_plain (hm : m.toNat < 256) : w &&& 0xFFFFFFFF#32 = m ↔
    (opcOf w).setWidth 32 = m ∧ idxOf w = 0 ∧ nbitsOf w = 0 ∧ capOf w = false ∧ rsvOf w = 0#3 := by
  rw [show w &&& 0xFFFFFFFF#32 = w from BitVec.and_allOnes, eq_opcode_iff hm]

/-- The mask of a row with IDX alone. -/
theorem meets_indexed (hm : m.toNat < 256) : w &&& 0xFFFF00FF#32 = m ↔
    (opcOf w).setWidth 32 = m ∧ nbitsOf w = 0 ∧ capOf w = false ∧ rsvOf w = 0#3 := by
  have ho : opcOf w &&& opcOf 0xFFFF00FF#32 = opcOf w := BitVec.and_allOnes
  have hi : idxOf w &&& idxOf 0xFFFF00FF#32 = 0 := Nat.and_zero _
  have hn : nbitsOf w &&& nbitsOf 0xFFFF00FF#32 = nbitsOf w := Nat.and_two_pow_sub_one_of_lt_two_pow (n := 12) (nbitsOf_lt w)
  have hc : (capOf w && capOf 0xFFFF00FF#32) = capOf w := Bool.and_true _
  have hr : rsvOf w &&& rsvOf 0xFFFF00FF#32 = rsvOf w := BitVec.and_allOnes
  rw [eq_opcode_iff hm, opcOf_and, idxOf_and, nbitsOf_and, capOf_and, rsvOf_and, ho, hi, hn, hc, hr]
  simp only [true_and]

/-- The mask of SHIFT_DR's row. -/
theorem meets_shiftDr (hm : m.toNat < 256) : w &&& 0xE00000FF#32 = m ↔
    (opcOf w).setWidth 32 = m ∧ rsvOf w = 0#3 := by
  have ho : opcOf w &&& opcOf 0xE00000FF#32 = opcOf w := BitVec.and_allOnes
  have hi : idxOf w &&& idxOf 0xE00000FF#32 = 0 := Nat.and_zero _
  have hn : nbitsOf w &&& nbitsOf 0xE00000FF#32 = 0 := Nat.and_zero _
  have hc : (capOf w && capOf 0xE00000FF#32) = false := Bool.and_false _
  have hr : rsvOf w &&& rsvOf 0xE00000FF#32 = rsvOf w := BitVec.and_allOnes
  rw [eq_opcode_iff hm, opcOf_and, idxOf_and, nbitsOf_and, capOf_and, rsvOf_and, ho, hi, hn, hc, hr]
  simp only [true_and]

/-! ### The rows of the opcode map -/

theorem opcodeOf_lt (i : Instr) : (opcodeOf i).toNat < 256 := by cases i <;> simp [opcodeOf]

/-- Three kinds of rows make up the map, as three kinds of commands make up the command set. -/
theorem opcodeRows_kinds : ∀ row ∈ opcodeRows,
    row ∈ [Instr.scan, .scanh, .hookDone, .rdCount].map (fun i => (opcodeOf i, 0xFFFFFFFF#32)) ∨
    row ∈ indexedCommands.map (fun mk => (opcodeOf (mk 0), 0xFFFF00FF#32)) ∨ row = (0x04#32, 0xE00000FF#32) := by
  simp [opcodeRows, opcodeOf]

theorem row_mem (i : Instr) : (opcodeOf i, maskOf i) ∈ opcodeRows := by
  cases i <;> simp [opcodeRows, opcodeOf, maskOf]

/-- No two rows have one opcode. -/
theorem row_ext {r q : Word × Word} (hr : r ∈ opcodeRows) (hq : q ∈ opcodeRows) (h : r.1 = q.1) : r = q :=
  List.inj_on_of_nodup_map (by decide) hr hq h

/-- A word that decodes to a command meets the command's row. -/
theorem meets_of_decode (h : decode w = .ok i) : w &&& maskOf i = opcodeOf i := by
  obtain ⟨hr, hd⟩ := decode_decoded h
  cases hd with
  | plain i hrow ho hi hn hc =>
    have hmask : maskOf i = 0xFFFFFFFF#32 := by rcases hrow with rfl | rfl | rfl | rfl <;> rfl
    rw [hmask, meets_plain (opcodeOf_lt i)]
    exact ⟨ho, hi, hn, hc, hr⟩
  | indexed mk hrow ho hn hc =>
    have hmask : maskOf (mk (idxOf w)) = 0xFFFF00FF#32 ∧ opcodeOf (mk 0) = opcodeOf (mk (idxOf w)) := by
      simp only [List.mem_cons, List.not_mem_nil, or_false] at hrow
      rcases hrow with rfl | rfl | rfl | rfl | rfl | rfl | rfl | rfl | rfl | rfl | rfl <;> exact ⟨rfl, rfl⟩
    rw [hmask.1, meets_indexed (opcodeOf_lt _)]
    exact ⟨ho.trans hmask.2, hn, hc, hr⟩
  | shiftDr ho => exact (meets_shiftDr (m := 0x04#32) (by decide)).2 ⟨ho, hr⟩

/-- A word that meets a row decodes to a command of that row. -/
theorem decode_of_meets {row : Word × Word} (hrow : row ∈ opcodeRows) (h : w &&& row.2 = row.1) :
    ∃ i, decode w = .ok i ∧ opcodeOf i = row.1 := by
  obtain hk | hk | rfl := opcodeRows_kinds row hrow
  · obtain ⟨i, hi, rfl⟩ := List.mem_map.1 hk
    obtain ⟨ho, hx, hn, hc, hr⟩ := (meets_plain (opcodeOf_lt i)).1 h
    exact ⟨i, decode_of_decoded hr (.plain i (by simpa using hi) ho hx hn hc), rfl⟩
  · obtain ⟨mk, hmk, rfl⟩ := List.mem_map.1 hk
    obtain ⟨ho, hn, hc, hr⟩ := (meets_indexed (opcodeOf_lt (mk 0))).1 h
    have hd : Decoded w (mk (idxOf w)) := .indexed mk hmk ho hn hc
    exact ⟨_, decode_of_decoded hr hd, (opcode_eq_iff.2 (hd.carries hr).opc).symm.trans ho⟩
  · obtain ⟨ho, hr⟩ := (meets_shiftDr (by decide)).1 h
    exact ⟨_, decode_of_decoded hr (.shiftDr ho), rfl⟩

end Sys2Proof

open Sys2Proof Sys2Proof.Machine

/-- Settles O3: a word meets the row of the command it decodes to (`meets_of_decode`), and no other (`row_ext`). -/
theorem legalWordsMatchOneRow : Obligations.LegalWordsMatchOneRow := by
  refine fun w => ⟨fun row hrow => ⟨decode_of_meets hrow, fun ⟨i, hd, ho⟩ => ?_⟩, fun r hr q hq hwr hwq => ?_,
    fun hno => ?_⟩
  · obtain rfl := row_ext (row_mem i) hrow ho
    exact meets_of_decode hd
  · obtain ⟨i, hi, hri⟩ := decode_of_meets hr hwr
    obtain ⟨j, hj, hqj⟩ := decode_of_meets hq hwq
    obtain rfl := Except.ok.inj (hi.symm.trans hj)
    exact row_ext hr hq (hri.symm.trans hqj)
  · cases hd : decode w with
    | error e => exact ⟨e, rfl⟩
    | ok i => exact absurd (meets_of_decode hd) (hno _ (row_mem i))

/-- Settles O4: the decoder run on each word. -/
theorem someWordsDecode : Obligations.SomeWordsDecode := by
  unfold Obligations.SomeWordsDecode
  decide
end

section
/-! SUPPORT. How many bits each shift of the core has (30_encoding.md R91), and the refusal of a command the mode does not allow
(60_exceptions.md R203, R213). -/
namespace Sys2Proof.Machine

variable {s : State} {q : TapReq}

/-! ### The padding of an addressed command -/

/-- The IR lengths of a finished table's live devices sum to no more than a chain of the longest devices
(40_discovery.md R137). -/
theorem State.TableFinal.irSum_le_chain (h : s.TableFinal) {m : Nat} (hm : m ≤ s.deviceCount.toNat) :
    s.irSum m ≤ s.params.maxDevs * s.params.maxIrLen :=
  (irSum_le s fun a ha => h.ir a (ha.trans_le hm)).trans (Nat.mul_le_mul_right _ (hm.trans h.count_le))

theorem State.Addressing.irPrescan_le (h : s.Addressing) :
    s.target.irPrescan.toNat ≤ s.params.maxDevs * s.params.maxIrLen := by
  rw [show s.target.irPrescan.toNat = s.irSum s.oplIdx from (h.table.ir _ h.live).2.2]
  exact h.table.irSum_le_chain h.live.le

theorem State.Addressing.irPostscan_le (h : s.Addressing) :
    s.target.irPostscan.toNat ≤ s.params.maxDevs * s.params.maxIrLen :=
  (Nat.le.intro (h.table.post _ h.live)).trans (h.table.irSum_le_chain le_rfl)

theorem State.Addressing.irLength_bounds (h : s.Addressing) :
    1 ≤ s.target.irLength.toNat ∧ s.target.irLength.toNat ≤ s.params.maxIrLen :=
  have ⟨h1, h2, _⟩ := h.table.ir _ h.live
  ⟨h1, h2⟩

theorem State.Addressing.drPrescan_le (h : s.Addressing) : s.target.drPrescan.toNat ≤ s.params.maxDevs := by
  rw [show s.target.drPrescan.toNat = s.oplIdx from (h.table.dr _ h.live).1]
  exact h.live.le.trans h.table.count_le

theorem State.Addressing.drPostscan_le (h : s.Addressing) : s.target.drPostscan.toNat ≤ s.params.maxDevs := by
  rw [show s.target.drPostscan.toNat = s.deviceCount.toNat - s.oplIdx - 1 from (h.table.dr _ h.live).2]
  have hcount := h.table.count_le
  omega

/-! ### The bit count of every shift -/

/-- A shift of a vector and a capture fit the bus; an all-ones shift fits it or pads, past at most a whole chain of the longest
devices (30_encoding.md R90, R91). No shift is empty. -/
def TapReq.Sized (p : Params) : TapReq → Prop
  | .shift .ones n _ => 1 ≤ n ∧ n ≤ max p.busWidth (p.maxDevs * p.maxIrLen)
  | .shift (.vec _) n _ => 1 ≤ n ∧ n ≤ p.busWidth
  | .shiftCapture _ n _ => 1 ≤ n ∧ n ≤ p.busWidth
  | .init | .reset | .enterShiftIr | .enterShiftDr | .returnIdle _ => True

theorem irLen_le_busWidth {p : Params} (hp : p.Legal) : p.maxIrLen ≤ p.busWidth := hp.irLen_le.trans busWidth_ge

theorem devs_le_chain {p : Params} (hp : p.Legal) : p.maxDevs ≤ p.maxDevs * p.maxIrLen :=
  Nat.le_mul_of_pos_right _ hp.irLen_pos

theorem shiftOnes_sized {p : Params} {n : Nat} {exit : Bool} (hn : n ≤ p.maxDevs * p.maxIrLen)
    (hq : shiftOnes n exit = some q) : q.Sized p := by
  unfold shiftOnes at hq
  split at hq <;> cases hq
  next h0 => exact ⟨Nat.pos_of_ne_zero h0, hn.trans (Nat.le_max_right ..)⟩

theorem hintRequest_sized (hp : s.params.Legal) (hq : s.hintRequest = some q) : q.Sized s.params := by
  unfold State.hintRequest at hq
  split at hq <;> cases hq
  next h he =>
    obtain ⟨-, -, hpos, hle⟩ := hintEntry_length he
    exact ⟨hpos, hle.trans (irLen_le_busWidth hp)⟩

theorem valueRequest_sized (hp : s.params.Legal) (h : s.Addressing) (hq : s.valueRequest = some q) : q.Sized s.params := by
  unfold State.valueRequest at hq
  split at hq <;> cases hq
  exact ⟨h.irLength_bounds.1, h.irLength_bounds.2.trans (irLen_le_busWidth hp)⟩

theorem dataRequest_sized (h : s.Shifting) (hq : s.dataRequest = some q) : q.Sized s.params := by
  have hsize : 1 ≤ s.oplNbits ∧ s.oplNbits ≤ s.params.busWidth := ⟨h.bits_pos, h.bits_le.trans maxDrBits_le_busWidth⟩
  unfold State.dataRequest at hq
  split at hq
  · cases hq
  split at hq
  · cases hq
  split at hq <;> cases hq <;> exact hsize

/-- The shifts whose count is fixed: one bit, or the 32 of an IDCODE (40_discovery.md R118 to R133). -/
theorem fixed_sized {p : Params} {n : Nat} (h1 : 1 ≤ n) (h32 : n ≤ 32) :
    1 ≤ n ∧ n ≤ p.busWidth := ⟨h1, h32.trans busWidth_ge⟩

/-- Every request the core issues is sized as R91 says. -/
theorem request_sized (hp : s.params.Legal) (hI : s.PhaseInv) (hq : s.tapRequest = some q) : q.Sized s.params := by
  unfold State.PhaseInv at hI
  unfold State.tapRequest at hq
  have hchain := devs_le_chain hp
  have hexit : ∀ exit, (TapReq.shift .ones 1 exit).Sized s.params := fun _ =>
    ⟨le_rfl, (Nat.le_trans (by decide) busWidth_ge).trans (Nat.le_max_left ..)⟩
  cases hphase : s.phase <;> simp only [hphase, reduceCtorEq, Option.some.injEq] at hI hq
  case scInit =>
    split at hq <;> cases hq
    trivial
  case idShift => subst hq; exact fixed_sized (by decide) le_rfl
  case irHint => exact hintRequest_sized hp hq
  case irFirst | irProbe | drCount => subst hq; exact fixed_sized le_rfl (by decide)
  case idExit | irExit | drExit | failExit => subst hq; exact hexit true
  case wiPre => exact shiftOnes_sized hI.irPrescan_le hq
  case wiVal => exact valueRequest_sized hp hI hq
  case wiPost => exact shiftOnes_sized hI.1.irPostscan_le hq
  case sdPre => exact shiftOnes_sized (hI.addressing.drPrescan_le.trans hchain) hq
  case sdData => exact dataRequest_sized hI hq
  case sdPost => exact shiftOnes_sized (hI.1.addressing.drPostscan_le.trans hchain) hq
  all_goals subst hq; trivial

theorem TapReq.Sized.count_bounds {p : Params} {n : Nat} (h : q.Sized p) (hn : q.shiftCount = some n) :
    1 ≤ n ∧ n ≤ max p.busWidth (p.maxDevs * p.maxIrLen) := by
  cases q with
  | shift src m exit =>
    cases hn
    cases src with
    | ones => exact h
    | vec v => exact ⟨h.1, h.2.trans (Nat.le_max_left ..)⟩
  | shiftCapture src m exit => cases hn; exact ⟨h.1, h.2.trans (Nat.le_max_left ..)⟩
  | init | reset | enterShiftIr | enterShiftDr | returnIdle => cases hn

/-- No legal choice of parameters allows a longer shift than 255 devices of 32 bits ask for (30_encoding.md R91). -/
theorem longest_shift {p : Params} (hp : p.Legal) : max p.busWidth (p.maxDevs * p.maxIrLen) ≤ 8160 := by
  have hchain : p.maxDevs * p.maxIrLen ≤ 255 * 32 := Nat.mul_le_mul hp.devs_le hp.irLen_le
  have hwords := hp.drWords_le
  unfold Params.busWidth Params.maxDrBits
  omega

/-- COUNT on the bus is the bit count, where it fits COUNT's 16 bits (30_encoding.md R90). -/
theorem bus_count {p : Params} {n : Nat} (hn : q.shiftCount = some n) (hfit : n < 2 ^ 16) : (q.bus p).count.toNat = n := by
  have hcount : (q.bus p).count = BitVec.ofNat 16 n := by cases q <;> cases hn <;> rfl
  rw [hcount, BitVec.toNat_ofNat, Nat.mod_eq_of_lt hfit]

/-! ### Refusals -/

/-- A command the mode does not allow is latched and refused (60_exceptions.md R203, R213). -/
theorem accept_refused (hA : s.Accepting) {c : Instr} (ha : allowed c s.mode = false) (run : State → State) :
    s.accept c run = s.answered (encode c) 0#32 .badState := by
  obtain ⟨hb, -⟩ | ⟨-, -, he⟩ | ⟨-, ht, -⟩ := accept_cases s c run
  · exact absurd hb (mode_ne_busy.2 hA)
  · exact he.trans (reject_eq hA _ _)
  · exact absurd (ha.symm.trans ht) Bool.false_ne_true

/-- An illegal word is latched and refused (30_encoding.md R84). -/
theorem storeCmd_illegal (hA : s.Accepting) {w : Word} {e : DecodeError} (h : decode w = .error e) :
    s.storeCmd w = .next (s.answered w 0#32 .illegalCmd) := by
  unfold State.storeCmd State.acceptIllegal
  rw [h]
  dsimp only
  rw [if_neg (mode_ne_busy.2 hA), reject_eq hA]

end Sys2Proof.Machine

open Sys2Proof Sys2Proof.Machine

/-- Settles O42: the bounds of `request_sized`, which fit COUNT by `longest_shift`. -/
theorem shiftCountsFit : Obligations.ShiftCountsFit := by
  intro s q n hI hq hn
  obtain ⟨hpos, hle⟩ := (request_sized hI.shape.legal hI.phase hq).count_bounds hn
  have hmax := hle.trans (longest_shift hI.shape.legal)
  refine ⟨hpos, hle.trans_eq ?_, hmax, bus_count hn (by omega)⟩
  unfold Params.busWidth Params.maxDrBits
  omega

/-- Settles O60: a vector and a capture fit the bus (`request_sized`), so no bit below COUNT is cut off. -/
theorem vectorsOnTheBus : Obligations.VectorsOnTheBus := by
  refine ⟨fun p r => ⟨rfl, rfl, received_ok⟩, fun s q n hI hq _ => ?_⟩
  have hsized := request_sized hI.shape.legal hI.phase hq
  refine ⟨fun v exit hv k hk => ?_, fun src exit r hc => ?_⟩
  · have hfit : n ≤ s.params.busWidth := by obtain rfl | rfl := hv <;> exact hsized.2
    have hbus : (q.bus s.params).vec = (Src.vec v).bits s.params.busWidth := by obtain rfl | rfl := hv <;> rfl
    rw [hbus, src_bits_get, decide_eq_true (hk.trans_le hfit), Bool.true_and]
  · subst hc
    have hfit : n ≤ s.params.busWidth := hsized.2
    have htdo : ∀ k, ((TapReq.shiftCapture src n exit).respBus s.params r).tdo.getLsbD k =
        (decide (k < s.params.busWidth) && (decide (k < n) && r.tdo.getLsbD k)) := fun k => captured_tdo_get ..
    refine ⟨fun k => ?_, fun k => ?_, rfl⟩
    · rw [htdo]
      by_cases hk : k < n
      · rw [decide_eq_true (hk.trans_le hfit), Bool.true_and]
      · rw [decide_eq_false hk, Bool.false_and, Bool.and_false]
    · rw [htdo, received_get, Bool.and_left_comm]

/-- Settles O14: `storeCmd_illegal` for a word, `accept_refused` for a command in the wrong mode. -/
theorem wrongWordOrModeIsRefused : Obligations.WrongWordOrModeIsRefused := by
  refine ⟨fun s w rest e hA hd => step_cmd.trans (storeCmd_illegal (s := s.withEnv rest) hA hd), fun s hp => ?_,
    fun s hp => ?_⟩
  · have hmode := mode_eq_hook.2 hp
    exact ⟨congrArg Host.Outcome.next (accept_refused (.inr hp) (by rw [hmode]; rfl) _),
      congrArg Host.Outcome.next (accept_refused (.inr hp) (by rw [hmode]; rfl) _)⟩
  · have hmode := mode_eq_idle.2 hp
    exact congrArg Host.Outcome.next (accept_refused (.inl hp) (by rw [hmode]; rfl) _)

/-- Settles O59: the bus encoding, request by request. -/
theorem requestFields : Obligations.RequestFields := by
  intro p c n v exit row hrow
  simp only [List.mem_cons, List.not_mem_nil, or_false] at hrow
  rcases hrow with rfl | rfl | rfl | rfl | rfl | rfl | rfl | rfl | rfl <;> exact ⟨rfl, rfl, rfl, rfl⟩
end

section
/-! SUPPORT. The measure of a running command (`State.workLeft`, 40_discovery.md R144, 41_addressed_access.md R174): it is
bounded by the parameters, and the effect of every phase makes it smaller. -/
namespace Sys2Proof.Machine

variable {s t : State} {resp : TapResp}

/-! ### The measure of one state -/

/-- The longest probe has room for every cursor: `MAX_DEVS` devices of the longest IR and the filler. -/
theorem probe_room {p : Params} (m : Nat) :
    (p.maxDevs - m) * (p.maxIrLen + 1) + (p.maxIrLen + 1) ≤ (p.maxDevs + 1) * (p.maxIrLen + 1) := by
  rw [Nat.succ_mul]
  exact Nat.add_le_add_right (Nat.mul_le_mul_right _ (Nat.sub_le ..)) _

theorem devs_le_probe (p : Params) : p.maxDevs + 1 ≤ (p.maxDevs + 1) * (p.maxIrLen + 1) :=
  Nat.le_mul_of_pos_right _ (Nat.succ_pos _)

theorem workLeft_pos (h : ¬ s.Accepting) : 1 ≤ s.workLeft := by
  unfold State.workLeft tailWork
  cases hp : s.phase
  case idle => exact absurd (.inl hp) h
  case hookWait => exact absurd (.inr hp) h
  all_goals dsimp only; omega

theorem workLeft_le (hI : s.PhaseInv) :
    s.workLeft ≤ (s.params.maxDevs + 1) * (s.params.maxIrLen + 1) + 3 * s.params.maxDevs + 24 := by
  have hdevs := devs_le_probe s.params
  unfold State.PhaseInv at hI
  unfold State.workLeft tailWork
  cases hp : s.phase <;> simp only [hp] at hI ⊢
  case irProbe =>
    have hroom := probe_room (p := s.params) s.dev.toNat
    omega
  case drCount =>
    obtain ⟨-, -, -, hcnt, -⟩ := hI
    omega
  case scClassify =>
    obtain ⟨hT, -, hcnt, -⟩ := hI
    have hle := hT.count_le
    omega
  all_goals omega

/-! ### The measure after a phase -/

/-- The next turn of the hinted loop, and either of its ends, has no more work than an IR_HINT at its cursor. -/
theorem enterHint_workLeft (u : State) :
    u.enterHint.workLeft ≤ tailWork u.params + (u.params.maxDevs - u.k.toNat) := by
  unfold State.enterHint
  cases u.hintEntry with
  | stop => exact Nat.le_add_right_of_le (show 2 * u.params.maxDevs + 10 ≤ 2 * u.params.maxDevs + 12 by omega)
  | range => exact Nat.le_add_right_of_le (show 3 ≤ 2 * u.params.maxDevs + 12 by omega)
  | unwritten => exact le_rfl
  | length h => exact le_rfl

theorem afterWiVal_workLeft : (s.goto s.afterWiVal).workLeft ≤ 2 := by
  unfold State.afterWiVal
  split
  · exact Nat.le_succ 1
  · exact le_rfl

theorem afterWiPre_workLeft : (s.goto s.afterWiPre).workLeft ≤ 3 := by
  unfold State.afterWiPre
  split
  · exact afterWiVal_workLeft.trans (Nat.le_succ 2)
  · exact le_rfl

theorem afterWiEnter_workLeft : (s.goto s.afterWiEnter).workLeft ≤ 4 := by
  unfold State.afterWiEnter
  split
  · exact afterWiPre_workLeft.trans (Nat.le_succ 3)
  · exact le_rfl

theorem afterSdData_workLeft : (s.goto s.afterSdData).workLeft ≤ 2 := by
  unfold State.afterSdData
  split
  · exact Nat.le_succ 1
  · exact le_rfl

theorem afterSdPre_workLeft : (s.goto s.afterSdPre).workLeft ≤ 3 := by
  unfold State.afterSdPre
  split
  · exact afterSdData_workLeft.trans (Nat.le_succ 2)
  · exact le_rfl

theorem afterSdEnter_workLeft : (s.goto s.afterSdEnter).workLeft ≤ 4 := by
  unfold State.afterSdEnter
  split
  · exact afterSdPre_workLeft.trans (Nat.le_succ 3)
  · exact le_rfl

theorem complete_workLeft (r : Word) : (s.complete r).workLeft = 0 := by
  unfold State.workLeft
  obtain hp | hp := home_eq s <;> rw [complete_phase, hp]

/-- Every failure but INIT's has three steps to go. -/
theorem fail_workLeft (code : ErrCode) : (s.fail code).workLeft ≤ 3 := by
  by_cases hc : code = .tapInitFail
  · subst hc
    exact Nat.le_add_left 1 2
  · have hp : (s.fail code).phase = .failExit := if_neg hc
    unfold State.workLeft
    rw [hp]

/-! ### The loops -/

theorem idShift_workLeft (hS : s.Shape) (hI : s.PhaseInv) (hp : s.phase = .idShift) :
    (s.phaseIdShift resp).workLeft < s.workLeft := by
  have hwork : s.workLeft = tailWork s.params + (s.params.maxDevs + 1) * (s.params.maxIrLen + 1) +
      (s.params.maxDevs - s.n.toNat) + 8 := by unfold State.workLeft; rw [hp]
  have hle := hS.legal.devs_le
  unfold State.phaseIdShift
  split
  · have hend : (s.goto .idExit).workLeft = tailWork s.params + (s.params.maxDevs + 1) * (s.params.maxIrLen + 1) + 6 := rfl
    omega
  split
  · have hfail := fail_workLeft (s := s.recordIdcode (resp.tdo.setWidth 32)) .chainOverrun
    omega
  · unfold State.PhaseInv at hI
    rw [hp] at hI
    obtain ⟨-, -, -, hn⟩ := hI
    have hn1 : (s.n + 1#9).toNat = s.n.toNat + 1 := toNat_succ9 (by omega)
    have hnext : (s.recordIdcode (resp.tdo.setWidth 32)).workLeft = tailWork s.params +
        (s.params.maxDevs + 1) * (s.params.maxIrLen + 1) + (s.params.maxDevs - (s.n + 1#9).toNat) + 8 := by
      unfold State.workLeft; rw [recordIdcode_phase, hp]; rfl
    omega

theorem irHint_workLeft (hS : s.Shape) (hI : s.PhaseInv) (hp : s.phase = .irHint) (h : s.phaseIrHint resp = .next t) :
    t.workLeft < s.workLeft := by
  have hwork : s.workLeft = tailWork s.params + (s.params.maxDevs - s.k.toNat) := by unfold State.workLeft; rw [hp]
  unfold State.PhaseInv at hI
  rw [hp] at hI
  obtain ⟨-, -, -, hk, -⟩ := hI
  have hend : ∀ e, s.hintEntry = e → e = .stop ∨ e = .range → s.enterHint.workLeft ≤ 2 * s.params.maxDevs + 10 := by
    rintro _ he (rfl | rfl) <;> unfold State.enterHint <;> rw [he]
    · exact le_rfl
    · exact (fail_workLeft _).trans (by omega)
  unfold State.phaseIrHint at h
  unfold tailWork at hwork
  split at h <;> cases h
  next len _ =>
    have hle := hS.legal.devs_le
    have hk1 : (s.k + 1#9).toNat = s.k.toNat + 1 := toNat_succ9 (by omega)
    have hnext := enterHint_workLeft (s.recordHint len resp)
    rw [recordHint_params, recordHint_k, hk1] at hnext
    unfold tailWork at hnext
    omega
  next he => have := hend _ he (.inl rfl); omega
  next he => have := hend _ he (.inr rfl); omega

theorem irProbe_workLeft (hS : s.Shape) (hI : s.PhaseInv) (hp : s.phase = .irProbe) :
    (s.phaseIrProbe resp).workLeft < s.workLeft := by
  unfold State.PhaseInv at hI
  rw [hp] at hI
  obtain ⟨-, -, -, hdev, -, hlen, -⟩ := hI
  have hwork : s.workLeft = 2 * s.params.maxDevs + 12 + (s.params.maxDevs - s.dev.toNat) * (s.params.maxIrLen + 1) +
      (s.params.maxIrLen - s.len.toNat) := by unfold State.workLeft; rw [hp]; rfl
  have hlimit := hS.legal.devs_le
  have hlimit' := hS.legal.irLen_le
  unfold State.phaseIrProbe
  split
  · split
    · have hend : (s.endIr s.dev).workLeft = 2 * s.params.maxDevs + 10 := rfl
      omega
    split
    · have hfail := fail_workLeft (s := s.recordProbe) .devOverrun
      omega
    · have hdev1 : (s.dev + 1#9).toNat = s.dev.toNat + 1 := toNat_succ9 (by omega)
      have hnext : s.recordProbe.workLeft = 2 * s.params.maxDevs + 12 +
          (s.params.maxDevs - (s.dev + 1#9).toNat) * (s.params.maxIrLen + 1) + (s.params.maxIrLen - 1) := by
        unfold State.workLeft; rw [recordProbe_phase, hp]; rfl
      have hone : s.params.maxDevs - s.dev.toNat = s.params.maxDevs - (s.dev + 1#9).toNat + 1 := by omega
      rw [hone, Nat.succ_mul (s.params.maxDevs - (s.dev + 1#9).toNat)] at hwork
      omega
  · split
    · have hfail := fail_workLeft (s := s.countIrBit) .irOverrun
      omega
    · have hlen1 : (s.len + 1#8).toNat = s.len.toNat + 1 := by rw [BitVec.toNat_add]; simp; omega
      have hnext : s.countIrBit.workLeft = 2 * s.params.maxDevs + 12 +
          (s.params.maxDevs - s.dev.toNat) * (s.params.maxIrLen + 1) + (s.params.maxIrLen - (s.len + 1#8).toNat) := by
        unfold State.workLeft; rw [countIrBit_phase, hp]; rfl
      omega

theorem drCount_workLeft (hS : s.Shape) (hI : s.PhaseInv) (hp : s.phase = .drCount) :
    (s.phaseDrCount resp).workLeft < s.workLeft := by
  unfold State.PhaseInv at hI
  rw [hp] at hI
  obtain ⟨-, -, -, hcnt, -, hi, -⟩ := hI
  have hwork : s.workLeft = s.params.maxDevs + (s.cnt.toNat - s.i.toNat) + 7 := by unfold State.workLeft; rw [hp]
  have hle := hS.legal.devs_le
  have hfail := fail_workLeft (s := s) .countMismatch
  unfold State.phaseDrCount
  split
  · split
    · have hend : (s.goto .drExit).workLeft = s.params.maxDevs + 5 := rfl
      omega
    · omega
  · split
    · omega
    · next hne =>
      have hlt : s.i.toNat ≠ s.cnt.toNat := fun he => hne (BitVec.eq_of_toNat_eq he)
      have hi1 : (s.i + 1#9).toNat = s.i.toNat + 1 := toNat_succ9 (by omega)
      have hnext : s.recordDr.workLeft = s.params.maxDevs + (s.cnt.toNat - (s.i + 1#9).toNat) + 7 := by
        unfold State.workLeft; rw [recordDr_phase, hp]; rfl
      omega

theorem scPost_workLeft (hI : s.PhaseInv) (hp : s.phase = .scPost) : s.phaseScPost.workLeft < s.workLeft := by
  unfold State.PhaseInv at hI
  rw [hp] at hI
  obtain ⟨-, -, -, hcnt, -⟩ := hI
  have hwork : s.workLeft = s.params.maxDevs + 3 := by unfold State.workLeft; rw [hp]
  unfold State.phaseScPost
  split
  · have hend : s.recordPostscan.completeScan.workLeft = 0 := rfl
    omega
  · have hnext : (s.recordPostscan.goto .scClassify).workLeft = s.cnt.toNat - 0 + 1 := rfl
    omega

theorem scClassify_workLeft (hI : s.PhaseInv) (hp : s.phase = .scClassify) :
    s.phaseScClassify.workLeft < s.workLeft := by
  unfold State.PhaseInv at hI
  rw [hp] at hI
  obtain ⟨-, -, hcount, -⟩ := hI
  have hcnt := s.deviceCount.isLt
  have hwork : s.workLeft = s.cnt.toNat - s.j.toNat + 1 := by unfold State.workLeft; rw [hp]
  have hend : ∀ u : State, u.completeScan.workLeft = 0 := fun _ => rfl
  unfold State.phaseScClassify
  split
  · rw [hend]; omega
  split
  · next d _ =>
    have hhook : (s.invokeHook d).workLeft = 0 := rfl
    omega
  · split
    · rw [hend]; omega
    · have hj1 : (s.j + 1#9).toNat = s.j.toNat + 1 := toNat_succ9 (by omega)
      have hnext : s.nextDevice.workLeft = s.cnt.toNat - (s.j + 1#9).toNat + 1 := by
        unfold State.workLeft; rw [nextDevice_phase, hp]; rfl
      omega

/-! ### Every phase, and every move that advances the command -/

/-- The effect of a phase of a running command makes the work left smaller. -/
theorem phase_workLeft (hS : s.Shape) (hI : s.PhaseInv) (hA : ¬ s.Accepting) (h : s.phaseStep resp = .next t) :
    t.workLeft < s.workLeft := by
  have hgoto : ∀ {p : Phase} {n : Nat}, (s.goto p).workLeft ≤ n → s.workLeft = n + 1 → (s.goto p).workLeft < s.workLeft :=
    fun hle he => he ▸ Nat.lt_succ_of_le hle
  have hdevs := devs_le_probe s.params
  cases hp : s.phase <;> simp only [State.phaseStep, hp, Host.Outcome.next.injEq] at h <;> (try subst h)
  case idle => exact absurd (.inl hp) hA
  case hookWait => exact absurd (.inr hp) hA
  case scClear => unfold State.phaseScClear; split <;> simp [State.workLeft, hp]
  case scInit =>
    unfold State.phaseScInit
    split
    · simp [State.workLeft, hp]
    split
    · simp [State.workLeft, hp]
    · exact (fail_workLeft _).trans_lt (by simp [State.workLeft, hp])
  case idShift => exact idShift_workLeft hS hI hp
  case irEnter =>
    unfold State.phaseIrEnter
    split
    · have hnext := enterHint_workLeft s.startHints
      rw [startHints_params] at hnext
      simp only [State.workLeft, hp] at hnext ⊢
      omega
    · simp [State.workLeft, hp]
  case irHint => exact irHint_workLeft hS hI hp h
  case irProbe => exact irProbe_workLeft hS hI hp
  case drCount => exact drCount_workLeft hS hI hp
  case scPost => exact scPost_workLeft hI hp
  case scClassify => exact scClassify_workLeft hI hp
  case wiEnter => exact hgoto afterWiEnter_workLeft (by unfold State.workLeft; rw [hp])
  case wiPre => exact hgoto afterWiPre_workLeft (by unfold State.workLeft; rw [hp])
  case wiVal => exact hgoto afterWiVal_workLeft (by unfold State.workLeft; rw [hp])
  case wiIdle | sdIdle => exact (complete_workLeft _).trans_lt (workLeft_pos hA)
  case sdEnter => exact hgoto afterSdEnter_workLeft (by unfold State.workLeft; rw [hp])
  case sdPre => exact hgoto afterSdPre_workLeft (by unfold State.workLeft; rw [hp])
  case sdData =>
    unfold State.phaseSdData at h
    split at h <;> cases h
    exact (afterSdData_workLeft (s := s.captureDout resp)).trans_lt (by simp [State.workLeft, hp])
  case drEnter =>
    unfold State.PhaseInv at hI
    rw [hp] at hI
    obtain ⟨-, -, -, hcnt, -⟩ := hI
    simp only [State.workLeft, hp, State.phaseDrEnter, BitVec.toNat_ofNat]
    omega
  case irFirst =>
    have hroom := probe_room (p := s.params) 0
    simp only [State.workLeft, hp, State.phaseIrFirst, BitVec.toNat_ofNat, Nat.zero_mod]
    omega
  all_goals
    simp only [State.workLeft, hp, State.phaseScReset, State.phaseIdEnter, State.phaseIdExit, State.phaseIdIdle,
      State.phaseIrExit, State.phaseIrIdle, State.phaseDrExit, State.phaseDrIdle, State.phaseFailExit,
      State.phaseFailIdle, State.phaseFailClear, State.phaseWiPost, State.phaseSdPost, goto_phase, goto_params]
    omega

/-- A completed request of a running command makes the work left smaller. -/
theorem completed_workLeft {q : TapReq} (hS : s.Shape) (hI : s.PhaseInv) (hA : ¬ s.Accepting)
    (h : (s.completeRequest q).phaseStep resp = .next t) : t.workLeft < s.workLeft :=
  phase_workLeft (s := s.completeRequest q) { hS with } (completeRequest_phaseInv q hI) hA h

/-- A step whose move is the driver's, with the request outstanding that it completes. -/
theorem step_head_tap {q : TapReq} {r : TapResp} (hq : s.tapRequest = some q) (he : s.env.head? = some (.tap r)) :
    step s = ((s.withEnv s.env.tail).completeRequest q).phaseStep (q.received s.params r) := by
  have henv : s.env = .tap r :: s.env.tail := (List.cons_head?_tail he).symm
  have hs : s = s.withEnv (.tap r :: s.env.tail) := by rw [← henv, withEnv_self]
  conv_lhs => rw [hs]
  exact step_tap r hq

end Sys2Proof.Machine

open Sys2Proof Sys2Proof.Machine

/-- Settles O49: the bounds are `workLeft_le` and `workLeft_pos`, and both kinds of step run the effect of one phase
(`phase_workLeft`). -/
theorem runningCommandsAreBounded : Obligations.RunningCommandsAreBounded := by
  intro s hI hA
  refine ⟨workLeft_le hI.phase, workLeft_pos hA, fun t ht hmove => ?_⟩
  have hI' := hI.withEnv s.env.tail
  obtain ⟨hq, r, he⟩ | ⟨hq, hturn⟩ := hmove
  · obtain ⟨q, hq⟩ := Option.ne_none_iff_exists'.1 hq
    rw [step_head_tap hq he] at ht
    exact completed_workLeft (s := s.withEnv s.env.tail) hI'.shape hI'.phase hA ht
  · rw [step_core hq hturn] at ht
    exact phase_workLeft (s := s.withEnv s.env.tail) hI'.shape hI'.phase hA ht
end

section
/-! SUPPORT. The commands that start something (40_discovery.md R111, R112, R142), the offsets of the live devices as the
invariant holds them (R134 to R137), and the internal phases of the discovery FSM, one step each (R114, R136, R138). -/
namespace Sys2Proof.Machine

variable {s t : State}

/-! ### The offsets of the live devices -/

/-- The sum of lengths is the sum over the first records of the table. -/
theorem lengthSum_eq (l : List DevRec) (m : Nat) :
    lengthSum l m = ((l.take m).map fun r => r.irLength.toNat).sum := by
  induction m with
  | zero => rfl
  | succ m ih =>
    rw [lengthSum, ih, List.take_add_one, List.map_append, List.sum_append, List.getD_eq_getElem?_getD]
    cases l[m]? <;> simp [DevRec.zero]

/-- Outside the postscan stage and the failure phases the table is final: it is one a scan has finished, or it is under
construction and has no live device (10_state.md R24). -/
theorem tableFinal_of_phase (hI : s.PhaseInv) (h : s.phase ≠ .scPost) (h1 : s.phase ≠ .failExit) (h2 : s.phase ≠ .failIdle)
    (h3 : s.phase ≠ .failClear) : s.TableFinal := by
  have hbuild : s.Building → s.TableFinal := fun hb => tableFinal_clear hb.none_live hb.sentinel
  unfold State.PhaseInv at hI
  cases hp : s.phase <;> rw [hp] at hI
  case idle | hookWait | scClear | scClassify => exact hI.1
  case scPost => exact absurd hp h
  case failExit => exact absurd hp h1
  case failIdle => exact absurd hp h2
  case failClear => exact absurd hp h3
  case wiEnter | wiPre | wiVal | wiIdle => exact hI.table
  case wiPost => exact hI.1.table
  case sdEnter | sdPre | sdData | sdIdle => exact hI.addressing.table
  case sdPost => exact hI.1.addressing.table
  all_goals exact hbuild hI.1

/-- In every phase the live records hold their lengths, prescans and DR offsets; in the failure phases there are none. -/
theorem live_offsets (hI : s.PhaseInv) :
    s.IrDone s.deviceCount.toNat ∧ s.DrDone s.deviceCount.toNat s.deviceCount.toNat := by
  have hnone : s.deviceCount = 0#8 → s.IrDone s.deviceCount.toNat ∧ s.DrDone s.deviceCount.toNat s.deviceCount.toNat := by
    intro hc
    rw [hc]
    exact ⟨fun a ha => absurd ha (Nat.not_lt_zero a), fun a ha => absurd ha (Nat.not_lt_zero a)⟩
  by_cases hpost : s.phase = .scPost
  · unfold State.PhaseInv at hI
    rw [hpost] at hI
    obtain ⟨-, -, -, -, hc, hir, hdr⟩ := hI
    rw [hc]
    exact ⟨hir, hdr⟩
  by_cases hfail : s.phase = .failExit ∨ s.phase = .failIdle ∨ s.phase = .failClear
  · unfold State.PhaseInv at hI
    obtain hp | hp | hp := hfail <;> rw [hp] at hI <;> exact hnone hI.1
  · obtain ⟨h1, h2, h3⟩ : s.phase ≠ .failExit ∧ s.phase ≠ .failIdle ∧ s.phase ≠ .failClear := by
      simpa only [not_or] using hfail
    have hT := tableFinal_of_phase hI hpost h1 h2 h3
    exact ⟨hT.ir, hT.dr⟩

/-- Prescan, length and postscan of a live device make up the whole chain's IR (40_discovery.md R137). -/
theorem State.TableFinal.offset_sum (h : s.TableFinal) {a : Nat} (ha : a < s.deviceCount.toNat) :
    (s.slot a).irPrescan.toNat + (s.slot a).irLength.toNat + (s.slot a).irPostscan.toNat =
      s.irSum s.deviceCount.toNat := by
  obtain ⟨-, -, hpre⟩ := h.ir a ha
  have hpost := h.post a ha
  rw [irSum_succ] at hpost
  omega

/-! ### The core's turn in the internal phases -/

/-- The core's turn in SC_CLEAR (40_discovery.md R114). -/
theorem step_scClear (hp : s.phase = .scClear) (ht : s.CoreTurn) :
    step s = .next (s.withEnv s.env.tail).phaseScClear := by
  rw [step_core (by unfold State.tapRequest; rw [hp]) ht]
  simp only [State.phaseStep, withEnv_phase, hp]

/-- The core's turn in SC_POST (40_discovery.md R136). -/
theorem step_scPost (hp : s.phase = .scPost) (ht : s.CoreTurn) :
    step s = .next (s.withEnv s.env.tail).phaseScPost := by
  rw [step_core (by unfold State.tapRequest; rw [hp]) ht]
  simp only [State.phaseStep, withEnv_phase, hp]

/-- The core's turn in SC_CLASSIFY (40_discovery.md R138). -/
theorem step_scClassify (hp : s.phase = .scClassify) (ht : s.CoreTurn) :
    step s = .next (s.withEnv s.env.tail).phaseScClassify := by
  rw [step_core (by unfold State.tapRequest; rw [hp]) ht]
  simp only [State.phaseStep, withEnv_phase, hp]

/-- SC_CLASSIFY on a device that a descriptor matches (40_discovery.md R139). -/
theorem phaseScClassify_match {d : Nat} (hj : s.j.toNat < s.cnt.toNat)
    (hd : matchDescriptor s.params.descTable (s.slot s.j.toNat).idcode = some d) : s.phaseScClassify = s.invokeHook d := by
  unfold State.phaseScClassify
  rw [if_neg (by omega), hd]

/-- SC_CLASSIFY on a device that no descriptor matches (40_discovery.md R138, R141). -/
theorem phaseScClassify_none (hj : s.j.toNat < s.cnt.toNat) (hc : s.cnt.toNat ≤ 255)
    (hd : matchDescriptor s.params.descTable (s.slot s.j.toNat).idcode = none) :
    s.phaseScClassify = if s.j.toNat + 1 = s.cnt.toNat then s.nextDevice.completeScan else s.nextDevice := by
  have hlast : s.cnt.toNat ≤ (s.j + 1#9).toNat ↔ s.j.toNat + 1 = s.cnt.toNat := by
    rw [toNat_succ9 (by omega)]
    omega
  unfold State.phaseScClassify
  rw [if_neg (by omega), hd]
  simp only [hlast]

/-- SC_CLASSIFY past the last device (40_discovery.md R142). -/
theorem phaseScClassify_past (hj : s.cnt.toNat ≤ s.j.toNat) : s.phaseScClassify = s.completeScan := if_pos hj

/-- The postscan of a live device before the backfill's tail and at it (40_discovery.md R136). -/
theorem recordPostscan_post (hlen : s.cnt.toNat ≤ s.table.length) (hsum : s.irSum s.cnt.toNat < 65536)
    (hzero : ∀ a, (s.slot a).irPostscan = 0#16) {a : Nat} (ha : a < s.cnt.toNat) :
    (s.recordPostscan.slot a).irPostscan.toNat + s.irSum (a + 1) = s.irSum s.cnt.toNat := by
  have hlast : s.cnt.toNat - 1 + 1 = s.cnt.toNat := by omega
  refine backfill_post s.table (s.cnt.toNat - 1) _ (by omega) ?_ hsum ?_ a (by omega)
  · rw [hlast]; exact le_rfl
  · rw [show (s.table.getD (s.cnt.toNat - 1) DevRec.zero).irPostscan = 0#16 from hzero _, hlast]
    exact Nat.zero_add _

/-- The backfill writes postscans alone, and none from the tail on. -/
theorem recordPostscan_other (a : Nat) :
    s.recordPostscan.slot a = { s.slot a with irPostscan := (s.recordPostscan.slot a).irPostscan } ∧
      (s.cnt.toNat ≤ a → s.recordPostscan.slot a = s.slot a) := by
  obtain ⟨p, hp, hq⟩ := backfill_other s.table (s.cnt.toNat - 1) a
  have hslot : s.recordPostscan.slot a = { s.slot a with irPostscan := p } := hp
  refine ⟨by rw [hslot], fun ha => ?_⟩
  rw [hslot, hq (by omega)]
  rfl

/-- SC_POST's step leaves the table to the backfill, and goes on to the classification or completes the scan. -/
theorem phaseScPost_eq : s.phaseScPost = if s.cnt = 0#9
    then { s with j := 0#9, result := 0#32, err := .none, phase := .idle }
    else { s with table := s.recordPostscan.table, j := 0#9, phase := .scClassify } := by
  unfold State.phaseScPost
  split
  · next h0 =>
    have htab : backfill s.table (s.cnt.toNat - 1) = s.table := by rw [h0]; rfl
    unfold State.recordPostscan State.completeScan
    rw [htab, h0]
    rfl
  · rfl

end Sys2Proof.Machine

open Sys2Proof Sys2Proof.Machine

/-- Settles O40: the invariant holds them in every phase (`live_offsets`). -/
theorem liveOffsets : Obligations.LiveOffsets := by
  intro s hI i hi
  obtain ⟨hir, hdr⟩ := live_offsets hI.phase
  obtain ⟨-, -, hpre⟩ := hir i hi
  obtain ⟨hdrpre, hdrpost⟩ := hdr i hi
  refine ⟨hdrpre, hdrpost, hpre.trans (lengthSum_eq ..), fun h0 => BitVec.eq_of_toNat_eq ?_⟩
  subst h0
  exact hpre

/-- Settles O41: in these phases the table is final (`tableFinal_of_phase`), and the sum is `TableFinal.offset_sum`. -/
theorem offsetIdentity : Obligations.OffsetIdentity := by
  intro s hI hpost h1 h2 h3
  have hT := tableFinal_of_phase hI.phase hpost h1 h2 h3
  refine ⟨hT.count_le, hT.sentinel, fun i hi => ?_⟩
  obtain ⟨hpos, hle, -⟩ := hT.ir i hi
  exact ⟨hpos, hle, (hT.offset_sum hi).trans (lengthSum_eq ..)⟩

/-- Settles O20: each outcome of an acceptance step (`exec_cases`) writes those fields alone, and only the end of a hook
writes the hook registers and the cursor. -/
theorem startingCommandFrame : Obligations.StartingCommandFrame := by
  intro s t i hi h
  obtain ⟨u, hu, ha⟩ := exec_cases i s
  cases hu.symm.trans h
  cases ha with
  | hookDone _ hd => exact ⟨rfl, absurd hd, fun _ => ⟨rfl, rfl, rfl⟩⟩
  | writeIr _ idx hw _ =>
    subst hw
    rcases hi with hi | hi | hi | ⟨_, _, _, hi⟩ <;> cases hi
  | _ => exact ⟨rfl, fun _ => ⟨rfl, rfl, rfl, rfl⟩, fun _ => ⟨rfl, rfl, rfl⟩⟩

/-- Settles O12: IDLE allows both, and what acceptance latches goes to SC_CLEAR (`started_eq`). -/
theorem scansStart : Obligations.ScansStart := by
  intro s hp
  have hmode := mode_eq_idle.2 hp
  have hbusy := mode_ne_busy.2 (.inl hp)
  exact ⟨congrArg Host.Outcome.next ((accept_run hbusy (by rw [hmode]; rfl) _).trans (started_eq ..)),
    congrArg Host.Outcome.next ((accept_run hbusy (by rw [hmode]; rfl) _).trans (started_eq ..))⟩

/-- Settles O13: HOOK_WAIT allows it, and the hook ends on what acceptance latches. -/
theorem hookDoneResumes : Obligations.HookDoneResumes := by
  intro s hp
  have hmode := mode_eq_hook.2 hp
  have hrun := accept_run (mode_ne_busy.2 (.inr hp)) (c := .hookDone) (by rw [hmode]; rfl) State.endHook
  refine congrArg Host.Outcome.next (hrun.trans ?_)
  rw [← started_eq]
  rfl

/-- Settles O22: the step is `State.phaseScClear`. -/
theorem clearStageClears : Obligations.ClearStageClears := by
  intro s hp ht
  exact ⟨_, step_scClear hp ht, fun a => slot_clearTable ((s.withEnv s.env.tail).emit .downstreamRelease) a,
    List.length_replicate, rfl⟩

/-- Settles O29: `recordPostscan_post` and `recordPostscan_other` for the records, `phaseScPost_eq` for the rest. -/
theorem postscanBackfill : Obligations.PostscanBackfill := by
  intro s hp ht hlen hsum hzero
  have htab : (s.withEnv s.env.tail).phaseScPost.table = s.recordPostscan.table := by
    unfold State.phaseScPost
    split <;> rfl
  refine ⟨_, step_scPost hp ht, fun a ha => ?_, fun a => ?_, fun a ha => ?_, ?_⟩
  · have hpost := recordPostscan_post hlen hsum hzero ha
    rw [slot_congr htab]
    omega
  · rw [slot_congr htab]
    exact (recordPostscan_other a).1
  · rw [slot_congr htab]
    exact (recordPostscan_other a).2 ha
  · rw [htab, phaseScPost_eq]
    rfl

/-- Settles O30: the step is `State.phaseScClassify`, which finds the lowest match (`match_lowest`) or none (`match_none`). -/
theorem classifyOneDevice : Obligations.ClassifyOneDevice := by
  refine ⟨fun s hp ht hL hj hcnt hlen => ⟨fun d hd hm hlow => ?_, fun hnone => ?_⟩, fun s hp ht hj => ?_⟩
  · have hmatch := match_lowest _ _ d hd hm hlow
    have hstep := (step_scClassify hp ht).trans
      (congrArg Host.Outcome.next (phaseScClassify_match (s := s.withEnv s.env.tail) hj hmatch))
    refine ⟨_, hstep, rfl, fun a => ?_⟩
    have hslot : (s.j.toNat = a ∧ a < s.table.length) ↔ a = s.j.toNat := by omega
    rw [slot_invokeHook, withEnv_j, withEnv_table, slot_withEnv]
    simp only [hslot]
  · have hlimit := hL.devs_le
    rw [step_scClassify hp ht,
      phaseScClassify_none (s := s.withEnv s.env.tail) hj (by show s.cnt.toNat ≤ 255; omega) (match_none _ _ hnone)]
    rw [apply_ite Host.Outcome.next, apply_ite Host.Outcome.next]
    rfl
  · rw [step_scClassify hp ht, phaseScClassify_past (s := s.withEnv s.env.tail) hj]
    rfl
end

section
/-! SUPPORT. Runs: what a list of moves makes of a state, one step each, whatever moves come after them. The statements about
stages of a scan are put together from these. -/
namespace Sys2Proof.Machine

variable {s t u : State} {r : TapResp} {m : Move} {ms ms' : List Move} {q : TapReq}

/-! ### One move -/

/-- Finding the next turn of the hinted loop looks at no move to come. -/
theorem enterHint_withEnv (e : List Move) : (s.withEnv e).enterHint = s.enterHint.withEnv e := by
  unfold State.enterHint
  rw [show (s.withEnv e).hintEntry = s.hintEntry from rfl]
  cases s.hintEntry <;> rfl

/-- The effect of a phase does not depend on the moves to come, and leaves them. -/
theorem phaseStep_withEnv (e : List Move) (h : s.phaseStep r = .next t) :
    (s.withEnv e).phaseStep r = .next (t.withEnv e) := by
  unfold State.phaseStep at h ⊢
  rw [withEnv_phase]
  cases hp : s.phase <;> rw [hp] at h <;> simp only [Host.Outcome.next.injEq] at h ⊢ <;> (try subst h)
  case scInit | idShift | irProbe | drCount | scPost =>
    simp only [State.phaseScInit, State.phaseIdShift, State.phaseIrProbe, State.phaseDrCount, State.phaseScPost,
      apply_ite (State.withEnv · e)]
    rfl
  case irEnter =>
    simp only [State.phaseIrEnter, apply_ite (State.withEnv · e), ← enterHint_withEnv]
    rfl
  case irHint =>
    unfold State.phaseIrHint at h ⊢
    rw [show (s.withEnv e).hintEntry = s.hintEntry from rfl]
    split at h <;> cases h
    · rw [← enterHint_withEnv]; rfl
    · rw [← enterHint_withEnv]
    · rw [← enterHint_withEnv]
  case scClassify =>
    unfold State.phaseScClassify
    rw [withEnv_cnt, withEnv_j, withEnv_params, slot_withEnv]
    split
    · rfl
    split
    · rfl
    split <;> rfl
  case sdData =>
    unfold State.phaseSdData at h ⊢
    rw [show (s.withEnv e).dinVector = s.dinVector from rfl]
    split at h <;> cases h
    rfl
  all_goals rfl

/-- Move `m` takes `s` to `t` in one step, whatever moves come after it (20_memory.md R69). -/
def Takes (s : State) (m : Move) (t : State) : Prop :=
  ∀ rest, step (s.withEnv (m :: rest)) = .next (t.withEnv rest)

/-- The driver completes the request outstanding, and the phase goes on from what it drew (60_exceptions.md R202 (b)). -/
theorem takes_tap (q : TapReq) (hq : s.tapRequest = some q) (hn : s.phase ≠ .sdData)
    (h : (s.completeRequest q).phaseStep r = .next t) : Takes s (.tap r) t := fun rest =>
  (step_draw r hq fun hp => absurd hp hn).trans (phaseStep_withEnv rest h)

/-- The core runs an internal phase (60_exceptions.md R202 (c)). -/
theorem takes_core (hq : s.tapRequest = none) (h : s.phaseStep TapResp.silent = .next t) : Takes s .core t := by
  intro rest
  have hstep := step_core (s := s.withEnv (.core :: rest)) hq (.inr rfl)
  exact hstep.trans (phaseStep_withEnv (s := s) rest h)

/-! ### Several moves -/

/-- The moves take `s` to `t`, one step each. -/
inductive Runs : State → List Move → State → Prop where
  | nil {s : State} : Runs s [] s
  | cons {s t u : State} {m : Move} {ms : List Move} (h : Takes s m t) (hs : Runs t ms u) : Runs s (m :: ms) u

theorem Takes.runs (h : Takes s m t) : Runs s [m] t := .cons h .nil

theorem Runs.append (h : Runs s ms t) (h' : Runs t ms' u) : Runs s (ms ++ ms') u := by
  induction h with
  | nil => exact h'
  | cons hm _ ih => exact .cons hm (ih h')

/-- The machine's run over the moves, and where it stands then. -/
theorem Runs.runSteps (h : Runs s ms t) (rest : List Move) :
    runSteps ms.length (s.withEnv (ms ++ rest)) = .next (t.withEnv rest) := by
  induction h with
  | nil => rfl
  | cons hm _ ih => exact (runSteps_succ (hm _)).trans ih

/-- A loop: if each turn keeps `P`, counting up, the turns together take a state with `P 0` to one with `P` at their number. -/
theorem runs_loop {α : Type} (P : Nat → State → Prop) (xs : List α) (turn : α → List Move)
    (h : ∀ (i : Nat) (hi : i < xs.length) (u : State), P i u → ∃ v, Runs u (turn xs[i]) v ∧ P (i + 1) v) (h0 : P 0 s) :
    ∃ t, Runs s (xs.flatMap turn) t ∧ P xs.length t := by
  have hprefix : ∀ n, n ≤ xs.length → ∃ t, Runs s ((xs.take n).flatMap turn) t ∧ P n t := by
    intro n
    induction n with
    | zero => exact fun _ => ⟨s, .nil, h0⟩
    | succ n ih =>
      intro hn
      obtain ⟨u, hrun, hP⟩ := ih (by omega)
      obtain ⟨v, hturn, hP'⟩ := h n hn u hP
      refine ⟨v, ?_, hP'⟩
      rw [List.take_succ_eq_append_getElem hn, List.flatMap_append, List.flatMap_singleton]
      exact hrun.append hturn
  have hall := hprefix xs.length le_rfl
  rwa [List.take_length] at hall

/-- A loop with one capture each turn. -/
theorem runs_loop_tap (P : Nat → State → Prop) (rs : List TapResp)
    (h : ∀ (i : Nat) (hi : i < rs.length) (u : State), P i u → ∃ v, Takes u (.tap rs[i]) v ∧ P (i + 1) v) (h0 : P 0 s) :
    ∃ t, Runs s (rs.map .tap) t ∧ P rs.length t := by
  rw [List.map_eq_flatMap]
  refine runs_loop P rs _ (fun i hi u hP => ?_) h0
  obtain ⟨v, hv, hP'⟩ := h i hi u hP
  exact ⟨v, hv.runs, hP'⟩

/-! ### Records written one after another -/

/-- `f` has rewritten the first `m` records of `s`; the others are as they were. -/
structure Recorded (s : State) (f : Nat → DevRec → DevRec) (m : Nat) (t : State) : Prop where
  length : t.table.length = s.table.length
  slot : ∀ a, t.slot a = if a < m then f a (s.slot a) else s.slot a

theorem Recorded.zero (f : Nat → DevRec → DevRec) (h : t.table = s.table) : Recorded s f 0 t :=
  ⟨congrArg List.length h, fun a => slot_congr h a⟩

theorem Recorded.congr {f : Nat → DevRec → DevRec} {m : Nat} (h : Recorded s f m t) (hu : u.table = t.table) :
    Recorded s f m u :=
  ⟨hu ▸ h.length, fun a => (slot_congr hu a).trans (h.slot a)⟩

/-- One more record. -/
theorem Recorded.succ {f : Nat → DevRec → DevRec} {m : Nat} (h : Recorded s f m t) (hm : m < s.table.length)
    (hu : u.table = t.table.modify m (f m)) : Recorded s f (m + 1) u := by
  have hlen : m < t.table.length := h.length ▸ hm
  refine ⟨by rw [hu, List.length_modify, h.length], fun a => ?_⟩
  rw [show u.slot a = (t.modifySlot m (f m)).slot a from slot_congr (s := t.modifySlot m (f m)) hu a, slot_modifySlot,
    h.slot]
  rcases Nat.lt_trichotomy a m with hlt | rfl | hgt
  · rw [if_neg (by omega), if_pos hlt, if_pos (by omega)]
  · rw [if_pos ⟨rfl, hlen⟩, if_neg (Nat.lt_irrefl a), if_pos (by omega)]
  · rw [if_neg (by omega), if_neg (by omega), if_neg (by omega)]

/-! ### The phases of a scan under the driver's move, one after another (10_state.md R26) -/

/-- What a phase leaves that does no more than complete its request `q` and go on to phase `p`. -/
def State.passed (s : State) (q : TapReq) (p : Phase) : State :=
  { s with phase := p, tapCtl := contract q s.tapCtl, trace := .tap q :: s.trace }

@[simp] theorem slot_passed (q : TapReq) (p : Phase) (a : Nat) : (s.passed q p).slot a = s.slot a := slot_congr rfl a

theorem takes_scInit (hp : s.phase = .scInit) (hr : s.tapReady = false) :
    Takes s (.tap r) ((s.completeRequest .init).phaseScInit r) :=
  takes_tap .init (by simp [State.tapRequest, hp, hr]) (by simp [hp]) (by simp [State.phaseStep, hp])

theorem takes_scReset (hp : s.phase = .scReset) : Takes s (.tap r) (s.passed .reset .idEnter) :=
  takes_tap .reset (by simp [State.tapRequest, hp]) (by simp [hp])
    (by simp only [State.phaseStep, completeRequest_phase, hp]; rfl)

theorem takes_idEnter (hp : s.phase = .idEnter) : Takes s (.tap r) (s.completeRequest .enterShiftDr).phaseIdEnter :=
  takes_tap .enterShiftDr (by simp [State.tapRequest, hp]) (by simp [hp]) (by simp [State.phaseStep, hp])

theorem takes_idShift (hp : s.phase = .idShift) :
    Takes s (.tap r) ((s.completeRequest (.shiftCapture .ones 32 false)).phaseIdShift r) :=
  takes_tap (.shiftCapture .ones 32 false) (by simp [State.tapRequest, hp]) (by simp [hp]) (by simp [State.phaseStep, hp])

theorem takes_idExit (hp : s.phase = .idExit) : Takes s (.tap r) (s.passed (.shift .ones 1 true) .idIdle) :=
  takes_tap (.shift .ones 1 true) (by simp [State.tapRequest, hp]) (by simp [hp])
    (by simp only [State.phaseStep, completeRequest_phase, hp]; rfl)

theorem takes_idIdle (hp : s.phase = .idIdle) : Takes s (.tap r) (s.passed (.returnIdle 1) .irEnter) :=
  takes_tap (.returnIdle 1) (by simp [State.tapRequest, hp, Config.idleCycles]) (by simp [hp])
    (by simp only [State.phaseStep, completeRequest_phase, hp]; rfl)

theorem takes_irEnter (hp : s.phase = .irEnter) : Takes s (.tap r) (s.completeRequest .enterShiftIr).phaseIrEnter :=
  takes_tap .enterShiftIr (by simp [State.tapRequest, hp]) (by simp [hp]) (by simp [State.phaseStep, hp])

/-- IR_HINT at an entry that is a length (40_discovery.md R124). -/
theorem takes_irHint {h : Byte} (hp : s.phase = .irHint) (he : s.hintEntry = .length h) :
    Takes s (.tap r) ((s.completeRequest (.shiftCapture .ones h.toNat false)).recordHint h r).enterHint := by
  refine takes_tap (.shiftCapture .ones h.toNat false) (by simp [State.tapRequest, hp, State.hintRequest, he]) (by simp [hp]) ?_
  have he' : ∀ q, (s.completeRequest q).hintEntry = .length h := fun _ => he
  simp [State.phaseStep, hp, State.phaseIrHint, he']

theorem takes_irFirst (hp : s.phase = .irFirst) :
    Takes s (.tap r) ((s.completeRequest (.shiftCapture .ones 1 false)).phaseIrFirst r) :=
  takes_tap (.shiftCapture .ones 1 false) (by simp [State.tapRequest, hp]) (by simp [hp]) (by simp [State.phaseStep, hp])

theorem takes_irProbe (hp : s.phase = .irProbe) :
    Takes s (.tap r) ((s.completeRequest (.shiftCapture .ones 1 false)).phaseIrProbe r) :=
  takes_tap (.shiftCapture .ones 1 false) (by simp [State.tapRequest, hp]) (by simp [hp]) (by simp [State.phaseStep, hp])

theorem takes_irExit (hp : s.phase = .irExit) : Takes s (.tap r) (s.passed (.shift .ones 1 true) .irIdle) :=
  takes_tap (.shift .ones 1 true) (by simp [State.tapRequest, hp]) (by simp [hp])
    (by simp only [State.phaseStep, completeRequest_phase, hp]; rfl)

theorem takes_irIdle (hp : s.phase = .irIdle) : Takes s (.tap r) (s.passed (.returnIdle 1) .drEnter) :=
  takes_tap (.returnIdle 1) (by simp [State.tapRequest, hp, Config.idleCycles]) (by simp [hp])
    (by simp only [State.phaseStep, completeRequest_phase, hp]; rfl)

theorem takes_drEnter (hp : s.phase = .drEnter) : Takes s (.tap r) (s.completeRequest .enterShiftDr).phaseDrEnter :=
  takes_tap .enterShiftDr (by simp [State.tapRequest, hp]) (by simp [hp]) (by simp [State.phaseStep, hp])

theorem takes_drCount (hp : s.phase = .drCount) :
    Takes s (.tap r) ((s.completeRequest (.shiftCapture .ones 1 false)).phaseDrCount r) :=
  takes_tap (.shiftCapture .ones 1 false) (by simp [State.tapRequest, hp]) (by simp [hp]) (by simp [State.phaseStep, hp])

theorem takes_drExit (hp : s.phase = .drExit) : Takes s (.tap r) (s.passed (.shift .ones 1 true) .drIdle) :=
  takes_tap (.shift .ones 1 true) (by simp [State.tapRequest, hp]) (by simp [hp])
    (by simp only [State.phaseStep, completeRequest_phase, hp]; rfl)

theorem takes_drIdle (hp : s.phase = .drIdle) : Takes s (.tap r) (s.completeRequest (.returnIdle 1)).phaseDrIdle :=
  takes_tap (.returnIdle 1) (by simp [State.tapRequest, hp, Config.idleCycles]) (by simp [hp]) (by simp [State.phaseStep, hp])

theorem takes_failExit (hp : s.phase = .failExit) :
    Takes s (.tap r) (s.passed (.shift .ones 1 true) .failIdle) :=
  takes_tap (.shift .ones 1 true) (by simp [State.tapRequest, hp]) (by simp [hp])
    (by simp only [State.phaseStep, completeRequest_phase, hp]; rfl)

theorem takes_failIdle (hp : s.phase = .failIdle) : Takes s (.tap r) (s.passed (.returnIdle 1) .failClear) :=
  takes_tap (.returnIdle 1) (by simp [State.tapRequest, hp, Config.idleCycles]) (by simp [hp])
    (by simp only [State.phaseStep, completeRequest_phase, hp]; rfl)

theorem takes_failClear (hp : s.phase = .failClear) : Takes s .core s.phaseFailClear :=
  takes_core (by simp [State.tapRequest, hp]) (by simp [State.phaseStep, hp])

theorem takes_scClear (hp : s.phase = .scClear) : Takes s .core s.phaseScClear :=
  takes_core (by simp [State.tapRequest, hp]) (by simp [State.phaseStep, hp])

theorem takes_scPost (hp : s.phase = .scPost) : Takes s .core s.phaseScPost :=
  takes_core (by simp [State.tapRequest, hp]) (by simp [State.phaseStep, hp])

end Sys2Proof.Machine
end

section
/-! SUPPORT. The stages of a scan, from phase to phase (40_discovery.md R115 to R140): the loops keep what `runs_loop` counts
up, and the stages are put together from the moves of `Takes`. -/
namespace Sys2Proof.Machine

variable {s t u : State} {r : TapResp}

/-! ### The ends of a scan that fails -/

/-- INIT answered 0 (40_discovery.md R116). -/
theorem phaseScInit_fail (hr : s.tapReady = false) (hok : r.ok = false) :
    (s.completeRequest .init).phaseScInit r =
      { s with failCode := .tapInitFail, phase := .failClear, trace := .tap .init :: s.trace } := by
  unfold State.phaseScInit
  rw [if_neg (by simp [hr]), if_neg (by simp [hok])]
  rfl

/-- INIT answered 1 (40_discovery.md R116). -/
theorem phaseScInit_ready (hr : s.tapReady = false) (hok : r.ok = true) :
    (s.completeRequest .init).phaseScInit r =
      { s with tapReady := true, phase := .scReset, trace := .tap .init :: s.trace } := by
  unfold State.phaseScInit
  rw [if_neg (by simp [hr]), if_pos hok]
  rfl

/-- A scan that ends where INIT fails: no exit request, and FAIL_CLEAR (40_discovery.md R116, R140). -/
theorem runs_initFailed (hp : s.phase = .scInit) (hr : s.tapReady = false) (hok : r.ok = false) :
    Runs s [.tap r, .core] { s with table := s.clearTable.table, deviceCount := 0#8, err := .tapInitFail
                                    failCode := .tapInitFail, result := 0#32, phase := .idle
                                    trace := .tap .init :: s.trace } := by
  have hinit := takes_scInit (r := r) hp hr
  rw [phaseScInit_fail hr hok] at hinit
  exact .cons hinit (takes_failClear rfl).runs

/-- The two exit requests of a failing scan, from where its shift was, and FAIL_CLEAR (40_discovery.md R140). -/
theorem runs_failExit {q : TapResp} (hp : s.phase = .failExit) (hctl : s.tapCtl = .shiftIr ∨ s.tapCtl = .shiftDr) :
    Runs s [.tap r, .tap q, .core] { s with
      table := s.clearTable.table, deviceCount := 0#8, err := s.failCode, result := 0#32, phase := .idle
      tapCtl := .runTestIdle, trace := .tap (.returnIdle 1) :: .tap (.shift .ones 1 true) :: s.trace } := by
  have hend : contract (.returnIdle 1) (contract (.shift .ones 1 true) s.tapCtl) = .runTestIdle := by
    obtain h | h := hctl <;> rw [h] <;> rfl
  have hexits : (s.passed (.shift .ones 1 true) .failIdle).passed (.returnIdle 1) .failClear = { s with
      phase := .failClear, tapCtl := .runTestIdle
      trace := .tap (.returnIdle 1) :: .tap (.shift .ones 1 true) :: s.trace } := by
    rw [← hend]
    rfl
  have hidle := takes_failIdle (s := s.passed (.shift .ones 1 true) .failIdle) (r := q) rfl
  rw [hexits] at hidle
  exact .cons (takes_failExit hp) (.cons hidle (takes_failClear rfl).runs)

/-! ### The IDCODE read-out -/

/-- An all-ones capture ends the read-out (40_discovery.md R118). -/
theorem phaseIdShift_end (hr : r.tdo.setWidth 32 = all1) : s.phaseIdShift r = s.goto .idExit := if_pos hr

/-- Any other capture is an IDCODE, within the table (40_discovery.md R118). -/
theorem phaseIdShift_record (hr : r.tdo.setWidth 32 ≠ all1) (hn : (s.n + 1#9).toNat ≤ s.params.maxDevs) :
    s.phaseIdShift r = s.recordIdcode (r.tdo.setWidth 32) := by
  unfold State.phaseIdShift
  rw [if_neg hr, if_neg (Nat.not_lt.2 hn)]

/-- One IDCODE more than the table has devices for (40_discovery.md R119). -/
theorem phaseIdShift_overrun (hr : r.tdo.setWidth 32 ≠ all1) (hn : s.params.maxDevs < (s.n + 1#9).toNat) :
    s.phaseIdShift r = (s.recordIdcode (r.tdo.setWidth 32)).fail .chainOverrun := by
  unfold State.phaseIdShift
  rw [if_neg hr, if_pos hn]

/-- An all-ones capture goes on to ID_EXIT (40_discovery.md R118). -/
theorem takes_idShift_end (hp : s.phase = .idShift) (hr : r.tdo.setWidth 32 = all1) :
    Takes s (.tap r) (s.passed (.shiftCapture .ones 32 false) .idExit) := by
  have h := takes_idShift (r := r) hp
  rwa [phaseIdShift_end hr] at h

/-- What `m` captures of the read-out leave: they stand in the first `m` slots (40_discovery.md R118). -/
structure IdcodesRead (s : State) (ids : List TapResp) (m : Nat) (t : State) : Prop where
  phase : t.phase = .idShift
  params : t.params = s.params
  count : t.n.toNat = m
  slots : Recorded s (fun a q => { q with idcode := (ids.getD a TapResp.silent).tdo.setWidth 32 }) m t
  trace : t.trace = List.replicate m (.tap (.shiftCapture .ones 32 false)) ++ s.trace

/-- One more capture that is not all ones, within the table (40_discovery.md R118). -/
theorem IdcodesRead.succ {ids : List TapResp} {m : Nat} (h : IdcodesRead s ids m t) (hS : s.params.maxDevs ≤ 255)
    (hlen : s.table.length = s.params.maxDevs + 1) (hm : m < ids.length) (hroom : m < s.params.maxDevs)
    (hv : ids[m].tdo.setWidth 32 ≠ all1) :
    ∃ u, Takes t (.tap ids[m]) u ∧ IdcodesRead s ids (m + 1) u := by
  have hn := h.count
  have hn1 : (t.n + 1#9).toNat = m + 1 := by rw [toNat_succ9 (by omega), hn]
  have hfit : (t.n + 1#9).toNat ≤ t.params.maxDevs := by rw [hn1, h.params]; exact hroom
  refine ⟨(t.completeRequest (.shiftCapture .ones 32 false)).recordIdcode (ids[m].tdo.setWidth 32), ?_, ?_⟩
  · have hstep := takes_idShift (r := ids[m]) h.phase
    rwa [phaseIdShift_record (s := t.completeRequest _) hv hfit] at hstep
  · refine ⟨h.phase, h.params, hn1, h.slots.succ (by omega) ?_, ?_⟩
    · rw [recordIdcode_table, completeRequest_n, hn, List.getD_eq_getElem _ _ hm]
      rfl
    · rw [recordIdcode_trace, completeRequest_trace, h.trace]
      rfl

/-- The captures before the end of the read-out (40_discovery.md R118). -/
theorem runs_idcodes (hp : s.phase = .idShift) (hn : s.n = 0#9) (hS : s.params.maxDevs ≤ 255)
    (hlen : s.table.length = s.params.maxDevs + 1) (ids : List TapResp) (hv : ∀ r ∈ ids, r.tdo.setWidth 32 ≠ all1)
    (hroom : ids.length ≤ s.params.maxDevs) : ∃ t, Runs s (ids.map .tap) t ∧ IdcodesRead s ids ids.length t :=
  runs_loop_tap (IdcodesRead s ids) ids
    (fun _ hi _ h => h.succ hS hlen hi (by omega) (hv _ (List.getElem_mem hi)))
    ⟨hp, rfl, by rw [hn]; rfl, .zero _ rfl, rfl⟩

end Sys2Proof.Machine

open Sys2Proof Sys2Proof.Machine

/-- Settles O23: SC_CLEAR's step chooses the next phase, INIT's answer the one after (`State.phaseScInit`), and its failure
runs FAIL_CLEAR. -/
theorem initStage : Obligations.InitStage := by
  refine ⟨fun s t hp ht h => ?_, fun s resp rest hp hr hok => ?_, fun s resp rest hp hr hok => ?_⟩
  · rw [step_scClear hp ht] at h
    cases h
    cases hr : s.tapReady <;> simp [State.phaseScClear, State.tapRequest, hr]
  · rw [takes_scInit hp hr rest, phaseScInit_ready hr hok]
    rfl
  · exact ⟨_, (runs_initFailed hp hr hok).runSteps rest, fun a => slot_clearTable s a, rfl⟩

/-- Settles O31: `runs_failExit` and FAIL_CLEAR; the failure phases' part of the invariant says that no hook is pending. -/
theorem failedScanClears : Obligations.FailedScanClears := by
  refine ⟨fun s r q rest hp hctl => ?_, fun s hI hfail => ?_⟩
  · exact ⟨_, (runs_failExit hp hctl).runSteps rest, fun a => slot_clearTable s a, rfl⟩
  · have hI' := hI.phase
    unfold State.PhaseInv at hI'
    obtain hp | hp | hp := hfail <;> rw [hp] at hI' <;> exact hI'.2.1

/-- Settles O24: `runs_idcodes`, and then the capture that ends the read-out or the one that is too many. -/
theorem idcodeReadOut : Obligations.IdcodeReadOut := by
  intro s ids rest hp hn hL hlen hv hroom
  refine ⟨fun last hlast hfit => ?_, fun hfull => ?_⟩
  · obtain ⟨t, hrun, ht⟩ := runs_idcodes hp hn hL.devs_le hlen ids hv hfit
    have hlast' := takes_idShift_end (r := last) ht.phase hlast
    have hend := (hrun.append hlast'.runs).runSteps rest
    rw [List.length_append, List.length_map, List.append_assoc] at hend
    refine ⟨_, hend, rfl, ht.count, fun a => ?_, ?_, rfl⟩
    · rw [slot_withEnv, slot_passed, ht.slots.slot]
      split
      · next ha => rw [List.getD_eq_getElem _ _ ha]
      · rfl
    · show Output.tap _ :: t.trace = _
      rw [ht.trace]
      rfl
  · obtain ⟨init, last, rfl⟩ := (List.eq_nil_or_concat' ids).resolve_left (by rintro rfl; cases hfull)
    rw [List.length_append, List.length_singleton] at hfull
    obtain ⟨t, hrun, ht⟩ := runs_idcodes hp hn hL.devs_le hlen init (fun r hr => hv r (by simp [hr])) (by omega)
    have hlimit := hL.devs_le
    have hcount := ht.count
    have hover : t.params.maxDevs < (t.n + 1#9).toNat := by
      rw [toNat_succ9 (by omega), ht.params]
      omega
    have hlast := takes_idShift (r := last) ht.phase
    rw [phaseIdShift_overrun (s := t.completeRequest _) (hv last (by simp)) hover] at hlast
    have hend := (hrun.append hlast.runs).runSteps rest
    rw [List.length_append, List.length_map] at hend
    rw [List.map_append, List.length_append]
    refine ⟨_, hend, rfl, rfl, ?_, rfl⟩
    show Output.tap _ :: t.trace = _
    rw [ht.trace]
    rfl
end

section
/-! SUPPORT. The IR stage, hinted and probed (40_discovery.md R122 to R130), and the DR pass (R132 to R134). -/
namespace Sys2Proof.Machine

variable {s t u : State} {r : TapResp}

/-! ### The hinted IR stage -/

/-- The record of a device whose IR length is known, with the sum of the lengths before it (40_discovery.md R124, R128). -/
def DevRec.withIr (q : DevRec) (len : BitVec 8) (before : Nat) : DevRec :=
  { q with irLength := len, irPrescan := BitVec.ofNat 16 before }

/-- The entry the hinted loop finds at a cursor that stands on a length in range (40_discovery.md R124). -/
theorem hintEntry_in_range {h : Byte} (hk : s.k.toNat < s.params.maxDevs) (hr : s.hint.read s.k.toNat = some h)
    (hpos : 1 ≤ h.toNat) (hle : h.toNat ≤ s.params.maxIrLen) : s.hintEntry = .length h := by
  have h0 : h ≠ 0#8 := fun h0 => by rw [h0] at hpos; exact absurd hpos (by decide)
  unfold State.hintEntry
  rw [if_neg (by omega), hr]
  dsimp only
  rw [if_neg h0, if_neg (by omega)]

/-- The entry at the end of the list: MAX_DEVS entries are read, or the terminator 0 stands there (40_discovery.md R124). -/
theorem hintEntry_end (h : s.k.toNat = s.params.maxDevs ∨ s.hint.read s.k.toNat = some 0#8) : s.hintEntry = .stop := by
  unfold State.hintEntry
  split
  · rfl
  · rw [h.resolve_left (by omega)]
    rfl

/-- An entry out of range (40_discovery.md R126). -/
theorem hintEntry_out_of_range {h : Byte} (hk : s.k.toNat < s.params.maxDevs) (hr : s.hint.read s.k.toNat = some h)
    (h0 : h ≠ 0#8) (hgt : s.params.maxIrLen < h.toNat) : s.hintEntry = .range := by
  unfold State.hintEntry
  rw [if_neg (by omega), hr]
  dsimp only
  rw [if_neg h0, if_pos hgt]

/-- At an entry that is a length the loop goes on in IR_HINT (40_discovery.md R124). -/
theorem enterHint_length {h : Byte} (he : s.hintEntry = .length h) : s.enterHint = s.goto .irHint := by
  unfold State.enterHint
  rw [he]

/-- What the hinted loop has done of a list `hs` with captures `caps` as it looks at entry `m` (40_discovery.md R124, R125). -/
structure HintsTaken (s : State) (hs : List Byte) (caps : List TapResp) (m : Nat) (t : State) : Prop where
  params : t.params = s.params
  hint : t.hint = s.hint
  cursor : t.k.toNat = m
  sum : t.pre = BitVec.ofNat 16 ((hs.take m).map BitVec.toNat).sum
  slots : Recorded s (fun a q => q.withIr (hs.getD a 0#8) ((hs.take a).map BitVec.toNat).sum) m t
  warn : t.warnIr0 = (s.warnIr0 || (caps.take m).any fun r => !r.tdo.getLsbD 0)
  trace : t.trace = ((hs.take m).map fun h => Output.tap (.shiftCapture .ones h.toNat false)).reverse ++
    .tap .enterShiftIr :: s.trace

/-- The sum of lengths goes on in 16 bits. -/
theorem ofNat_add_len (before : Nat) (h : Byte) :
    BitVec.ofNat 16 before + h.setWidth 16 = BitVec.ofNat 16 (before + h.toNat) := by
  apply BitVec.eq_of_toNat_eq
  rw [BitVec.toNat_add, BitVec.toNat_setWidth, BitVec.toNat_ofNat, BitVec.toNat_ofNat]
  omega

/-- A flag set unless the bit captured is 1 (40_discovery.md R125). -/
theorem ite_eq_or_not (b w : Bool) : (if b = true then w else true) = (w || !b) := by
  cases b <;> simp

/-- One more hint: its shift, its record, and a look at the next entry. -/
theorem HintsTaken.succ {hs : List Byte} {caps : List TapResp} {m : Nat} (h : HintsTaken s hs caps m t)
    (hL : s.params.maxDevs ≤ 255) (hlen : s.table.length = s.params.maxDevs + 1) (hcaps : caps.length = hs.length)
    (hfit : hs.length ≤ s.params.maxDevs) (hm : m < hs.length) (hread : s.hint.read m = some hs[m])
    (hpos : 1 ≤ hs[m].toNat) (hle : hs[m].toNat ≤ s.params.maxIrLen) :
    ∃ u, Takes t.enterHint (.tap (caps[m]'(hcaps ▸ hm))) u.enterHint ∧ HintsTaken s hs caps (m + 1) u := by
  have hcursor := h.cursor
  have hentry : t.hintEntry = .length hs[m] := by
    refine hintEntry_in_range ?_ ?_ hpos ?_
    · rw [hcursor, h.params]; omega
    · rw [hcursor, h.hint]; exact hread
    · rw [h.params]; exact hle
  rw [enterHint_length hentry]
  refine ⟨_, takes_irHint (s := t.goto .irHint) rfl hentry, ?_⟩
  have hm' : m < caps.length := hcaps ▸ hm
  constructor
  case params => exact h.params
  case hint => exact h.hint
  case cursor =>
    show (t.k + 1#9).toNat = m + 1
    rw [toNat_succ9 (by omega), hcursor]
  case sum =>
    show t.pre + hs[m].setWidth 16 = _
    rw [h.sum, ofNat_add_len, List.take_succ_eq_append_getElem hm, List.map_append, List.sum_append]
    simp
  case slots =>
    refine h.slots.succ (by omega) ?_
    rw [recordHint_table]
    show t.table.modify t.k.toNat _ = _
    rw [hcursor, List.getD_eq_getElem _ _ hm]
    show t.table.modify m (fun q => { q with irLength := hs[m], irPrescan := t.pre }) = _
    rw [h.sum]
    rfl
  case warn =>
    show (if (caps[m]'hm').tdo.getLsbD 0 = true then t.warnIr0 else true) = _
    rw [h.warn, List.take_succ_eq_append_getElem hm', List.any_append]
    rw [List.any_cons, List.any_nil, Bool.or_false, ← Bool.or_assoc]
    exact ite_eq_or_not _ _
  case trace =>
    show Output.tap _ :: t.trace = _
    rw [h.trace, List.take_succ_eq_append_getElem hm, List.map_append, List.reverse_append]
    rfl

/-- The hinted loop over a list of lengths in range, up to the look at the entry after them (40_discovery.md R122, R124). -/
theorem runs_hints {enter : TapResp} (hp : s.phase = .irEnter) (hhint : s.hinted = true) (hL : s.params.maxDevs ≤ 255)
    (hlen : s.table.length = s.params.maxDevs + 1) (hs : List Byte) (caps : List TapResp) (hcaps : caps.length = hs.length)
    (hfit : hs.length ≤ s.params.maxDevs)
    (hin : ∀ (k : Nat) (h : k < hs.length),
      s.hint.read k = some hs[k] ∧ 1 ≤ hs[k].toNat ∧ hs[k].toNat ≤ s.params.maxIrLen) :
    ∃ t, Runs s (.tap enter :: caps.map .tap) t.enterHint ∧ HintsTaken s hs caps hs.length t := by
  have henter := takes_irEnter (r := enter) hp
  rw [show (s.completeRequest .enterShiftIr).phaseIrEnter = (s.completeRequest .enterShiftIr).startHints.enterHint from
    if_pos hhint] at henter
  have hstart : HintsTaken s hs caps 0 (s.completeRequest .enterShiftIr).startHints :=
    ⟨rfl, rfl, rfl, rfl, .zero _ rfl, (Bool.or_false _).symm, rfl⟩
  obtain ⟨_, hrun, t, rfl, ht⟩ := runs_loop_tap (s := (s.completeRequest .enterShiftIr).startHints.enterHint)
    (fun m v => ∃ t, v = t.enterHint ∧ HintsTaken s hs caps m t) caps
    (fun m hm _ ⟨t, hv, h⟩ => by
      subst hv
      have hm' : m < hs.length := hcaps ▸ hm
      obtain ⟨hread, hpos, hle⟩ := hin m hm'
      obtain ⟨u, htakes, hu⟩ := h.succ hL hlen hcaps hfit hm' hread hpos hle
      exact ⟨_, htakes, u, rfl, hu⟩)
    ⟨_, rfl, hstart⟩
  exact ⟨t, .cons henter hrun, hcaps ▸ ht⟩

/-- Where the loop ends: IR_EXIT with the count at the end of the list, the failure at an entry out of range
(40_discovery.md R124, R126). -/
theorem HintsTaken.ending {hs : List Byte} {caps : List TapResp} (h : HintsTaken s hs caps hs.length t)
    (hfit : hs.length ≤ s.params.maxDevs)
    (hend : hs.length = s.params.maxDevs ∨
      ∃ h, s.hint.read hs.length = some h ∧ (h = 0#8 ∨ s.params.maxIrLen < h.toNat)) :
    if hs.length = s.params.maxDevs ∨ s.hint.read hs.length = some 0#8
      then t.enterHint.phase = .irExit ∧ t.enterHint.cnt.toNat = hs.length
      else t.enterHint.phase = .failExit ∧ t.enterHint.failCode = .hintRange := by
  have hcursor := h.cursor
  split
  · next hstop =>
    have hentry : t.hintEntry = .stop := hintEntry_end (by rwa [hcursor, h.params, h.hint])
    unfold State.enterHint
    rw [hentry]
    exact ⟨rfl, hcursor⟩
  · next hstop =>
    obtain ⟨hne, hnz⟩ := not_or.1 hstop
    obtain ⟨b, hread, hb⟩ := hend.resolve_left hne
    have hb0 : b ≠ 0#8 := fun hb0 => hnz (hb0 ▸ hread)
    have hentry : t.hintEntry = .range := hintEntry_out_of_range (h := b) (by rw [hcursor, h.params]; omega)
      (by rw [hcursor, h.hint]; exact hread) hb0 (by rw [h.params]; exact hb.resolve_left hb0)
    unfold State.enterHint
    rw [hentry]
    exact ⟨rfl, rfl⟩

end Sys2Proof.Machine

open Sys2Proof Sys2Proof.Machine

/-- Settles O25: the loop's list (`runs_hints`) and its ends (`HintsTaken.ending`). -/
theorem hintedIrStage : Obligations.HintedIrStage := by
  intro s enter caps hs rest hp hhint hL hlen hcaps hfit hin hend
  obtain ⟨t, hrun, ht⟩ := runs_hints (enter := enter) hp hhint hL.devs_le hlen hs caps hcaps hfit hin
  have hsteps := hrun.runSteps rest
  rw [List.length_cons, List.length_map, hcaps] at hsteps
  have hframe := enterHint_frame t
  refine ⟨_, hsteps, fun a ha => ?_, fun a ha => ?_, ?_, ?_, rfl, ht.ending hfit hend⟩
  · rw [slot_withEnv, slot_enterHint, ht.slots.slot, if_pos ha, List.getD_eq_getElem _ _ ha]
    rfl
  · rw [slot_withEnv, slot_enterHint, ht.slots.slot, if_neg (by omega)]
  · show t.enterHint.warnIr0 = _
    rw [congrArg State.warnIr0 hframe]
    show t.warnIr0 = _
    rw [ht.warn, ← hcaps, List.take_length]
  · show t.enterHint.trace = _
    rw [congrArg State.trace hframe]
    show t.trace = _
    rw [ht.trace, List.take_length]
end

section
/-! SUPPORT. The probed IR stage (40_discovery.md R127 to R130) and the DR pass (R132 to R134). -/
namespace Sys2Proof.Machine

variable {s t u : State} {r : TapResp}

/-! ### One bit of the probe -/

/-- A 1 after one bit ends the probe (40_discovery.md R129). -/
theorem phaseIrProbe_end (hr : r.last 1 = true) (hl : s.len = 1#8) : s.phaseIrProbe r = s.endIr s.dev := by
  unfold State.phaseIrProbe
  rw [if_pos hr, if_pos hl]

/-- A 1 after more bits closes the device, within the table (40_discovery.md R128). -/
theorem phaseIrProbe_close (hr : r.last 1 = true) (hl : s.len ≠ 1#8) (hL : s.params.maxDevs ≤ 255)
    (hroom : s.dev.toNat < s.params.maxDevs) : s.phaseIrProbe r = s.recordProbe := by
  unfold State.phaseIrProbe
  rw [if_pos hr, if_neg hl, if_neg (by rw [toNat_succ9 (by omega)]; omega)]

/-- One device more than the table has room for (40_discovery.md R130). -/
theorem phaseIrProbe_devOverrun (hr : r.last 1 = true) (hl : s.len ≠ 1#8) (hL : s.params.maxDevs ≤ 255)
    (hfull : s.dev.toNat = s.params.maxDevs) : s.phaseIrProbe r = s.recordProbe.fail .devOverrun := by
  unfold State.phaseIrProbe
  rw [if_pos hr, if_neg hl, if_pos (by rw [toNat_succ9 (by omega)]; omega)]

/-- The length of a device, one bit more. -/
theorem toNat_succ8 {x : BitVec 8} (h : x.toNat ≤ 32) : (x + 1#8).toNat = x.toNat + 1 := by
  rw [BitVec.toNat_add, BitVec.toNat_ofNat]
  omega

/-- A 0 is one more bit of the device (40_discovery.md R128). -/
theorem phaseIrProbe_bit (hr : r.last 1 = false) (hL : s.params.maxIrLen ≤ 32) (hroom : s.len.toNat < s.params.maxIrLen) :
    s.phaseIrProbe r = s.countIrBit := by
  unfold State.phaseIrProbe
  rw [if_neg (by simp [hr]), if_neg (by rw [toNat_succ8 (by omega)]; omega)]

/-- One bit more than an IR may have (40_discovery.md R130). -/
theorem phaseIrProbe_irOverrun (hr : r.last 1 = false) (hL : s.params.maxIrLen ≤ 32)
    (hfull : s.len.toNat = s.params.maxIrLen) : s.phaseIrProbe r = s.countIrBit.fail .irOverrun := by
  unfold State.phaseIrProbe
  rw [if_neg (by simp [hr]), if_pos (by rw [toNat_succ8 (by omega)]; omega)]

/-- The record of the device that a 1 closes (40_discovery.md R128). -/
theorem slot_recordProbe_closed (h : s.dev.toNat < s.table.length) :
    s.recordProbe.slot s.dev.toNat = { s.slot s.dev.toNat with irLength := s.len, irPrescan := s.pre } := by
  rw [slot_recordProbe, if_pos ⟨rfl, h⟩]

/-- No other record changes there. -/
theorem slot_recordProbe_other {a : Nat} (h : a ≠ s.dev.toNat) : s.recordProbe.slot a = s.slot a := by
  rw [slot_recordProbe, if_neg fun hs => h hs.1.symm]

/-- A 1 after one bit ends the probe (40_discovery.md R129). -/
theorem takes_irProbe_end (hp : s.phase = .irProbe) (hr : r.last 1 = true) (hl : s.len = 1#8) :
    Takes s (.tap r) ((s.completeRequest (.shiftCapture .ones 1 false)).endIr s.dev) := by
  have h := takes_irProbe (r := r) hp
  rwa [phaseIrProbe_end (s := s.completeRequest _) hr hl] at h

/-! ### The probe of a chain -/

/-- The bit a response carries is the one it captured. -/
@[simp] theorem bitResp_last (b : Bool) : (bitResp b).last 1 = b := by
  cases b <;> simp [TapResp.last, bitResp]

/-- What the probe has found when it has closed the first `m` devices of `lens` and seen `z` zeros of the next one
(40_discovery.md R128). -/
structure Probed (s : State) (lens : List Nat) (m z : Nat) (t : State) : Prop where
  phase : t.phase = .irProbe
  params : t.params = s.params
  warn : t.warnIr0 = s.warnIr0
  device : t.dev.toNat = m
  bits : t.len.toNat = z + 1
  sum : t.pre = BitVec.ofNat 16 (lens.take m).sum
  slots : Recorded s (fun a q => q.withIr (BitVec.ofNat 8 (lens.getD a 0)) (lens.take a).sum) m t
  trace : t.trace = List.replicate ((lens.take m).sum + z) (.tap (.shiftCapture .ones 1 false)) ++ s.trace

/-- One more zero. -/
theorem Probed.bit {lens : List Nat} {m z : Nat} (h : Probed s lens m z t) (hL : s.params.Legal)
    (hz : z + 1 < s.params.maxIrLen) :
    ∃ u, Takes t (.tap (bitResp false)) u ∧ Probed s lens m (z + 1) u := by
  have hlimit := hL.irLen_le
  have hbits := h.bits
  have hroom : t.len.toNat < t.params.maxIrLen := by rw [h.params]; omega
  have htake := takes_irProbe (r := bitResp false) h.phase
  rw [phaseIrProbe_bit (s := t.completeRequest _) (bitResp_last _) (by rw [completeRequest_params, h.params]; exact hlimit)
    hroom] at htake
  refine ⟨_, htake, h.phase, h.params, h.warn, h.device, ?_, h.sum, h.slots.congr rfl, ?_⟩
  · show (t.len + 1#8).toNat = _
    rw [toNat_succ8 (by omega), hbits]
  · show Output.tap _ :: t.trace = _
    rw [h.trace]
    rfl

/-- The 1 after the last zero of a device. -/
theorem Probed.close {lens : List Nat} {m z : Nat} (h : Probed s lens m z t) (hL : s.params.Legal)
    (hlen : s.table.length = s.params.maxDevs + 1) (hm : m < lens.length) (hroom : m < s.params.maxDevs)
    (hz : lens[m] = z + 1) (hz2 : 1 ≤ z) :
    ∃ u, Takes t (.tap (bitResp true)) u ∧ Probed s lens (m + 1) 0 u := by
  have hlimit := hL.devs_le
  have hbits := h.bits
  have hdev := h.device
  have hmany : t.len ≠ 1#8 := fun h1 => by rw [h1] at hbits; simp at hbits; omega
  have hlen8 : t.len = BitVec.ofNat 8 lens[m] := by
    rw [hz, ← hbits, BitVec.ofNat_toNat, BitVec.setWidth_eq]
  have hsum : (lens.take (m + 1)).sum = (lens.take m).sum + (z + 1) := by
    rw [List.take_succ_eq_append_getElem hm, List.sum_append, List.sum_singleton, hz]
  have htake := takes_irProbe (r := bitResp true) h.phase
  rw [phaseIrProbe_close (s := t.completeRequest _) (bitResp_last _) hmany
    (by rw [completeRequest_params, h.params]; exact hlimit)
    (by rw [completeRequest_params, completeRequest_dev, h.params, hdev]; exact hroom)] at htake
  refine ⟨_, htake, h.phase, h.params, h.warn, ?_, rfl, ?_, h.slots.succ (by omega) ?_, ?_⟩
  · show (t.dev + 1#9).toNat = _
    rw [toNat_succ9 (by omega), hdev]
  · show t.pre + t.len.setWidth 16 = _
    rw [h.sum, ofNat_add_len, hbits, hsum]
  · rw [recordProbe_table]
    show t.table.modify t.dev.toNat (fun q => { q with irLength := t.len, irPrescan := t.pre }) = _
    rw [hdev, hlen8, h.sum, List.getD_eq_getElem _ _ hm]
    rfl
  · show Output.tap _ :: t.trace = _
    rw [h.trace, hsum]
    rfl

/-- All captures of one device (`probeBits`). -/
theorem Probed.succ {lens : List Nat} {m : Nat} (h : Probed s lens m 0 t) (hL : s.params.Legal)
    (hlen : s.table.length = s.params.maxDevs + 1) (hm : m < lens.length) (hroom : m < s.params.maxDevs)
    (hrange : 2 ≤ lens[m] ∧ lens[m] ≤ s.params.maxIrLen) :
    ∃ u, Runs t ((probeBits lens[m]).map .tap) u ∧ Probed s lens (m + 1) 0 u := by
  obtain ⟨u, hzeros, hu⟩ := runs_loop_tap (Probed s lens m) (List.replicate (lens[m] - 1) (bitResp false))
    (fun z hz v hv => by
      rw [List.length_replicate] at hz
      rw [List.getElem_replicate]
      exact hv.bit hL (by omega))
    h
  rw [List.length_replicate] at hu
  obtain ⟨v, hclose, hv⟩ := hu.close hL hlen hm hroom (by omega) (by omega)
  refine ⟨v, ?_, hv⟩
  rw [probeBits, List.map_append]
  exact hzeros.append hclose.runs

/-- The probe of a chain of devices, up to the filler (40_discovery.md R127, R128). -/
theorem runs_probe {first : TapResp} (hp : s.phase = .irFirst) (hL : s.params.Legal)
    (hlen : s.table.length = s.params.maxDevs + 1) (lens : List Nat) (hfit : lens.length ≤ s.params.maxDevs)
    (hrange : ∀ l ∈ lens, 2 ≤ l ∧ l ≤ s.params.maxIrLen) :
    ∃ t, Runs s (.tap first :: (lens.flatMap probeBits).map .tap) t ∧
      Probed ((s.completeRequest (.shiftCapture .ones 1 false)).phaseIrFirst first) lens lens.length 0 t := by
  obtain ⟨t, hrun, ht⟩ := runs_loop
    (Probed ((s.completeRequest (.shiftCapture .ones 1 false)).phaseIrFirst first) lens · 0) lens
    (fun l => (probeBits l).map .tap)
    (fun m hm u hu => hu.succ hL hlen hm (Nat.lt_of_lt_of_le hm hfit) (hrange _ (List.getElem_mem hm)))
    ⟨rfl, rfl, rfl, rfl, rfl, rfl, .zero _ rfl, rfl⟩
  rw [← List.map_flatMap] at hrun
  exact ⟨t, .cons (takes_irFirst hp) hrun, ht⟩

/-- A chain answers one capture a bit. -/
theorem length_flatMap_probeBits {lens : List Nat} (h : ∀ l ∈ lens, 2 ≤ l) :
    (lens.flatMap probeBits).length = lens.sum := by
  rw [List.length_flatMap, List.map_congr_left (g := id), List.map_id]
  intro l hl
  have hl2 := h l hl
  rw [probeBits, List.length_append, List.length_replicate, List.length_singleton, id]
  omega

/-! ### The DR pass -/

/-- A 1 after as many zeros as devices: the counts match (40_discovery.md R132). -/
theorem phaseDrCount_match (hr : r.last 1 = true) (hi : s.i = s.cnt) : s.phaseDrCount r = s.goto .drExit := by
  unfold State.phaseDrCount
  rw [if_pos hr, if_pos hi]

/-- A 1 after fewer zeros (40_discovery.md R132). -/
theorem phaseDrCount_few (hr : r.last 1 = true) (hi : s.i ≠ s.cnt) : s.phaseDrCount r = s.fail .countMismatch := by
  unfold State.phaseDrCount
  rw [if_pos hr, if_neg hi]

/-- A zero more than devices (40_discovery.md R132). -/
theorem phaseDrCount_many (hr : r.last 1 = false) (hi : s.i = s.cnt) : s.phaseDrCount r = s.fail .countMismatch := by
  unfold State.phaseDrCount
  rw [if_neg (by simp [hr]), if_pos hi]

/-- A zero is the bypass bit of the next device (40_discovery.md R132). -/
theorem phaseDrCount_device (hr : r.last 1 = false) (hi : s.i ≠ s.cnt) : s.phaseDrCount r = s.recordDr := by
  unfold State.phaseDrCount
  rw [if_neg (by simp [hr]), if_neg hi]

/-- A 1 at the count goes on to DR_EXIT (40_discovery.md R132). -/
theorem takes_drCount_match (hp : s.phase = .drCount) (hr : r.last 1 = true) (hi : s.i = s.cnt) :
    Takes s (.tap r) (s.passed (.shiftCapture .ones 1 false) .drExit) := by
  have h := takes_drCount (r := r) hp
  rwa [phaseDrCount_match (s := s.completeRequest _) hr hi] at h

/-- The record of device `a` of `cnt`, with its DR offsets (40_discovery.md R134). -/
def DevRec.withDr (q : DevRec) (cnt a : Nat) : DevRec :=
  { q with drPrescan := BitVec.ofNat 8 a, drPostscan := BitVec.ofNat 8 (cnt - a - 1) }

/-- What `m` zeros of the DR pass leave (40_discovery.md R132). -/
structure DrCounted (s : State) (m : Nat) (t : State) : Prop where
  phase : t.phase = .drCount
  cnt : t.cnt = s.cnt
  deviceCount : t.deviceCount = s.deviceCount
  index : t.i.toNat = m
  slots : Recorded s (fun a q => q.withDr s.cnt.toNat a) m t
  trace : t.trace = List.replicate m (.tap (.shiftCapture .ones 1 false)) ++ .tap .enterShiftDr :: s.trace

/-- The loop's index meets the count where `m` does. -/
theorem DrCounted.index_eq {m : Nat} (h : DrCounted s m t) : t.i = t.cnt ↔ m = s.cnt.toNat := by
  rw [← BitVec.toNat_inj, h.index, h.cnt]

/-- One more zero, within the count. -/
theorem DrCounted.succ {m : Nat} (h : DrCounted s m t) (hlen : s.cnt.toNat ≤ s.table.length) (hc : s.cnt.toNat ≤ 255)
    (hm : m < s.cnt.toNat) (hr : r.last 1 = false) : ∃ u, Takes t (.tap r) u ∧ DrCounted s (m + 1) u := by
  have hindex := h.index
  have htake := takes_drCount (r := r) h.phase
  rw [phaseDrCount_device (s := t.completeRequest _) hr (mt h.index_eq.1 (by omega))] at htake
  refine ⟨_, htake, h.phase, h.cnt, h.deviceCount, ?_, h.slots.succ (by omega) ?_, ?_⟩
  · show (t.i + 1#9).toNat = _
    rw [toNat_succ9 (by omega), hindex]
  · have hpre : t.i.setWidth 8 = BitVec.ofNat 8 m := by
      apply BitVec.eq_of_toNat_eq
      rw [BitVec.toNat_setWidth, BitVec.toNat_ofNat, hindex]
    have hpost : (s.cnt - t.i - 1#9).setWidth 8 = BitVec.ofNat 8 (s.cnt.toNat - m - 1) := by
      apply BitVec.eq_of_toNat_eq
      rw [BitVec.toNat_setWidth, BitVec.toNat_sub, BitVec.toNat_sub, hindex, BitVec.toNat_ofNat, BitVec.toNat_ofNat]
      omega
    rw [recordDr_table]
    show t.table.modify t.i.toNat
      (fun q => { q with drPrescan := t.i.setWidth 8, drPostscan := (t.cnt - t.i - 1#9).setWidth 8 }) = _
    rw [h.cnt, hpre, hpost, hindex]
    rfl
  · show Output.tap _ :: t.trace = _
    rw [h.trace]
    rfl

/-- The zeros of the DR pass, as many as devices or fewer (40_discovery.md R132). -/
theorem runs_drZeros {enter : TapResp} (hp : s.phase = .drEnter) (hlen : s.cnt.toNat ≤ s.table.length)
    (hc : s.cnt.toNat ≤ 255) (zeros : List TapResp) (hz : ∀ r ∈ zeros, r.last 1 = false)
    (hfew : zeros.length ≤ s.cnt.toNat) :
    ∃ t, Runs s (.tap enter :: zeros.map .tap) t ∧ DrCounted s zeros.length t := by
  obtain ⟨t, hrun, ht⟩ := runs_loop_tap (s := (s.completeRequest .enterShiftDr).phaseDrEnter) (DrCounted s) zeros
    (fun m hm u hu => hu.succ hlen hc (by omega) (hz _ (List.getElem_mem hm)))
    ⟨rfl, rfl, rfl, rfl, .zero _ rfl, rfl⟩
  exact ⟨t, .cons (takes_drEnter hp) hrun, ht⟩

/-- The exit of a DR pass that matches, and the device count (40_discovery.md R133). -/
theorem runs_drExit {q : TapResp} (hp : s.phase = .drExit) :
    Runs s [.tap r, .tap q] { s with
      deviceCount := s.cnt.setWidth 8, phase := .scPost
      tapCtl := contract (.returnIdle 1) (contract (.shift .ones 1 true) s.tapCtl)
      trace := .tap (.returnIdle 1) :: .tap (.shift .ones 1 true) :: s.trace } :=
  .cons (takes_drExit hp) (takes_drIdle rfl).runs

end Sys2Proof.Machine

open Sys2Proof Sys2Proof.Machine

/-- Settles O27: the five branches of `State.phaseIrProbe`. -/
theorem probeStep : Obligations.ProbeStep := by
  intro s resp rest hp hL hdev hpos hlen htab
  have hdevs := hL.devs_le
  have hirLen := hL.irLen_le
  have htab' : s.dev.toNat < s.table.length := by omega
  have hstep := takes_irProbe (r := resp) hp rest
  cases hr : resp.last 1
  · by_cases hfull : s.len.toNat = s.params.maxIrLen
    · rw [phaseIrProbe_irOverrun (s := s.completeRequest _) hr hirLen hfull] at hstep
      refine ⟨_, hstep, rfl, rfl, by simp, ?_⟩
      rw [if_pos hfull]
      exact ⟨rfl, rfl⟩
    · rw [phaseIrProbe_bit (s := s.completeRequest _) hr hirLen (Nat.lt_of_le_of_ne hlen hfull)] at hstep
      refine ⟨_, hstep, rfl, rfl, by simp, ?_⟩
      rw [if_neg hfull]
      exact ⟨by simp [hp], toNat_succ8 (x := s.len) (by omega), by simp, by simp⟩
  · simp only [if_true]
    by_cases hone : s.len = 1#8
    · rw [phaseIrProbe_end (s := s.completeRequest _) hr hone] at hstep
      refine ⟨_, hstep, rfl, rfl, ?_⟩
      rw [if_pos hone]
      exact ⟨rfl, by simp, by simp⟩
    · simp only [if_neg hone]
      by_cases hfull : s.dev.toNat = s.params.maxDevs
      · rw [phaseIrProbe_devOverrun (s := s.completeRequest _) hr hone hdevs hfull] at hstep
        refine ⟨_, hstep, rfl, rfl, ?_, fun a ha => ?_, ?_⟩
        · rw [slot_withEnv, slot_fail]
          exact slot_recordProbe_closed (s := s.completeRequest _) htab'
        · rw [slot_withEnv, slot_fail]
          exact slot_recordProbe_other (s := s.completeRequest _) ha
        · rw [if_pos hfull]
          exact ⟨rfl, rfl⟩
      · rw [phaseIrProbe_close (s := s.completeRequest _) hr hone hdevs (Nat.lt_of_le_of_ne hdev hfull)] at hstep
        refine ⟨_, hstep, rfl, rfl, ?_, fun a ha => ?_, ?_⟩
        · rw [slot_withEnv]
          exact slot_recordProbe_closed (s := s.completeRequest _) htab'
        · rw [slot_withEnv]
          exact slot_recordProbe_other (s := s.completeRequest _) ha
        · rw [if_neg hfull]
          exact ⟨by simp [hp], toNat_succ9 (x := s.dev) (by omega), by simp, by simp⟩

/-- Settles O26: the probe of the chain (`runs_probe`), and the filler's 1, which ends it. -/
theorem probedIrStage : Obligations.ProbedIrStage := by
  intro s first lens rest hp hL hlen hfit hrange
  obtain ⟨t, hrun, ht⟩ := runs_probe (first := first) hp hL hlen lens hfit hrange
  have hone : t.len = 1#8 := BitVec.eq_of_toNat_eq ht.bits
  have hend := takes_irProbe_end (r := bitResp true) ht.phase (bitResp_last _) hone
  have hsteps := (hrun.append hend.runs).runSteps rest
  rw [List.length_append, List.length_cons, List.length_map, length_flatMap_probeBits fun l hl => (hrange l hl).1,
    List.append_assoc] at hsteps
  have htrace := ht.trace
  rw [List.take_length] at htrace
  refine ⟨_, hsteps, rfl, ht.device, ?_, rfl, ?_, fun a ha => ?_, fun a ha => ?_⟩
  · show t.warnIr0 = _
    rw [ht.warn]
    exact ite_eq_or_not _ _
  · show Output.tap _ :: t.trace = _
    rw [htrace]
    show List.replicate (lens.sum + 1) _ ++ (_ :: s.trace) = _
    rw [List.replicate_succ' (n := lens.sum + 1), List.append_assoc]
    rfl
  · rw [slot_withEnv, slot_endIr, slot_completeRequest, ht.slots.slot, if_pos ha, List.getD_eq_getElem _ _ ha]
    rfl
  · rw [slot_withEnv, slot_endIr, slot_completeRequest, ht.slots.slot, if_neg (by omega)]
    rfl

/-- Settles O28: the zeros within the count (`runs_drZeros`), and then the 1 that matches it or comes too early, or the zero
that is too many. -/
theorem drCountPass : Obligations.DrCountPass := by
  intro s enter one exit idle zeros rest hp hL hlen hcnt hz hone
  have hdevs := hL.devs_le
  have hfit : s.cnt.toNat ≤ s.table.length := by omega
  refine ⟨fun heq => ?_, fun hlt => ?_, fun hgt => ?_⟩
  · obtain ⟨t, hrun, ht⟩ := runs_drZeros (enter := enter) hp hfit (by omega) zeros hz heq.le
    have htake := takes_drCount_match (r := one) ht.phase hone (ht.index_eq.2 heq)
    have hsteps := (hrun.append (.cons htake (runs_drExit (r := exit) (q := idle) rfl))).runSteps rest
    rw [List.length_append, List.length_cons, List.length_map, List.append_assoc] at hsteps
    refine ⟨_, hsteps, rfl, ?_, ?_, rfl, ?_, fun a => ?_⟩
    · show (t.cnt.setWidth 8).toNat = _
      rw [ht.cnt, BitVec.toNat_setWidth]
      omega
    · exact ht.cnt
    · show Output.tap _ :: Output.tap _ :: Output.tap _ :: t.trace = _
      rw [ht.trace]
      rfl
    · have hslot := ht.slots.slot a
      rw [heq] at hslot
      exact hslot
  · obtain ⟨t, hrun, ht⟩ := runs_drZeros (enter := enter) hp hfit (by omega) zeros hz hlt.le
    have htake := takes_drCount (r := one) ht.phase
    rw [phaseDrCount_few (s := t.completeRequest _) hone (mt ht.index_eq.1 hlt.ne)] at htake
    have hsteps := (hrun.append htake.runs).runSteps rest
    rw [List.length_append, List.length_cons, List.length_map, List.append_assoc] at hsteps
    refine ⟨_, hsteps, rfl, rfl, ht.deviceCount, rfl, ?_⟩
    show Output.tap _ :: t.trace = _
    rw [ht.trace]
    rfl
  · obtain ⟨init, last, rfl⟩ := (List.eq_nil_or_concat' zeros).resolve_left (by rintro rfl; cases hgt)
    rw [List.length_append, List.length_singleton] at hgt
    obtain ⟨t, hrun, ht⟩ := runs_drZeros (enter := enter) hp hfit (by omega) init (fun r hr => hz r (by simp [hr])) (by omega)
    have htake := takes_drCount (r := last) ht.phase
    rw [phaseDrCount_many (s := t.completeRequest _) (hz last (by simp)) (ht.index_eq.2 (by omega))] at htake
    have hsteps := (hrun.append htake.runs).runSteps rest
    rw [List.length_append, List.length_cons, List.length_map] at hsteps
    rw [List.map_append, List.length_append]
    refine ⟨_, hsteps, rfl, rfl, ht.deviceCount, rfl, ?_⟩
    show Output.tap _ :: t.trace = _
    rw [ht.trace]
    rfl
end

section
/-! SUPPORT. A scan that finds nothing, request by request (40_discovery.md R113, R143). -/
namespace Sys2Proof.Machine

variable {s t u : State} {r : TapResp} {qs : List TapReq} {q : TapReq}

/-! ### The moves of such a scan -/

/-- An all-ones response reads as the end of the IDCODE read-out (40_discovery.md R118). -/
theorem allOnes_idcode : (BitVec.allOnes 2048).setWidth 32 = all1 := by
  apply BitVec.eq_of_getLsbD_eq
  intro i hi
  have hi' : i < 2048 := by omega
  rw [show all1 = BitVec.allOnes 32 by decide, BitVec.getLsbD_setWidth, BitVec.getLsbD_allOnes, BitVec.getLsbD_allOnes]
  simp [hi, hi']

/-- And as a captured 1. -/
theorem allOnes_bit : (BitVec.allOnes 2048).getLsbD (1 - 1) = true := by
  simp

/-- Without hints the IR stage is the probe (40_discovery.md R127). -/
theorem takes_irEnter_probed (hp : s.phase = .irEnter) (hh : s.hinted = false) :
    Takes s (.tap r) (s.passed .enterShiftIr .irFirst) := by
  have h := takes_irEnter (r := r) hp
  rwa [show (s.completeRequest .enterShiftIr).phaseIrEnter = s.passed .enterShiftIr .irFirst from
    if_neg (Bool.eq_false_iff.1 hh)] at h

/-- A first captured bit that is 1 warns of nothing (40_discovery.md R125). -/
theorem takes_irFirst_one (hp : s.phase = .irFirst) (hr : r.last 1 = true) :
    Takes s (.tap r) { s.completeRequest (.shiftCapture .ones 1 false) with
      dev := 0#9, len := 1#8, pre := 0#16, phase := .irProbe } := by
  have h := takes_irFirst (r := r) hp
  unfold State.phaseIrFirst at h
  rwa [if_pos hr] at h

/-! ### The scan -/

theorem Runs.snoc {n : Nat} (h : Runs s (List.replicate n (.tap r)) t) (hm : Takes t (.tap r) u) :
    Runs s (List.replicate (n + 1) (.tap r)) u := by
  rw [List.replicate_succ']
  exact h.append hm.runs

/-- Where `s` stands after the requests `qs`, the latest first, each answered by `r`: the scan has found nothing. -/
structure Barren (s : State) (r : TapResp) (qs : List TapReq) (t : State) : Prop where
  run : Runs s (List.replicate qs.length (.tap r)) t
  hinted : t.hinted = false
  warn : t.warnIr0 = false
  slots : ∀ a, t.slot a = DevRec.zero
  ctl : t.tapCtl = qs.foldr contract s.tapCtl
  trace : t.trace = qs.map .tap ++ s.trace

/-- One more request, whose phase writes no more than its working registers, `tap_ready` and the device count. -/
theorem Barren.next (h : Barren s r qs t) (hm : Takes t (.tap r) u) (hu : u = { t.completeRequest q with
      phase := u.phase, tapReady := u.tapReady, n := u.n, dev := u.dev, len := u.len, pre := u.pre, cnt := u.cnt
      i := u.i, deviceCount := u.deviceCount }) : Barren s r (q :: qs) u where
  run := h.run.snoc hm
  hinted := (congrArg State.hinted hu).trans h.hinted
  warn := (congrArg State.warnIr0 hu).trans h.warn
  slots a := (congrArg (State.slot · a) hu).trans (h.slots a)
  ctl := (congrArg State.tapCtl hu).trans (congrArg (contract q) h.ctl)
  trace := (congrArg State.trace hu).trans (congrArg (Output.tap q :: ·) h.trace)

theorem Barren.passed {p : Phase} (h : Barren s r qs t) (hm : Takes t (.tap r) (t.passed q p)) :
    Barren s r (q :: qs) (t.passed q p) := h.next hm rfl

@[simp] theorem passed_cnt (p : Phase) : (s.passed q p).cnt = s.cnt := rfl

/-- The reset and the IDCODE pass (40_discovery.md R117 to R120). -/
theorem Barren.idPass (h : Barren s r qs t) (hp : t.phase = .scReset) (hr : r.tdo.setWidth 32 = all1) :
    ∃ u, Barren s r
      (.returnIdle 1 :: .shift .ones 1 true :: .shiftCapture .ones 32 false :: .enterShiftDr :: .reset :: qs) u ∧
      u.phase = .irEnter := by
  have h1 := h.passed (takes_scReset hp)
  have h2 := h1.next (q := .enterShiftDr) (takes_idEnter rfl) rfl
  have h3 := h2.passed (takes_idShift_end rfl hr)
  have h4 := h3.passed (takes_idExit rfl)
  exact ⟨_, h4.passed (takes_idIdle rfl), rfl⟩

/-- The IR probe (40_discovery.md R122, R127, R129, R131). -/
theorem Barren.irPass (h : Barren s r qs t) (hp : t.phase = .irEnter) (hr : r.last 1 = true) :
    ∃ u, Barren s r (.returnIdle 1 :: .shift .ones 1 true :: .shiftCapture .ones 1 false :: .shiftCapture .ones 1 false ::
      .enterShiftIr :: qs) u ∧ u.phase = .drEnter ∧ u.cnt = 0#9 := by
  have h1 := h.passed (takes_irEnter_probed hp h.hinted)
  have h2 := h1.next (q := .shiftCapture .ones 1 false) (takes_irFirst_one rfl hr) rfl
  have h3 := h2.next (q := .shiftCapture .ones 1 false) (takes_irProbe_end rfl hr rfl) rfl
  have h4 := h3.passed (takes_irExit rfl)
  exact ⟨_, h4.passed (takes_irIdle rfl), rfl, by rw [passed_cnt, passed_cnt, endIr_cnt]⟩

/-- DR_IDLE writes a device count of 0 (40_discovery.md R133). -/
theorem Barren.drIdle (h : Barren s r qs t) (hp : t.phase = .drIdle) (hc : t.cnt = 0#9) :
    ∃ u, Barren s r (.returnIdle 1 :: qs) u ∧ u.phase = .scPost ∧ u.cnt = 0#9 ∧ u.deviceCount = 0#8 := by
  refine ⟨_, h.next (takes_drIdle hp) rfl, rfl, hc, ?_⟩
  show t.cnt.setWidth 8 = _
  rw [hc]
  rfl

/-- The DR pass (40_discovery.md R132, R133). -/
theorem Barren.drPass (h : Barren s r qs t) (hp : t.phase = .drEnter) (hc : t.cnt = 0#9) (hr : r.last 1 = true) :
    ∃ u, Barren s r (.returnIdle 1 :: .shift .ones 1 true :: .shiftCapture .ones 1 false :: .enterShiftDr :: qs) u ∧
      u.phase = .scPost ∧ u.cnt = 0#9 ∧ u.deviceCount = 0#8 := by
  have h1 := h.next (q := .enterShiftDr) (takes_drEnter hp) rfl
  have h2 := h1.passed (takes_drCount_match rfl hr hc.symm)
  have h3 := h2.passed (takes_drExit rfl)
  exact h3.drIdle rfl (by simpa [State.phaseDrEnter] using hc)

/-- The core's turn at the end, with no device to classify (40_discovery.md R141). -/
theorem takes_scPost_none (hp : s.phase = .scPost) (hc : s.cnt = 0#9) :
    Takes s .core { s with j := 0#9, result := 0#32, err := .none, phase := .idle } := by
  have h := takes_scPost hp
  rwa [phaseScPost_eq, if_pos hc] at h

/-- The requests of a scan that finds nothing, the latest first, after INIT (40_discovery.md R143). -/
def barrenRequests : List TapReq :=
  [.returnIdle 1, .shift .ones 1 true, .shiftCapture .ones 1 false, .enterShiftDr,
   .returnIdle 1, .shift .ones 1 true, .shiftCapture .ones 1 false, .shiftCapture .ones 1 false, .enterShiftIr,
   .returnIdle 1, .shift .ones 1 true, .shiftCapture .ones 32 false, .enterShiftDr, .reset]

/-- The three passes, from SC_RESET to SC_POST. -/
theorem Barren.passes (h : Barren s r qs t) (hp : t.phase = .scReset) (hid : r.tdo.setWidth 32 = all1)
    (hr : r.last 1 = true) :
    ∃ u, Barren s r (barrenRequests ++ qs) u ∧ u.phase = .scPost ∧ u.cnt = 0#9 ∧ u.deviceCount = 0#8 := by
  obtain ⟨u, hu, hpu⟩ := h.idPass hp hid
  obtain ⟨v, hv, hpv, hcv⟩ := hu.irPass hpu hr
  exact hv.drPass hpv hcv hr

/-- SC_CLEAR and INIT, if it is due, leave a scan that has found nothing, in SC_RESET (40_discovery.md R114 to R116). -/
theorem barren_start (hh : s.hinted = false) (hok : r.ok = true) :
    ∃ t, Barren s.phaseScClear r (if s.tapReady then [] else [.init]) t ∧ t.phase = .scReset := by
  have hslots : ∀ a, s.phaseScClear.slot a = DevRec.zero := slot_clearTable (s.emit .downstreamRelease)
  have h0 : Barren s.phaseScClear r [] s.phaseScClear := ⟨.nil, hh, rfl, hslots, rfl, rfl⟩
  cases hr : s.tapReady
  · have hp : s.phaseScClear.phase = .scInit := by simp [State.phaseScClear, hr]
    have hinit := takes_scInit (r := r) hp hr
    rw [phaseScInit_ready (s := s.phaseScClear) hr hok] at hinit
    exact ⟨_, h0.next (q := .init) hinit rfl, rfl⟩
  · exact ⟨_, h0, by simp [State.phaseScClear, hr]⟩

/-- A scan from SC_CLEAR to its end that finds nothing (40_discovery.md R143). -/
theorem runs_barren (hh : s.hinted = false) (hok : r.ok = true) (hid : r.tdo.setWidth 32 = all1) (hr : r.last 1 = true)
    (hp : s.phase = .scClear) :
    ∃ t, Barren s.phaseScClear r (barrenRequests ++ if s.tapReady then [] else [.init]) t ∧ t.deviceCount = 0#8 ∧
      Runs s (.core :: (List.replicate (if s.tapReady then 14 else 15) (.tap r) ++ [.core]))
        { t with j := 0#9, result := 0#32, err := .none, phase := .idle } := by
  obtain ⟨t, ht, hpt⟩ := barren_start (r := r) hh hok
  obtain ⟨u, hu, hpu, hcu, hdu⟩ := ht.passes hpt hid hr
  have hlen : (barrenRequests ++ if s.tapReady then [] else [TapReq.init]).length = if s.tapReady then 14 else 15 := by
    cases s.tapReady <;> rfl
  refine ⟨u, hu, hdu, .cons (takes_scClear hp) ?_⟩
  rw [← hlen]
  exact hu.run.append (takes_scPost_none hpu hcu).runs

end Sys2Proof.Machine

open Sys2Proof Sys2Proof.Machine

/-- Settles O32: acceptance of SCAN and the run of `runs_barren`. -/
theorem emptyChainSucceeds : Obligations.EmptyChainSucceeds := by
  intro s rest hp _
  have haccept : Takes s (.host (.store .word s.params.windowBase 0x00000001#32)) (s.started 0x00000001#32 .scClear) :=
    fun rest => step_cmd.trans ((storeCmd_legal (by decide)).trans (scansStart (s.withEnv rest) hp).1)
  have hhinted : (s.started 0x00000001#32 .scClear).hinted = false :=
    show decide (opcOf 0x00000001#32 = 0x02#8) = false by decide
  obtain ⟨t, ht, hcount, hrun⟩ := runs_barren (r := { ok := true, tdo := BitVec.allOnes 2048 }) hhinted rfl
    allOnes_idcode allOnes_bit rfl
  have hsteps := (Runs.cons haccept hrun).runSteps rest
  rw [List.cons_append, List.cons_append, List.append_assoc] at hsteps
  rw [List.length_cons, List.length_cons, List.length_append, List.length_replicate] at hsteps
  have hcounts : (if s.tapReady then 17 else 18) = (if s.tapReady then 14 else 15) + 1 + 1 + 1 := by
    cases s.tapReady <;> rfl
  rw [hcounts]
  refine ⟨_, hsteps, rfl, rfl, rfl, hcount, ht.warn, ht.slots, ?_, rfl, ?_⟩
  · exact ht.ctl.trans (by rw [List.foldr_append]; rfl)
  · refine ht.trace.trans (congrArg (· ++ Output.downstreamRelease :: s.trace) ?_)
    show List.map _ (_ ++ if s.tapReady then _ else _) = _
    cases s.tapReady <;> rfl
end

section
/-! SUPPORT. The acceptance of the addressed commands (41_addressed_access.md R160 to R169): which of their outcomes each guard
leads to, and the caches of WRITE_IR (R161 to R163), of which a step leaves at most one known. -/
namespace Sys2Proof.Machine

variable {s t : State} {idx : Nat}

/-! ### At most one cache is known -/

/-- Where no cache becomes known, at most one stays known. -/
theorem oneKnown_of_known (h : s.OneKnown) (hk : ∀ a, (t.slot a).curKnown = true → (s.slot a).curKnown = true) :
    t.OneKnown := fun a b ha hb => h a b (hk a ha) (hk b hb)

/-- Filling the caches leaves the target's alone known (41_addressed_access.md R163). -/
theorem fillCache_oneKnown (idx : Nat) (v : Word) : (s.fillCache idx v).OneKnown := fun _ _ ha hb =>
  (fillCache_known ha).1.symm.trans (fillCache_known hb).1

theorem Accepted.oneKnown {i : Instr} (ha : Accepted s i t) (h : s.OneKnown) : t.OneKnown := by
  cases ha with
  | writeIr _ idx _ _ => exact fillCache_oneKnown (s := s.latch (encode i)) idx s.arg
  | _ => exact h

theorem Moved.oneKnown (hm : Moved s t) (h : s.OneKnown) : t.OneKnown := by
  cases hm with
  | internal _ hstep => exact oneKnown_of_known h fun a hk => ((phase_rec hstep a).known hk).1
  | tap q _ _ hstep =>
    exact oneKnown_of_known (s := s.completeRequest q) h fun a hk => ((phase_rec hstep a).known hk).1
  | command _ _ ha => exact ha.oneKnown h
  | illegal w => obtain he | ⟨-, he⟩ := acceptIllegal_cases s w <;> rw [he] <;> exact h
  | hint _ q v =>
    obtain ⟨_, he⟩ := storeHintBytes_frame s ..
    rw [he]
    exact h
  | _ => exact h

/-! ### What acceptance of an indexed command leads to -/

/-- A command that both modes allow runs, where the block accepts commands (60_exceptions.md R213). -/
theorem accept_allowed (hA : s.Accepting) {c : Instr} (ha : allowed c .idle = true ∧ allowed c .hook = true)
    (run : State → State) : s.accept c run = run (s.latch (encode c)) := by
  refine accept_run (mode_ne_busy.2 hA) ?_ run
  obtain hp | hp := hA
  · rw [mode_eq_idle.2 hp]; exact ha.1
  · rw [mode_eq_hook.2 hp]; exact ha.2

/-- On a live device an indexed command runs its body. -/
theorem accept_live (hA : s.Accepting) (hi : idx < s.deviceCount.toNat) {c : Instr}
    (ha : allowed c .idle = true ∧ allowed c .hook = true) (body : State → State) :
    s.accept c (·.indexed idx body) = body (s.latch (encode c)) :=
  (accept_allowed hA ha _).trans (indexed_live hi body)

/-- On any other index it is refused (41_addressed_access.md R165). -/
theorem accept_dead (hA : s.Accepting) (hi : s.deviceCount.toNat ≤ idx) {c : Instr}
    (ha : allowed c .idle = true ∧ allowed c .hook = true) (body : State → State) :
    s.accept c (·.indexed idx body) = s.answered (encode c) 0#32 .badIndex :=
  (accept_allowed hA ha _).trans ((indexed_dead hi body).trans (reject_eq hA _ _))

/-! ### WRITE_IR -/

theorem cacheHit_iff {r : DevRec} {v : Word} : r.cacheHit v = true ↔ r.curKnown = true ∧ r.currentIr = v := by
  simp [DevRec.cacheHit]

theorem execWriteIr_hit (hA : s.Accepting) (hi : idx < s.deviceCount.toNat)
    (hc : (s.slot idx).curKnown = true ∧ (s.slot idx).currentIr = s.arg) :
    exec (.writeIr idx) s = .next (s.answered (encode (.writeIr idx)) 0#32 .none) := by
  refine congrArg Host.Outcome.next ((accept_live hA hi ⟨rfl, rfl⟩ _).trans ?_)
  exact (if_pos (cacheHit_iff.2 hc)).trans (complete_eq hA ..)

/-- The state a WRITE_IR that misses leaves its acceptance step in: started, with the caches filled (R161, R163). -/
def State.filled (s : State) (idx : Nat) : State :=
  { s.started (encode (.writeIr idx)) .wiEnter with table := (s.fillCache idx s.arg).table }

theorem execWriteIr_miss (hA : s.Accepting) (hi : idx < s.deviceCount.toNat)
    (hc : (s.slot idx).curKnown = false ∨ (s.slot idx).currentIr ≠ s.arg) :
    exec (.writeIr idx) s = .next (s.filled idx) := by
  have hmiss : ¬(s.slot idx).cacheHit s.arg = true := fun h => by
    obtain ⟨hknown, hvalue⟩ := cacheHit_iff.1 h
    exact hc.elim (fun hu => absurd (hu.symm.trans hknown) Bool.false_ne_true) (absurd hvalue)
  refine congrArg Host.Outcome.next ((accept_live hA hi ⟨rfl, rfl⟩ _).trans ((if_neg hmiss).trans ?_))
  unfold State.filled
  rw [← started_eq]
  rfl

/-- The records after a WRITE_IR that misses: nothing but the caches has changed (41_addressed_access.md R163). -/
theorem slot_filled {a : Nat} (ha : a < s.table.length) :
    (s.filled idx).slot a = if a = idx then { s.slot a with currentIr := s.arg, curKnown := true }
      else { s.slot a with curKnown := false } := by
  have h : (s.filled idx).slot a = (s.fillCache idx s.arg).slot a := rfl
  have htarget : (idx = a ∧ a < s.table.length) ↔ a = idx := by omega
  rw [h, slot_fillCache]
  simp only [htarget]
  rfl

/-- Either way the target's cache holds ARG when the acceptance step ends. -/
theorem execWriteIr_holds (hA : s.Accepting) (hi : idx < s.deviceCount.toNat) (hlen : idx < s.table.length)
    (h : exec (.writeIr idx) s = .next t) : (t.slot idx).curKnown = true ∧ (t.slot idx).currentIr = s.arg := by
  by_cases hc : (s.slot idx).curKnown = true ∧ (s.slot idx).currentIr = s.arg
  · cases (execWriteIr_hit hA hi hc).symm.trans h
    exact hc
  · have hmiss : (s.slot idx).curKnown = false ∨ (s.slot idx).currentIr ≠ s.arg := by
      simpa only [Decidable.not_and_iff_or_not, Bool.not_eq_true] using hc
    cases (execWriteIr_miss hA hi hmiss).symm.trans h
    rw [slot_filled hlen, if_pos rfl]
    exact ⟨rfl, rfl⟩

/-- Of another device's cache a WRITE_IR clears at most the known bit (41_addressed_access.md R163). -/
theorem fillCache_other {a : Nat} (v : Word) (ha : a ≠ idx) : (s.fillCache idx v).slot a = (s.slot a).forget := by
  rw [slot_fillCache, if_neg fun h => ha h.1.symm]

/-! ### SHIFT_DR -/

theorem execShiftDr_starts {nbits : Nat} (cap : Bool) (hA : s.Accepting) (hi : idx < s.deviceCount.toNat) (h1 : 1 ≤ nbits)
    (h2 : nbits ≤ s.params.maxDrBits) :
    exec (.shiftDr idx nbits cap) s = .next (s.started (encode (.shiftDr idx nbits cap)) .sdEnter) := by
  have hbits : ¬(nbits = 0 ∨ s.params.maxDrBits < nbits) := by omega
  refine congrArg Host.Outcome.next ((accept_live hA hi ⟨rfl, rfl⟩ _).trans ?_)
  exact (if_neg hbits).trans (started_eq ..)

theorem execShiftDr_badNbits {nbits : Nat} (cap : Bool) (hA : s.Accepting) (hi : idx < s.deviceCount.toNat)
    (h : nbits = 0 ∨ s.params.maxDrBits < nbits) :
    exec (.shiftDr idx nbits cap) s = .next (s.answered (encode (.shiftDr idx nbits cap)) 0#32 .badNbits) := by
  refine congrArg Host.Outcome.next ((accept_live hA hi ⟨rfl, rfl⟩ _).trans ?_)
  exact (if_pos h).trans (reject_eq hA ..)

end Sys2Proof.Machine

open Sys2Proof Sys2Proof.Machine

/-- Settles O38: RST forgets every cache, and of the other moves a fill alone makes one known (`Moved.oneKnown`). -/
theorem stepKeepsOneKnownCache : Obligations.StepKeepsOneKnownCache := by
  intro s t h hstep
  obtain ⟨-, rfl⟩ | ⟨-, hm⟩ := step_cases hstep
  · intro a b ha _
    rw [blockReset_slot] at ha
    exact absurd ha Bool.false_ne_true
  · exact hm.oneKnown h

/-- Settles O16: the acceptance step of a miss ends in `State.filled`, whose records are those of `slot_filled`. -/
theorem cacheMissFillsAndStarts : Obligations.CacheMissFillsAndStarts := by
  intro s idx hA hi hc
  have hlen : (s.filled idx).table.length = s.table.length := by
    rw [show (s.filled idx).table = (s.table.map DevRec.forget).modify idx _ from rfl, List.length_modify, List.length_map]
  exact ⟨_, execWriteIr_miss hA hi hc, rfl, hlen, fun a ha => slot_filled ha⟩

/-- Settles O21: no outcome of an acceptance step (`exec_cases`) writes more, and a record changes by a fill of the caches
alone (`Accepted.slot`). -/
theorem writeIrFrame : Obligations.WriteIrFrame := by
  intro s t idx h
  obtain ⟨u, hu, ha⟩ := exec_cases (.writeIr idx) s
  cases hu.symm.trans h
  refine ⟨?_, ?_, fun a => ?_, fun k => ?_⟩
  · cases ha with
    | scan _ hi => rcases hi with hi | hi <;> cases hi
    | hookDone _ hi => cases hi
    | _ => rfl
  · cases ha with
    | writeIr _ _ _ _ => exact (List.length_modify ..).trans (List.length_map ..)
    | _ => rfl
  · obtain he | ⟨_, hi, he⟩ := ha.slot a
    · rw [he]
      exact ⟨⟨rfl, rfl, rfl, rfl, rfl, rfl⟩, rfl, rfl, fun _ => ⟨rfl, id⟩⟩
    · cases hi
      obtain ⟨hscan, hvalid, hindex⟩ := fillCache_sameScan (s := s) idx a s.arg
      rw [he]
      refine ⟨hscan, hvalid, hindex, fun hne => ?_⟩
      rw [fillCache_other s.arg hne]
      exact ⟨rfl, (absurd · Bool.false_ne_true)⟩
  · cases ha <;> exact ⟨rfl, rfl, rfl⟩

/-- Settles O11: SHIFT_DR checks its bit count on a live device, and every indexed command its index (`accept_dead`). -/
theorem badOperandsAreRefused : Obligations.BadOperandsAreRefused := by
  refine ⟨fun s idx nbits cap hA hi h => execShiftDr_badNbits cap hA hi h, fun s idx nbits cap hA hi => ?_⟩
  and_intros <;> exact congrArg Host.Outcome.next (accept_dead hA hi ⟨rfl, rfl⟩ _)

/-- Settles O15: a known cache that holds ARG hits, an unknown one misses, and after a WRITE_IR the target's cache holds
ARG (`execWriteIr_holds`). -/
theorem cacheHitIsImmediate : Obligations.CacheHitIsImmediate := by
  intro s idx hA hi
  refine ⟨fun hk hv => execWriteIr_hit hA hi ⟨hk, hv⟩, fun hu => ⟨_, execWriteIr_miss hA hi (.inl hu), rfl⟩,
    fun t u h htable hcount harg hAu hlen => ?_⟩
  have hholds := execWriteIr_holds hA hi hlen h
  refine execWriteIr_hit hAu (hcount ▸ hi) ?_
  rw [slot_congr htable, harg]
  exact hholds

/-- Settles O17 (`execShiftDr_starts`). -/
theorem shiftDrStarts : Obligations.ShiftDrStarts := fun _ _ _ cap hA hi h1 h2 => execShiftDr_starts cap hA hi h1 h2

end

section
/-! SUPPORT. The phases of an addressed command (41_addressed_access.md R161, R167), request by request: each passes on to the
next, whatever the driver answers, and the last one completes the command. -/
namespace Sys2Proof.Machine

variable {s t u : State} {r : TapResp} {rs : List TapResp} {qs qs' : List TapReq} {q : TapReq} {p p' : Phase}

/-! ### Requests that the driver answers one after another -/

/-- Where the requests `qs`, the earliest first, leave the TAP controllers (20_memory.md R75). -/
def ctlAfter (qs : List TapReq) (c : TapCtl) : TapCtl := qs.foldl (fun c q => contract q c) c

/-- `s` in phase `p`, once the requests `qs`, the earliest first, are completed and nothing else has changed. -/
def State.issued (s : State) (qs : List TapReq) (p : Phase) : State :=
  { s with phase := p, tapCtl := ctlAfter qs s.tapCtl, trace := (qs.map .tap).reverse ++ s.trace }

theorem issued_issued : (s.issued qs p).issued qs' p' = s.issued (qs ++ qs') p' := by
  simp [State.issued, ctlAfter]

/-- The phases from `s` to phase `p` do no more than issue the requests `qs`, whatever the driver answers. -/
def Passes (s : State) (qs : List TapReq) (p : Phase) : Prop :=
  ∀ rs : List TapResp, rs.length = qs.length → Runs s (rs.map .tap) (s.issued qs p)

theorem Passes.nil (hp : s.phase = p) : Passes s [] p := by
  intro rs hlen
  subst hp
  rw [List.eq_nil_of_length_eq_zero hlen]
  exact .nil

theorem Passes.one (h : ∀ r, Takes s (.tap r) (s.passed q p)) : Passes s [q] p := by
  intro rs hlen
  obtain ⟨r, rfl⟩ := List.length_eq_one_iff.1 hlen
  exact (h r).runs

theorem Passes.append (h : Passes s qs p) (h' : Passes (s.issued qs p) qs' p') : Passes s (qs ++ qs') p' := by
  intro rs hlen
  rw [List.length_append] at hlen
  have h1 := h (rs.take qs.length) (by rw [List.length_take]; omega)
  have h2 := h' (rs.drop qs.length) (by rw [List.length_drop]; omega)
  rw [← List.take_append_drop qs.length rs, List.map_append, ← issued_issued]
  exact h1.append h2

/-- The requests of a trace that begins with completed requests. -/
theorem tapRequests_append (qs : List TapReq) (trace : List Output) :
    tapRequests (qs.map .tap ++ trace) = qs ++ tapRequests trace := by
  induction qs with
  | nil => rfl
  | cons q qs ih => exact congrArg (q :: ·) ih

/-! ### The requests of an addressed command -/

/-- Padding by the other devices' bits: none issues no request (00_scope.md R12). -/
def padding {w : Nat} (x : BitVec w) (exit : Bool) : List TapReq :=
  if x = 0#w then [] else [.shift .ones x.toNat exit]

theorem length_padding {w : Nat} (x : BitVec w) (exit : Bool) : (padding x exit).length = if x = 0#w then 0 else 1 := by
  unfold padding
  split <;> rfl

/-- A padding phase is skipped where there is nothing to pad. -/
theorem passes_padding {w : Nat} {x : BitVec w} {exit : Bool} (hp : s.phase = if x = 0#w then p' else p)
    (h : s.phase = p → x ≠ 0#w → ∀ r, Takes s (.tap r) (s.passed (.shift .ones x.toNat exit) p')) :
    Passes s (padding x exit) p' := by
  unfold padding
  by_cases hx : x = 0#w
  · rw [if_pos hx] at hp ⊢
    exact .nil hp
  · rw [if_neg hx] at hp ⊢
    exact .one (h hp hx)

theorem shiftOnes_ne_zero {w : Nat} {x : BitVec w} (hx : x ≠ 0#w) (exit : Bool) :
    shiftOnes x.toNat exit = some (.shift .ones x.toNat exit) :=
  if_neg fun h0 => hx (BitVec.eq_of_toNat_eq h0)

/-- An addressed command's requests, the earliest first: the entry, the leading padding, the shift of the value or the data, the
trailing padding and the return (41_addressed_access.md R161, R167). -/
def addressedRequests {v w : Nat} (enter : TapReq) (pre : BitVec v) (main : TapReq) (post : BitVec w) : List TapReq :=
  enter :: (padding pre false ++ main :: (padding post true ++ [.returnIdle 1]))

/-- They start from Run-Test/Idle and end there, where the last shift of the padded value or data exits. -/
theorem ctlAfter_addressed {v w : Nat} {pre : BitVec v} {post : BitVec w} {enter main : TapReq} {c : TapCtl}
    (hc : c = .shiftIr ∨ c = .shiftDr) (henter : contract enter .runTestIdle = c)
    (hmain : contract main c = shiftCtl (decide (post = 0#w)) c) :
    ctlAfter (addressedRequests enter pre main post) .runTestIdle = .runTestIdle := by
  have hpre : ctlAfter (padding pre false) c = c := by
    unfold padding
    split
    · rfl
    · obtain rfl | rfl := hc <;> rfl
  have hpost : contract (.returnIdle 1) (ctlAfter (padding post true) (shiftCtl (decide (post = 0#w)) c)) = .runTestIdle := by
    unfold padding
    by_cases hx : post = 0#w
    · rw [if_pos hx, decide_eq_true hx]
      obtain rfl | rfl := hc <;> rfl
    · rw [if_neg hx, decide_eq_false hx]
      obtain rfl | rfl := hc <;> rfl
  unfold ctlAfter at hpre hpost ⊢
  simp only [addressedRequests, List.foldl_append, List.foldl_cons, List.foldl_nil, henter, hpre, hmain, hpost]

/-! ### The phases of WRITE_IR (41_addressed_access.md R161) -/

theorem takes_wiEnter (hp : s.phase = .wiEnter) : Takes s (.tap r) (s.passed .enterShiftIr s.afterWiEnter) :=
  takes_tap .enterShiftIr (by simp [State.tapRequest, hp]) (by simp [hp])
    (by simp only [State.phaseStep, completeRequest_phase, hp]; rfl)

theorem takes_wiPre (hp : s.phase = .wiPre) (hx : s.target.irPrescan ≠ 0#16) :
    Takes s (.tap r) (s.passed (.shift .ones s.target.irPrescan.toNat false) s.afterWiPre) :=
  takes_tap _ (by simp only [State.tapRequest, hp]; exact shiftOnes_ne_zero hx false) (by simp [hp])
    (by simp only [State.phaseStep, completeRequest_phase, hp]; rfl)

/-- The request of WI_VAL. -/
def State.valueShift (s : State) : TapReq :=
  .shift (.vec s.irVector) s.target.irLength.toNat (decide (s.target.irPostscan = 0#16))

theorem contract_valueShift (s : State) (c : TapCtl) :
    contract s.valueShift c = shiftCtl (decide (s.target.irPostscan = 0#16)) c := rfl

theorem takes_wiVal (hp : s.phase = .wiVal) (hx : s.target.irLength ≠ 0#8) :
    Takes s (.tap r) (s.passed s.valueShift s.afterWiVal) :=
  takes_tap _ (by simp only [State.tapRequest, hp]; exact if_neg hx) (by simp [hp])
    (by simp only [State.phaseStep, completeRequest_phase, hp]; rfl)

theorem takes_wiPost (hp : s.phase = .wiPost) (hx : s.target.irPostscan ≠ 0#16) :
    Takes s (.tap r) (s.passed (.shift .ones s.target.irPostscan.toNat true) .wiIdle) :=
  takes_tap _ (by simp only [State.tapRequest, hp]; exact shiftOnes_ne_zero hx true) (by simp [hp])
    (by simp only [State.phaseStep, completeRequest_phase, hp]; rfl)

/-- From WI_ENTER to the value shift. -/
theorem passes_wiLead (hp : s.phase = .wiEnter) :
    Passes s ([.enterShiftIr] ++ padding s.target.irPrescan false) s.afterWiPre :=
  (Passes.one fun _ => takes_wiEnter hp).append
    (passes_padding (s := s.issued _ s.afterWiEnter) rfl fun hp hx _ => takes_wiPre hp hx)

/-- From the value shift to WI_IDLE. -/
theorem passes_wiTail (hp : s.phase = s.afterWiPre) (hl : s.target.irLength ≠ 0#8) :
    Passes s ([s.valueShift] ++ padding s.target.irPostscan true) .wiIdle :=
  (Passes.one fun _ => takes_wiVal (hp.trans (if_neg hl)) hl).append
    (passes_padding (s := s.issued _ s.afterWiVal) rfl fun hp hx _ => takes_wiPost hp hx)

/-! ### The phases of SHIFT_DR (41_addressed_access.md R167, R168) -/

theorem takes_sdEnter (hp : s.phase = .sdEnter) : Takes s (.tap r) (s.passed .enterShiftDr s.afterSdEnter) :=
  takes_tap .enterShiftDr (by simp [State.tapRequest, hp]) (by simp [hp])
    (by simp only [State.phaseStep, completeRequest_phase, hp]; rfl)

theorem takes_sdPre (hp : s.phase = .sdPre) (hx : s.target.drPrescan ≠ 0#8) :
    Takes s (.tap r) (s.passed (.shift .ones s.target.drPrescan.toNat false) s.afterSdPre) :=
  takes_tap _ (by simp only [State.tapRequest, hp]; exact shiftOnes_ne_zero hx false) (by simp [hp])
    (by simp only [State.phaseStep, completeRequest_phase, hp]; rfl)

/-- The request of SD_DATA for the vector `v`: a capture with CAP, else a shift (41_addressed_access.md R167). -/
def dataShift (cap : Bool) (v : Vec) (nbits : Nat) (exit : Bool) : TapReq :=
  if cap then .shiftCapture (.vec v) nbits exit else .shift (.vec v) nbits exit

theorem contract_dataShift (cap : Bool) (v : Vec) (nbits : Nat) (exit : Bool) (c : TapCtl) :
    contract (dataShift cap v nbits exit) c = shiftCtl exit c := by
  cases cap <;> rfl

theorem dataRequest_eq {v : Vec} (hv : s.dinVector = some v) (hn : s.oplNbits ≠ 0) :
    s.dataRequest = some (dataShift s.oplCap v s.oplNbits (decide (s.target.drPostscan = 0#8))) := by
  unfold State.dataRequest dataShift
  rw [if_neg hn, hv]
  exact (apply_ite some ..).symm

/-- SD_DATA takes the captured bits as they were drawn, if the bus has room for them. -/
theorem takes_sdData {v : Vec} (hp : s.phase = .sdData) (hv : s.dinVector = some v) (hn : s.oplNbits ≠ 0)
    (hbus : s.oplNbits ≤ s.params.busWidth) : Takes s (.tap r) ((s.captureDout r).passed
      (dataShift s.oplCap v s.oplNbits (decide (s.target.drPostscan = 0#8))) s.afterSdData) := by
  intro rest
  have hq : s.tapRequest = s.dataRequest := by simp only [State.tapRequest, hp]
  refine (step_draw r (hq.trans (dataRequest_eq hv hn)) fun _ => hbus).trans ?_
  refine phaseStep_withEnv (s := s.completeRequest _) rest ?_
  have hv' : ∀ q, (s.completeRequest q).dinVector = some v := fun _ => hv
  simp only [State.phaseStep, completeRequest_phase, hp, State.phaseSdData, hv']
  rfl

theorem takes_sdPost (hp : s.phase = .sdPost) (hx : s.target.drPostscan ≠ 0#8) :
    Takes s (.tap r) (s.passed (.shift .ones s.target.drPostscan.toNat true) .sdIdle) :=
  takes_tap _ (by simp only [State.tapRequest, hp]; exact shiftOnes_ne_zero hx true) (by simp [hp])
    (by simp only [State.phaseStep, completeRequest_phase, hp]; rfl)

/-- From SD_ENTER to the data shift. -/
theorem passes_sdLead (hp : s.phase = .sdEnter) :
    Passes s ([.enterShiftDr] ++ padding s.target.drPrescan false) s.afterSdPre :=
  (Passes.one fun _ => takes_sdEnter hp).append
    (passes_padding (s := s.issued _ s.afterSdEnter) rfl fun hp hx _ => takes_sdPre hp hx)

/-- From the data shift to SD_IDLE. -/
theorem passes_sdTail (hp : s.phase = s.afterSdData) : Passes s (padding s.target.drPostscan true) .sdIdle :=
  passes_padding hp fun hp hx _ => takes_sdPost hp hx

/-! ### From acceptance to completion -/

/-- The store to CMD that issues a command (20_memory.md R72). -/
theorem takes_command {i : Instr} (hw : i.wellFormed = true)
    (h : ∀ e, exec i (s.withEnv e) = .next (t.withEnv e)) :
    Takes s (.host (.store .word s.params.windowBase (encode i))) t := fun rest =>
  step_cmd.trans ((storeCmd_legal (decodeAfterEncode i hw)).trans (h rest))

theorem takes_idle (hp : s.phase = .wiIdle ∨ s.phase = .sdIdle) :
    Takes s (.tap r) ((s.completeRequest (.returnIdle 1)).complete 0#32) := by
  obtain hp | hp := hp <;>
    exact takes_tap (.returnIdle 1) (by simp [State.tapRequest, hp, Config.idleCycles]) (by simp [hp])
      (by simp only [State.phaseStep, completeRequest_phase, hp]; rfl)

theorem issued_completeRequest : (s.issued qs p).completeRequest q = s.issued (qs ++ [q]) p := by
  simp [State.issued, State.completeRequest, State.emit, ctlAfter]

/-- The return to Run-Test/Idle completes the command (41_addressed_access.md R172). -/
theorem Passes.complete (h : Passes s qs p) (hp : p = .wiIdle ∨ p = .sdIdle) (hlen : rs.length = qs.length + 1) :
    Runs s (rs.map .tap) ((s.issued (qs ++ [.returnIdle 1]) p).complete 0#32) := by
  obtain rfl | ⟨rs', r, rfl⟩ := List.eq_nil_or_concat' rs
  · cases hlen
  · rw [List.length_append, List.length_singleton] at hlen
    rw [List.map_append, ← issued_completeRequest]
    exact (h rs' (by omega)).append (takes_idle hp).runs

/-- WRITE_IR from WI_ENTER on (41_addressed_access.md R161). -/
theorem runs_writeIr (hp : s.phase = .wiEnter) (hl : s.target.irLength ≠ 0#8)
    (hlen : rs.length =
      3 + (if s.target.irPrescan = 0#16 then 0 else 1) + (if s.target.irPostscan = 0#16 then 0 else 1)) :
    Runs s (rs.map .tap) ((s.issued
      (addressedRequests .enterShiftIr s.target.irPrescan s.valueShift s.target.irPostscan) .wiIdle).complete 0#32) := by
  have hpass : Passes s (_ ++ ([s.valueShift] ++ padding s.target.irPostscan true)) .wiIdle :=
    (passes_wiLead hp).append (passes_wiTail (s := s.issued _ s.afterWiPre) rfl hl)
  have hrun := hpass.complete (rs := rs) (.inl rfl) (by
    simp only [List.length_append, List.length_singleton, length_padding, hlen]
    omega)
  simpa only [addressedRequests, List.append_assoc, List.cons_append, List.nil_append] using hrun

/-- The requests around the data shift, which alone writes DOUT. -/
theorem issued_captureDout {p'' : Phase} : (((s.issued qs p).captureDout r).passed q p').issued qs' p'' =
    (s.captureDout r).issued (qs ++ q :: qs') p'' := by
  show (((s.captureDout r).issued qs p).issued [q] p').issued qs' p'' = _
  rw [issued_issued, issued_issued]
  rfl

/-- SHIFT_DR from SD_ENTER on (41_addressed_access.md R167, R168). -/
theorem runs_shiftDr {v : Vec} {before after : List TapResp} (data : TapResp) (hp : s.phase = .sdEnter)
    (hv : s.dinVector = some v) (hn : s.oplNbits ≠ 0) (hbus : s.oplNbits ≤ s.params.busWidth)
    (hbefore : before.length = 1 + (if s.target.drPrescan = 0#8 then 0 else 1))
    (hafter : after.length = 1 + (if s.target.drPostscan = 0#8 then 0 else 1)) :
    Runs s ((before ++ data :: after).map .tap) (((s.captureDout data).issued
      (addressedRequests .enterShiftDr s.target.drPrescan
        (dataShift s.oplCap v s.oplNbits (decide (s.target.drPostscan = 0#8))) s.target.drPostscan)
      .sdIdle).complete 0#32) := by
  have hlead := passes_sdLead hp before (by
    simp only [List.length_append, List.length_singleton, length_padding, hbefore])
  have hrun := hlead.append (.cons (takes_sdData (r := data) (if_neg hn) hv hn hbus)
    ((passes_sdTail rfl).complete (rs := after) (.inr rfl) (by
      rw [length_padding]
      exact hafter.trans (Nat.add_comm ..))))
  rw [issued_captureDout] at hrun
  rw [List.map_append]
  exact hrun

/-- The state after a command word `w` whose phases have issued the requests `qs`, with the records and the DOUT it leaves:
completed (60_exceptions.md R205), and nothing else has changed (41_addressed_access.md R174). -/
def State.ended (s : State) (w : Word) (table : List DevRec) (dout : Memory Bool) (qs : List TapReq) : State :=
  { s.answered w 0#32 .none with table := table, dout := dout, trace := (qs.map .tap).reverse ++ s.trace }

/-- A command that has started as `u` completes in the mode it came from, its requests having led from Run-Test/Idle back
there. -/
theorem complete_issued {w : Word} (hA : s.Accepting) (hidle : s.tapCtl = .runTestIdle)
    (hu : u = { s.started w p with table := u.table, dout := u.dout })
    (hqs : ctlAfter qs .runTestIdle = .runTestIdle) :
    (u.issued qs p').complete 0#32 = s.ended w u.table u.dout qs := by
  have hhome : (if decide (s.phase = .hookWait) then Phase.hookWait else .idle) = s.phase := by
    obtain hp | hp := hA <;> rw [hp] <;> rfl
  have hctl : ctlAfter qs s.tapCtl = s.tapCtl := by rw [hidle, hqs]
  rw [hu]
  unfold State.complete State.home State.issued State.ended State.started State.answered
  dsimp only
  rw [hhome, hctl]

/-- The requests of a command, in the order they were issued. -/
theorem reverse_tapRequests {v w : Nat} (enter main : TapReq) (pre : BitVec v) (post : BitVec w) (trace : List Output) :
    (tapRequests (((addressedRequests enter pre main post).map .tap).reverse ++ trace)).reverse =
      (tapRequests trace).reverse ++ [enter] ++ padding pre false ++ [main] ++ padding post true ++ [.returnIdle 1] := by
  rw [← List.map_reverse, tapRequests_append, List.reverse_append, List.reverse_reverse]
  simp only [addressedRequests, List.append_assoc, List.cons_append, List.nil_append]

theorem writeIr_wellFormed {idx : Nat} (hi : idx < s.deviceCount.toNat) : Instr.wellFormed (.writeIr idx) = true :=
  decide_eq_true (hi.trans s.deviceCount.isLt)

/-- The record that a WRITE_IR addresses holds what the scan has written there (10_state.md R25). -/
theorem filled_target {idx : Nat} (hi : idx < s.deviceCount.toNat) : (s.slot idx).SameScan (s.filled idx).target := by
  obtain ⟨-, hidx, -⟩ := Laws.Fields.writeIr idx (writeIr_wellFormed hi)
  have htarget : (s.filled idx).target = (s.fillCache idx s.arg).slot idx := congrArg (s.filled idx).slot hidx
  exact htarget ▸ (fillCache_sameScan idx idx s.arg).1

/-- The operands of a SHIFT_DR just started are those its word was assembled from (30_encoding.md R81). -/
theorem shiftDr_operands {idx nbits : Nat} (cap : Bool) (hi : idx < s.deviceCount.toNat) (hn : nbits < 4096) :
    Instr.wellFormed (.shiftDr idx nbits cap) = true ∧
    (s.started (encode (.shiftDr idx nbits cap)) p).target = s.slot idx ∧
    (s.started (encode (.shiftDr idx nbits cap)) p).oplNbits = nbits ∧
    (s.started (encode (.shiftDr idx nbits cap)) p).oplCap = cap := by
  have hw : Instr.wellFormed (.shiftDr idx nbits cap) = true := by
    simp [Instr.wellFormed, idxFits, nbitsFits, hn, hi.trans s.deviceCount.isLt]
  obtain ⟨-, hidx, hnbits, hcap, -⟩ := Laws.Fields.shiftDr idx nbits cap hw
  exact ⟨hw, congrArg s.slot hidx, hnbits, hcap⟩

/-- DOUT after a data shift, bit by bit (41_addressed_access.md R168). -/
theorem read_captureDout (b : Nat) : (s.captureDout r).dout.read b =
    if s.oplCap = true ∧ b < s.oplNbits then some (r.tdo.getLsbD b) else s.dout.read b := by
  rw [captureDout_dout]
  cases s.oplCap
  · simp
  · simp [Memory.read_writeBits]

end Sys2Proof.Machine

open Sys2Proof Sys2Proof.Machine

/-- Settles O33: acceptance fills the caches (`execWriteIr_miss`), the phases issue the requests (`runs_writeIr`), and the
command ends as `complete_issued` says. -/
theorem writeIrToCompletion : Obligations.WriteIrToCompletion := by
  intro s idx resps rest hA hi _ hidle hl hc hlen
  have haccept := takes_command (t := s.filled idx) (writeIr_wellFormed hi)
    fun e => execWriteIr_miss (s := s.withEnv e) hA hi hc
  obtain ⟨-, hir, hpre, hpost, -⟩ := filled_target hi
  rw [← hpre, ← hpost] at hlen
  have hrun := (Runs.cons haccept (runs_writeIr rfl (hir ▸ hl) hlen)).runSteps rest
  have hctl := ctlAfter_addressed (pre := (s.filled idx).target.irPrescan) (enter := .enterShiftIr) (.inl rfl) rfl
    (contract_valueShift (s.filled idx) _)
  rw [complete_issued (p := .wiEnter) hA hidle rfl hctl, List.length_cons, List.length_map] at hrun
  refine ⟨_, hrun, rfl, fun a ha => slot_filled ha, (reverse_tapRequests ..).trans ?_⟩
  unfold State.valueShift State.irVector padding
  rw [hir, hpre, hpost]
  rfl

/-- Settles O34: acceptance starts the command (`execShiftDr_starts`), the phases issue the requests and write DOUT
(`runs_shiftDr`), and the command ends as `complete_issued` says. -/
theorem shiftDrToCompletion : Obligations.ShiftDrToCompletion := by
  intro s idx nbits cap v before after data rest hA hi h1 hn hmax hidle hv hbefore hafter
  obtain ⟨hw, htarget, hnbits, hcap⟩ := shiftDr_operands (p := .sdEnter) cap hi hn
  have haccept := takes_command (t := s.started _ .sdEnter) hw
    fun e => execShiftDr_starts (s := s.withEnv e) cap hA hi h1 hmax
  rw [← htarget] at hbefore hafter
  have hphases := runs_shiftDr (s := s.started _ .sdEnter) data rfl hv (by omega)
    (hnbits.trans_le (hmax.trans maxDrBits_le_busWidth)) hbefore hafter
  have hctl := ctlAfter_addressed (pre := (s.slot idx).drPrescan) (enter := .enterShiftDr) (.inr rfl) rfl
    (contract_dataShift cap v nbits (decide ((s.slot idx).drPostscan = 0#8)) _)
  rw [htarget, hnbits, hcap, complete_issued (p := .sdEnter) hA hidle rfl hctl] at hphases
  have hrun := (Runs.cons haccept hphases).runSteps rest
  have hlen : before.length + after.length + 2 = ((before ++ data :: after).map Move.tap).length + 1 := by
    simp only [List.length_map, List.length_append, List.length_cons]
    omega
  rw [List.length_cons, ← hlen] at hrun
  refine ⟨_, hrun, rfl, fun b => ?_, reverse_tapRequests ..⟩
  have hdout := read_captureDout (s := s.started (encode (.shiftDr idx nbits cap)) .sdEnter) (r := data) b
  rw [hcap, hnbits] at hdout
  exact hdout

end

section
/-! SUPPORT. The readbacks (42_readback.md R180 to R191): each ends in its acceptance step, dropped or answered. -/
namespace Sys2Proof

/-- The commands of 42_readback.md: those that start nothing and touch no TAP. -/
def Instr.IsReadback : Instr → Prop
  | .scan | .scanh | .hookDone | .writeIr _ | .shiftDr _ _ _ => False
  | _ => True

theorem isReadback_indexed {i : Instr} {idx : Nat} (h : i ∈ [Instr.rdIdcode idx, .rdIrlen idx, .rdDesc idx, .rdIndex idx,
    .rdIrpre idx, .rdIrpost idx, .rdDrpre idx, .rdDrpost idx, .rdCurir idx, .rdCurirk idx]) : i.IsReadback := by
  simp only [List.mem_cons, List.not_mem_nil, or_false] at h
  rcases h with rfl | rfl | rfl | rfl | rfl | rfl | rfl | rfl | rfl | rfl <;> trivial

end Sys2Proof

namespace Sys2Proof.Machine

variable {s t : State} {i : Instr}

/-- A readback starts nothing: while BUSY it is dropped (60_exceptions.md R204), else it is answered, with its field or with
a refusal (R203, R205). -/
theorem Accepted.readback (ha : Accepted s i t) (hi : i.IsReadback) :
    t = s.dropCommand ∨ ∃ r e, t = s.answered (encode i) r e := by
  cases ha with
  | drop _ => exact .inl rfl
  | reject hb code => exact .inr ⟨_, _, reject_eq (mode_ne_busy.1 hb) _ code⟩
  | complete hb r => exact .inr ⟨_, _, complete_eq (mode_ne_busy.1 hb) _ r⟩
  | scan _ hs => obtain rfl | rfl := hs <;> exact hi.elim
  | hookDone _ hd => subst hd; exact hi.elim
  | writeIr _ _ hw _ => subst hw; exact hi.elim
  | shiftDr _ _ _ _ hd _ _ _ => subst hd; exact hi.elim

/-- On a live device an indexed readback answers the field of its rule (42_readback.md R180). -/
theorem readback_live {idx : Nat} (hA : s.Accepting) (hi : idx < s.deviceCount.toNat)
    (ha : allowed i .idle = true ∧ allowed i .hook = true) (f : DevRec → Word) :
    s.readback i idx f = s.answered (encode i) (f (s.slot idx)) .none :=
  (accept_live hA hi ha _).trans (complete_eq hA ..)

/-- RD_CURIRK's bit as a word (42_readback.md R191). -/
theorem setWidth_ofBool (b : Bool) : (BitVec.ofBool b).setWidth 32 = if b then 1#32 else 0#32 := by
  cases b <;> rfl

end Sys2Proof.Machine

open Sys2Proof Sys2Proof.Machine

/-- Settles O19: a readback is dropped or answered (`Accepted.readback`), and neither writes anything else. -/
theorem readbackFrame : Obligations.ReadbackFrame := by
  intro s t i hi h
  have hread : i.IsReadback := by
    obtain rfl | ⟨idx, hmem⟩ := hi
    · trivial
    · exact isReadback_indexed hmem
  obtain ⟨u, hu, ha⟩ := exec_cases i s
  cases hu.symm.trans h
  obtain rfl | ⟨r, e, rfl⟩ := ha.readback hread <;> exact ⟨rfl, fun _ => ⟨rfl, rfl, rfl⟩⟩

/-- Settles O10: RD_COUNT has no index check (`accept_allowed`); on a live device the others answer their field
(`readback_live`). -/
theorem readbacksAnswerTheirField : Obligations.ReadbacksAnswerTheirField := by
  refine ⟨fun s hA => congrArg Host.Outcome.next ((accept_allowed hA ⟨rfl, rfl⟩ _).trans (complete_eq hA ..)),
    fun s idx hA hi => ?_⟩
  rw [← setWidth_ofBool]
  and_intros <;> exact congrArg Host.Outcome.next (readback_live hA hi ⟨rfl, rfl⟩ _)

end

section
/-! SUPPORT. A store to CMD and the `drop` flag (60_exceptions.md R201, R204): set while BUSY, cleared by acceptance. -/
namespace Sys2Proof.Machine

variable {s t : State} {w : Word}

/-- A CMD write while BUSY is dropped, legal or not (60_exceptions.md R204). -/
theorem storeCmd_busy (h : s.mode = .busy) (w : Word) : s.storeCmd w = .next s.dropCommand := by
  cases hd : decode w with
  | ok i => exact (storeCmd_legal hd).trans (exec_busy h i)
  | error e =>
    unfold State.storeCmd State.acceptIllegal
    rw [hd]
    exact congrArg Host.Outcome.next (if_pos h)

/-- Outside BUSY a command's acceptance step leaves `drop` clear, whatever it leads to: `latch` clears it and no outcome
sets it again (60_exceptions.md R201). -/
theorem Accepted.drop_clear {i : Instr} (ha : Accepted s i t) (hA : s.Accepting) : t.drop = false := by
  cases ha with
  | drop hb => exact absurd hb (mode_ne_busy.2 hA)
  | _ => exact latch_drop s (encode i)

/-- An accepted CMD write leaves `drop` clear, legal or not (60_exceptions.md R201, R213). -/
theorem storeCmd_drop_clear (hA : s.Accepting) (h : s.storeCmd w = .next t) : t.drop = false := by
  cases hd : decode w with
  | ok i =>
    obtain ⟨u, hu, ha⟩ := exec_cases i s
    cases ((storeCmd_legal hd).trans hu).symm.trans h
    exact ha.drop_clear hA
  | error e =>
    cases (storeCmd_illegal hA hd).symm.trans h
    rfl

end Sys2Proof.Machine

open Sys2Proof Sys2Proof.Machine

/-- Settles O18: the store runs as `storeCmd`, which drops the word while BUSY (`storeCmd_busy`) and clears `drop` otherwise
(`storeCmd_drop_clear`). -/
theorem busyCommandIsDropped : Obligations.BusyCommandIsDropped :=
  ⟨fun s w rest hb => step_cmd.trans (storeCmd_busy (s := s.withEnv rest) (mode_eq_busy.2 hb) w),
    fun s _ _ rest hA h => storeCmd_drop_clear (s := s.withEnv rest) hA (step_cmd.symm.trans h), fun _ => rfl⟩

end

section
/-! SUPPORT. Reset (70_reset_and_hazards.md R230, R231), and the faults of an entry that has not been written since (R232): in
a load of the window, at the hint SCANH stands at and in the data SHIFT_DR takes. -/
namespace Sys2Proof.Machine

variable {s : State} {rest : List Move}

/-- A step that takes RST is the block reset of the state whose first move is taken (R230). -/
theorem step_rst : step (s.withEnv (.rst :: rest)) = .next (s.withEnv rest).blockReset := by rfl

/-! ### Loads of unwritten entries -/

/-- A load of word `w` of the buffer at offset `base` that the register map answers with a fault. -/
theorem load_word_err {base w : Nat} {f : Fault} (hbase : base ≤ 0x300) (ha : base % 4 = 0) (hw : w < 64)
    (h : s.loadAt (base + 4 * w) = .error f) :
    step (s.withEnv (.host (.load .word (s.params.windowBase + base + 4 * w)) :: rest)) = .fault f := by
  rw [Nat.add_assoc]
  exact load_err (by omega) (by omega) h

theorem loadAt_hintWord {q : Nat} (hq : q < 64) : s.loadAt (0x100 + 4 * q) = s.loadHint q := by
  rw [loadAt_hint (by omega) (by omega), Nat.add_sub_cancel_left, Nat.mul_div_cancel_left q (by decide)]

theorem loadAt_dinWord {w : Nat} (hw : w < 64) : s.loadAt (0x200 + 4 * w) = s.loadDin w := by
  rw [loadAt_din (by omega) (by omega), Nat.add_sub_cancel_left, Nat.mul_div_cancel_left w (by decide)]

theorem loadAt_doutWord {w : Nat} (hw : w < 64) : s.loadAt (0x300 + 4 * w) = s.loadDout w := by
  rw [loadAt_dout (by omega) (by omega), Nat.add_sub_cancel_left, Nat.mul_div_cancel_left w (by decide)]

/-- The HINT word of an unwritten entry has no value. -/
theorem loadHint_unwritten {k : Nat} (hk : k < s.params.maxDevs) (h : s.hint.read k = none) :
    s.loadHint (k / 4) = .error .hintReadUnwritten := by
  refine loadHint_none (k / 4) (k % 4) (by omega) ?_
  rw [Nat.div_add_mod]
  exact hintByte_none hk h

theorem loadDin_unwritten {w : Nat} (hw : w < s.params.maxDrWords) (h : s.din.read w = none) :
    s.loadDin w = .error .dinReadUnwritten := by
  unfold State.loadDin
  rw [if_neg (by omega), h]

/-- The DOUT word of an unwritten bit has no value. -/
theorem loadDout_unwritten {b : Nat} (hb : b < 32 * s.params.maxDrWords) (h : s.dout.read b = none) :
    s.loadDout (b / 32) = .error .doutReadUnwritten := by
  have hword : doutNumber s.dout (32 * (b / 32)) 32 = none := by
    refine doutNumber_none _ _ _ (b % 32) (by omega) ?_
    rw [Nat.div_add_mod]
    exact h
  unfold State.loadDout
  rw [if_neg (by omega), hword]

/-! ### Unwritten entries a command takes -/

/-- What IR_HINT finds at an unwritten entry. -/
theorem hintEntry_unwritten (hk : s.k.toNat < s.params.maxDevs) (h : s.hint.read s.k.toNat = none) :
    s.hintEntry = .unwritten := by
  unfold State.hintEntry
  rw [if_neg (by omega), h]

/-- IR_HINT at an unwritten entry issues no request: the core's turn faults (40_discovery.md R124). -/
theorem step_irHint_unwritten (hp : s.phase = .irHint) (he : s.hintEntry = .unwritten) (ht : s.CoreTurn) :
    step s = .fault .hintUsedUnwritten := by
  have hq : s.tapRequest = none := by simp only [State.tapRequest, State.hintRequest, hp, he]
  have he' : (s.withEnv s.env.tail).hintEntry = .unwritten := he
  rw [step_core hq ht]
  simp only [State.phaseStep, State.phaseIrHint, show (s.withEnv s.env.tail).phase = .irHint from hp, he']

/-- SD_DATA without a vector issues no request: the core's turn faults (41_addressed_access.md R167). -/
theorem step_sdData_unwritten (hp : s.phase = .sdData) (hv : s.dinVector = none) (ht : s.CoreTurn) :
    step s = .fault .dinUsedUnwritten := by
  have hq : s.tapRequest = none := by simp only [State.tapRequest, State.dataRequest, hp, hv, ite_self]
  have hv' : (s.withEnv s.env.tail).dinVector = none := hv
  rw [step_core hq ht]
  simp only [State.phaseStep, State.phaseSdData, show (s.withEnv s.env.tail).phase = .sdData from hp, hv']

end Sys2Proof.Machine

open Sys2Proof Sys2Proof.Machine

/-- Settles O57: the word of an unwritten entry has no value, so its load faults (`load_word_err`); at an unwritten hint and
without all its data a command issues no request and its phase faults; reset leaves the three buffers empty. -/
theorem unwrittenEntriesFault : Obligations.UnwrittenEntriesFault := by
  refine ⟨fun s rest k hk hlt h => ?_, fun s rest w hw hlt h => ?_, fun s rest b hb hlt h => ?_,
    fun s hp hk h ht => step_irHint_unwritten hp (hintEntry_unwritten hk h) ht,
    fun s b hp hb h ht => step_sdData_unwritten hp (dinVector_none hb h) ht,
    fun p k => ⟨Memory.read_nil k, Memory.read_nil k, Memory.read_nil k⟩⟩
  · exact load_word_err (by decide) rfl (by omega) ((loadAt_hintWord (by omega)).trans (loadHint_unwritten hk h))
  · exact load_word_err (by decide) rfl hlt ((loadAt_dinWord hlt).trans (loadDin_unwritten hw h))
  · exact load_word_err (by decide) rfl (by omega) ((loadAt_doutWord (by omega)).trans (loadDout_unwritten hb h))

/-- Settles O8 (`step_rst`); the TAP controllers' state after reset is `State.resetWith`'s own. -/
theorem rstResetsTheBlock : Obligations.RstResetsTheBlock := fun _ _ => ⟨step_rst, rfl⟩

end
